-- ==== Sys2Proof/Word.lean ====
section
/-! DEFINITION. The bit vectors of LZMF (00_scope.md R8, R9): the 32-bit register and table word, the byte of
window memory, the 24-bit and 64-bit units of the command port. Plain names for core types, nothing else. -/
namespace Sys2Proof

/-- A byte of window memory (00_scope.md R10, "the byte (0..255) at address a"). -/
abbrev Byte := BitVec 8

/-- A control register, or an entry of `HEAD` or `PREV`: 32 bits (00_scope.md R8, 10_state.md R38, R39). -/
abbrev Word := BitVec 32

/-- The second operand field `B` of a command word: 24 bits (30_encoding.md R81). -/
abbrev Field24 := BitVec 24

/-- A command word: 64 bits, presented whole at the command port (30_encoding.md R80). -/
abbrev CommandWord := BitVec 64

end Sys2Proof
end

