-- ==== Sys2Proof/Syntax.lean ====
section
/-! DEFINITION. The syntax of LZMF's commands: the raw fields of a command word (30_encoding.md R81) and the 16
commands of 30_encoding.md R83, one constructor per row of opcode_table.json. Operands are bit vectors of the widths
the encoding gives them, so a value of `Instr` is always encodable; what can be ill formed is a raw `Command`
(WellFormed.lean). -/
namespace Sys2Proof

/-- The three fields of a command word (30_encoding.md R81): `word = OPC << 56 | B << 32 | A`. -/
structure Command where
  opc : BitVec 8
  b : Field24
  a : Word
deriving DecidableEq, Repr

/-- The 16 commands (30_encoding.md R83). The first argument of a constructor is the first operand as the assembler
writes it (30_encoding.md R89). -/
inductive Instr where
  /-- `NOP` (40_host_access.md R101). -/
  | nop
  /-- `SETR reg, value`: `B` = register number, `A` = value (R102). -/
  | setr (reg : Field24) (value : Word)
  /-- `GETR reg`: `B` = register number (R103). -/
  | getr (reg : Field24)
  /-- `STB addr, byte`: `A` = address, `B[7:0]` = byte (R104). -/
  | stb (addr : Word) (byte : Byte)
  /-- `LDB addr` (R105). -/
  | ldb (addr : Word)
  /-- `LDH index` (R106). -/
  | ldh (index : Word)
  /-- `LDP index` (R107). -/
  | ldp (index : Word)
  /-- `CLEAR` (41_hash_index.md R124). -/
  | clear
  /-- `SLIDE` (R125). -/
  | slide
  /-- `INSERT str` (R126). -/
  | insert (str : Word)
  /-- `INSERTN str, count`: `A` = str, `B` = count (R127). -/
  | insertn (str : Word) (count : Field24)
  /-- `LMATCH cur_match` (42_match_finder.md R144). -/
  | lmatch (cur : Word)
  /-- `CMP258 addr0, addr1`: `A` = first address, `B` = second address (R152). -/
  | cmp258 (addr0 : Word) (addr1 : Field24)
  /-- `COPY len, dist`: `A` = len, `B` = dist (43_copy_engine.md R163). -/
  | copy (len : Word) (dist : Field24)
  /-- `COPYS len, dist` (R164). -/
  | copys (len : Word) (dist : Field24)
  /-- `RESET` (40_host_access.md R108). -/
  | reset
deriving DecidableEq, Repr

end Sys2Proof
end

