-- ==== Sys2Proof/WellFormed.lean ====
section
/-! DEFINITION. When a raw command is well formed, written from the prose of 30_encoding.md R84 (reserved fields) and
R85 (illegal opcodes). The decoder (Decode.lean) is written from the table of R83 instead; that the two agree is an
obligation (`DecoderAcceptsExactlyWellFormedWords`). An `Instr` carries only encodable operands and needs no check. -/
namespace Sys2Proof

/-- 30_encoding.md R85: the opcode is in none of the illegal ranges `0x07`–`0x0F`, `0x14`–`0x1F`, `0x22`–`0x2F`,
`0x32`–`0x7E`, `0x80`–`0xFF`. -/
def Command.opcodeAssigned (c : Command) : Bool :=
  let n := c.opc.toNat
  !((0x07 ≤ n && n ≤ 0x0F) || (0x14 ≤ n && n ≤ 0x1F) || (0x22 ≤ n && n ≤ 0x2F) || (0x32 ≤ n && n ≤ 0x7E) || 0x80 ≤ n)

/-- 30_encoding.md R84, first part: `A` and `B` of NOP, CLEAR, SLIDE and RESET are zero. -/
def Command.noOperandsZero (c : Command) : Bool :=
  !(c.opc == 0x00#8 || c.opc == 0x10#8 || c.opc == 0x11#8 || c.opc == 0x7F#8) || (c.a == 0#32 && c.b == 0#24)

/-- 30_encoding.md R84, second part: `A` of GETR is zero. -/
def Command.getrAZero (c : Command) : Bool :=
  !(c.opc == 0x02#8) || c.a == 0#32

/-- 30_encoding.md R84, third part: `B` of LDB, LDH, LDP, INSERT and LMATCH is zero. -/
def Command.oneOperandBZero (c : Command) : Bool :=
  !(c.opc == 0x04#8 || c.opc == 0x05#8 || c.opc == 0x06#8 || c.opc == 0x12#8 || c.opc == 0x20#8) || c.b == 0#24

/-- 30_encoding.md R84, fourth part: bits `B[23:8]` of STB are zero. -/
def Command.stbHighZero (c : Command) : Bool :=
  !(c.opc == 0x03#8) || c.b.extractLsb' 8 16 == 0#16

/-- A raw command is well formed: its opcode is assigned and its reserved fields are zero (30_encoding.md R84, R85). -/
def Command.wellFormed (c : Command) : Bool :=
  c.opcodeAssigned && c.noOperandsZero && c.getrAZero && c.oneOperandBZero && c.stbHighZero

end Sys2Proof
end

