-- ==== Sys2Proof/Decode.lean ====
section
/-! DEFINITION. Decoding a command word (30_encoding.md R83 to R87), total on every 64-bit word and rejecting by name;
after it the encoder, the opcode table as masks and patterns, and the pseudo-instructions of R90. -/
namespace Sys2Proof

/-- Why a word is no command; both raise `Fault(ERR_OPCODE)`. -/
inductive DecodeError where
  /-- An opcode that is not in the table of 30_encoding.md R83 (R85). -/
  | unassignedOpcode (opc : BitVec 8)
  /-- A non-zero value in a field that must be zero for this opcode (R84). -/
  | reservedField (opc : BitVec 8)
deriving DecidableEq, Repr

/-- Split a word into its fields: `OPC = w[63:56]`, `B = w[55:32]`, `A = w[31:0]` (30_encoding.md R81, R87). -/
def Command.ofWord (w : CommandWord) : Command :=
  { opc := w.extractLsb' 56 8, b := w.extractLsb' 32 24, a := w.extractLsb' 0 32 }

/-- `word = OPC << 56 | B << 32 | A` (30_encoding.md R81). -/
def Command.word (c : Command) : CommandWord :=
  (c.opc.setWidth 64 <<< 56) ||| (c.b.setWidth 64 <<< 32) ||| c.a.setWidth 64

/-- The command, if its reserved fields are zero. -/
def checkReserved (opc : BitVec 8) (zero : Bool) (i : Instr) : Except DecodeError Instr :=
  if zero then .ok i else .error (.reservedField opc)

/-- Look the opcode up in the table of 30_encoding.md R83, then check the reserved fields (R84, R87). -/
def Command.decode (c : Command) : Except DecodeError Instr :=
  match c.opc with
  | 0x00#8 => checkReserved c.opc (c.b == 0 && c.a == 0) .nop
  | 0x01#8 => .ok (.setr c.b c.a)
  | 0x02#8 => checkReserved c.opc (c.a == 0) (.getr c.b)
  | 0x03#8 => checkReserved c.opc (c.b.extractLsb' 8 16 == 0) (.stb c.a (c.b.extractLsb' 0 8))
  | 0x04#8 => checkReserved c.opc (c.b == 0) (.ldb c.a)
  | 0x05#8 => checkReserved c.opc (c.b == 0) (.ldh c.a)
  | 0x06#8 => checkReserved c.opc (c.b == 0) (.ldp c.a)
  | 0x10#8 => checkReserved c.opc (c.b == 0 && c.a == 0) .clear
  | 0x11#8 => checkReserved c.opc (c.b == 0 && c.a == 0) .slide
  | 0x12#8 => checkReserved c.opc (c.b == 0) (.insert c.a)
  | 0x13#8 => .ok (.insertn c.a c.b)
  | 0x20#8 => checkReserved c.opc (c.b == 0) (.lmatch c.a)
  | 0x21#8 => .ok (.cmp258 c.a c.b)
  | 0x30#8 => .ok (.copy c.a c.b)
  | 0x31#8 => .ok (.copys c.a c.b)
  | 0x7F#8 => checkReserved c.opc (c.b == 0 && c.a == 0) .reset
  | _ => .error (.unassignedOpcode c.opc)

/-- The decoder (30_encoding.md R87). -/
def decode (w : CommandWord) : Except DecodeError Instr := (Command.ofWord w).decode

/-- The instruction the decoder reads from the word whose bits are `w`, as opcode_table.json numbers them: a command
is one 64-bit word, and bits above `nbits` are zero. -/
def decodeTableWord (nbits w : Nat) : Option Instr :=
  match decode (BitVec.ofNat 64 (w % 2 ^ nbits)) with
  | .ok i => some i
  | .error _ => none

/-! ## Encoding -/

/-- The fields of each command (30_encoding.md R83). -/
def Instr.command : Instr → Command
  | .nop => { opc := 0x00#8, b := 0, a := 0 }
  | .setr reg value => { opc := 0x01#8, b := reg, a := value }
  | .getr reg => { opc := 0x02#8, b := reg, a := 0 }
  | .stb addr byte => { opc := 0x03#8, b := byte.setWidth 24, a := addr }
  | .ldb addr => { opc := 0x04#8, b := 0, a := addr }
  | .ldh index => { opc := 0x05#8, b := 0, a := index }
  | .ldp index => { opc := 0x06#8, b := 0, a := index }
  | .clear => { opc := 0x10#8, b := 0, a := 0 }
  | .slide => { opc := 0x11#8, b := 0, a := 0 }
  | .insert str => { opc := 0x12#8, b := 0, a := str }
  | .insertn str count => { opc := 0x13#8, b := count, a := str }
  | .lmatch cur => { opc := 0x20#8, b := 0, a := cur }
  | .cmp258 addr0 addr1 => { opc := 0x21#8, b := addr1, a := addr0 }
  | .copy len dist => { opc := 0x30#8, b := dist, a := len }
  | .copys len dist => { opc := 0x31#8, b := dist, a := len }
  | .reset => { opc := 0x7F#8, b := 0, a := 0 }

/-- The word of an instruction. -/
def encode (i : Instr) : CommandWord := i.command.word

/-! ## The opcode table -/

/-- A row of opcode_table.json: the words `w` with `w &&& mask = pattern` are the command's. -/
structure OpcodeRow where
  mnemonic : String
  pattern : CommandWord
  mask : CommandWord
deriving DecidableEq, Repr

/-- A word belongs to a row. -/
def OpcodeRow.fits (r : OpcodeRow) (w : CommandWord) : Bool := w &&& r.mask == r.pattern

/-- The 16 rows of opcode_table.json ("match" and "mask"). -/
def opcodeTable : List OpcodeRow :=
  [⟨"NOP", 0x0000000000000000#64, 0xFFFFFFFFFFFFFFFF#64⟩, ⟨"SETR", 0x0100000000000000#64, 0xFF00000000000000#64⟩,
   ⟨"GETR", 0x0200000000000000#64, 0xFF000000FFFFFFFF#64⟩, ⟨"STB", 0x0300000000000000#64, 0xFFFFFF0000000000#64⟩,
   ⟨"LDB", 0x0400000000000000#64, 0xFFFFFFFF00000000#64⟩, ⟨"LDH", 0x0500000000000000#64, 0xFFFFFFFF00000000#64⟩,
   ⟨"LDP", 0x0600000000000000#64, 0xFFFFFFFF00000000#64⟩, ⟨"CLEAR", 0x1000000000000000#64, 0xFFFFFFFFFFFFFFFF#64⟩] ++
  [⟨"SLIDE", 0x1100000000000000#64, 0xFFFFFFFFFFFFFFFF#64⟩, ⟨"INSERT", 0x1200000000000000#64, 0xFFFFFFFF00000000#64⟩,
   ⟨"INSERTN", 0x1300000000000000#64, 0xFF00000000000000#64⟩, ⟨"LMATCH", 0x2000000000000000#64, 0xFFFFFFFF00000000#64⟩,
   ⟨"CMP258", 0x2100000000000000#64, 0xFF00000000000000#64⟩, ⟨"COPY", 0x3000000000000000#64, 0xFF00000000000000#64⟩,
   ⟨"COPYS", 0x3100000000000000#64, 0xFF00000000000000#64⟩, ⟨"RESET", 0x7F00000000000000#64, 0xFFFFFFFFFFFFFFFF#64⟩]

/-- The mnemonic of a command (30_encoding.md R83). -/
def Instr.mnemonic : Instr → String
  | .nop => "NOP" | .setr _ _ => "SETR" | .getr _ => "GETR" | .stb _ _ => "STB" | .ldb _ => "LDB" | .ldh _ => "LDH"
  | .ldp _ => "LDP" | .clear => "CLEAR" | .slide => "SLIDE" | .insert _ => "INSERT" | .insertn _ _ => "INSERTN"
  | .lmatch _ => "LMATCH" | .cmp258 _ _ => "CMP258" | .copy _ _ => "COPY" | .copys _ _ => "COPYS" | .reset => "RESET"

/-! ## Pseudo-instructions (30_encoding.md R90)

DESIGN CHOICE: where `addr+i` of STS or `R[OUT]+1` of LIT reaches `2^32` the sum fits no field `A` and the spec does not say
what the assembler does; `pseudoSts` and `pseudoLit` add on 32-bit words, so that the sum wraps to 0 there
(notes/assumptions/19.md). -/

/-- `QUERY str` = `INSERTN str, 0`. -/
def pseudoQuery (str : Word) : Instr := .insertn str 0

/-- `STS addr, "c0c1…cn"` = one STB per character, lowest address first. DESIGN CHOICE: an address at or above `2^32`, which
the spec gives no expansion for, wraps (notes/assumptions/19.md). -/
def pseudoSts (addr : Word) : List Byte → List Instr
  | [] => []
  | c :: cs => .stb addr c :: pseudoSts (addr + 1) cs

/-- `LIT byte` = `STB R[OUT], byte` ; `SETR OUT, R[OUT]+1`, for the current value `out` of `OUT` (register `0x20`).
DESIGN CHOICE: at `out = 2^32 - 1`, which the spec gives no expansion for, the second operand wraps to 0
(notes/assumptions/19.md). -/
def pseudoLit (out : Word) (byte : Byte) : List Instr := [.stb out byte, .setr 0x20 (out + 1)]

end Sys2Proof
end

