-- ==== Sys2Proof/Config.lean ====
section
/-! DEFINITION. What an implementation of LZMF fixes (00_scope.md R6, R7; 10_state.md R42) and the free values.

The six parameters of R6 are "arguments of the model": they stand in a `Config`, which `State` carries unchanged,
so that a statement about every state is a statement about every implementation (notes/assumptions/1.md).
The open function `HASHFN` and the bytes a fast copy leaves unspecified are opaque constants: nothing in Lean can
evaluate them or prove a value of them (notes/assumptions/2.md, 4.md). -/
namespace Sys2Proof

/-- Which total function `HASHFN` is (00_scope.md R6, 41_hash_index.md R122, R123).
`reference` is the spec's `HASHFN_REF`, used by its derived vectors; `implementation n` is the unknown function of
implementation number `n`. -/
inductive HashChoice where
  | reference
  | implementation (n : Nat)
deriving DecidableEq, Repr

/-- The implementation parameters of 00_scope.md R6. -/
structure Config where
  /-- `WBITS_MAX`: largest legal value of register `WBITS`; `PREV` has `2^WBITS_MAX` entries. -/
  wbitsMax : Nat
  /-- `HBITS_MAX`: largest legal value of register `HBITS`; `HEAD` has `2^HBITS_MAX` entries. -/
  hbitsMax : Nat
  /-- `CHUNK`: chunk width of the copy engine in bytes. -/
  chunk : Nat
  /-- `WIN_BYTES`: number of bytes of window memory. -/
  winBytes : Nat
  /-- `ID_VALUE`: value of the read-only register `ID`. -/
  idValue : Word
  /-- `HASHFN`. -/
  hash : HashChoice
deriving DecidableEq, Repr

/-- `MAX_MATCH` (00_scope.md R7). -/
def Config.maxMatch : Nat := 258

/-- The constraints of 00_scope.md R6's table. -/
abbrev Config.Legal (c : Config) : Prop :=
  1 ≤ c.wbitsMax ∧ c.wbitsMax ≤ 22 ∧ 1 ≤ c.hbitsMax ∧ c.hbitsMax ≤ 24 ∧ (c.chunk = 16 ∨ c.chunk = 32) ∧
    2 * 2 ^ c.wbitsMax + Config.maxMatch ≤ c.winBytes ∧ c.winBytes ≤ 2 ^ 24

/-- The defaults of 00_scope.md R6's table. `HASHFN` has no default there (it is OPEN): the unknown function of
implementation 0 (notes/assumptions/2.md). -/
def Config.default : Config :=
  { wbitsMax := 15, hbitsMax := 16, chunk := 16, winBytes := 65794, idValue := 0x4C5A4D46#32,
    hash := .implementation 0 }

/-- `HASHFN` of implementation `n`: OPEN (41_hash_index.md R122, 93_implementation_defined.md U5). A free value:
no body. -/
opaque Config.openHash : Nat → Word → Word

/-- The byte that draw number `k` leaves in a byte of the slack of a fast chunked COPY (43_copy_engine.md R165,
93_implementation_defined.md U3: any value). A free value: no body. -/
opaque Config.slackByte : Nat → Byte

end Sys2Proof
end

