-- ==== Sys2Proof/Machine/State.lean ====
section
/-! DEFINITION. The state of LZMF as plain data (10_state.md R20): the control register file, the window `WIN`, the
tables `HEAD` and `PREV`; and the model's own fields: the implementation parameters (00_scope.md R6), the command port
with what the host presents at it (10_state.md R22), the last response (30_encoding.md R88) and the counter of free
draws. Reset values are those of 10_state.md R36 and 70_reset_and_hazards.md R221. -/
namespace Sys2Proof.Machine

/-- A resumable signal (60_exceptions.md R191, R192). -/
inductive Signal where
  | needInput
  | needOutput
deriving DecidableEq, Repr

/-- A fault code (60_exceptions.md R191, R192). A command that ends with one is a NEXT state of this machine: LZMF
records the fault and goes on (R194). -/
inductive FaultCode where
  | errOpcode
  | errReg
  | errValue
  | errAddr
  | errChain
  | errOrder
deriving DecidableEq, Repr

/-- A completion code (60_exceptions.md R191). -/
inductive Code where
  | ok
  | signal (c : Signal)
  | fault (c : FaultCode)
deriving DecidableEq, Repr

/-- The 21 control registers by name (10_state.md R36). -/
inductive Reg where
  | id | status | result | seq | chunk | winbytes
  | wbits | hbits | level | triggerLevel | earlyLevel | maxChain | goodMatch | niceMatch | minMatch
  | strstart | lookahead | prevLength | matchStart | out | outEnd
deriving DecidableEq, Repr

/-- The contents of the control registers (10_state.md R25 to R36). `ID`, `CHUNK` and `WINBYTES` never change and read
as implementation parameters (R24): their home is `State.cfg`. -/
structure Regs where
  /-- `0x01` STATUS, R25 (fields: Flags.lean). -/
  status : Word
  /-- `0x02` RESULT, R27. -/
  result : Word
  /-- `0x03` SEQ, R26. -/
  seq : Word
  /-- `0x08` WBITS, R28. -/
  wbits : Word
  /-- `0x09` HBITS, R29. -/
  hbits : Word
  /-- `0x0A` LEVEL, R30. -/
  level : Word
  /-- `0x0B` TRIGGER_LEVEL, R30. -/
  triggerLevel : Word
  /-- `0x0C` EARLY_LEVEL, R30. -/
  earlyLevel : Word
  /-- `0x0D` MAX_CHAIN, R31. -/
  maxChain : Word
  /-- `0x0E` GOOD_MATCH, R31. -/
  goodMatch : Word
  /-- `0x0F` NICE_MATCH, R31. -/
  niceMatch : Word
  /-- `0x10` MIN_MATCH, R32. -/
  minMatch : Word
  /-- `0x18` STRSTART, R33. -/
  strstart : Word
  /-- `0x19` LOOKAHEAD, R33. -/
  lookahead : Word
  /-- `0x1A` PREV_LENGTH, R34. -/
  prevLength : Word
  /-- `0x1B` MATCH_START, R34. -/
  matchStart : Word
  /-- `0x20` OUT, R35. -/
  out : Word
  /-- `0x21` OUT_END, R35. -/
  outEnd : Word
deriving DecidableEq, Repr

/-- Bytes by address, in canonical form (`Memory.wf` of Ops.lean). -/
abbrev Memory := List Host.Cell

/-- Table entries by index, in the same canonical form. -/
abbrev Table := List (Nat × Word)

/-- The window memory `WIN` (10_state.md R37). `cells` holds the known bytes. `free` lists the addresses whose byte a
fast chunked COPY has left unspecified and no later command has written (43_copy_engine.md R165), each with the number
of its draw: such a byte reads as `Config.slackByte` of that number. -/
structure Window where
  cells : Memory
  free : List (Nat × Nat)
deriving DecidableEq, Repr

/-- Contents of the three memories, as (address, value) pairs: what a hardware reset leaves in them
(70_reset_and_hazards.md R222: any contents). -/
structure Image where
  win : Memory
  head : Table
  prev : Table
deriving DecidableEq, Repr

/-- What the host can do to LZMF (00_scope.md R4): present a command word, or assert the hardware reset, after which the
memories hold some contents nobody chose (70_reset_and_hazards.md R220, R222): the image is that free input. -/
inductive HostEvent where
  | command (w : CommandWord)
  | hardwareReset (image : Image)
deriving DecidableEq, Repr

/-- Reasons for which a step stops the machine. There are none: "every command word in every state has exactly one
outcome" (60_exceptions.md R206), and LZMF's own faults are completion codes after which it goes on (R194, R200). -/
inductive Fault : Type
deriving DecidableEq, Repr

/-- Reasons for which a step has no meaning. -/
inductive Refusal where
  /-- Raised by an arm of `exec` whose instruction has no meaning yet. Safe. No arm of this model raises it. -/
  | notModelled (mnemonic : String)
deriving DecidableEq, Repr

/-- The state. `cfg`, `port`, `response` and `draws` are the model's own fields; the rest is 10_state.md R20's list. -/
structure State where
  /-- The implementation parameters (00_scope.md R6); no step changes them. -/
  cfg : Config
  /-- The control register file (10_state.md R23, R36). -/
  regs : Regs
  /-- `WIN` (R37). -/
  win : Window
  /-- `HEAD` (R38). -/
  head : Table
  /-- `PREV` (R39). -/
  prev : Table
  /-- The code of the last response (30_encoding.md R88); none before the first response after a hardware reset. -/
  response : Option Code
  /-- How many free bytes have been drawn; the next draw has this number. -/
  draws : Nat
  /-- What the host presents at the command port, in order (10_state.md R22). -/
  port : List HostEvent
deriving DecidableEq, Repr

/-- Register values after reset (10_state.md R36, R43; 70_reset_and_hazards.md R221). -/
def Regs.reset (c : Config) : Regs :=
  { status := 0, result := 0, seq := 0, wbits := BitVec.ofNat 32 c.wbitsMax, hbits := BitVec.ofNat 32 c.hbitsMax,
    level := 0, triggerLevel := 0, earlyLevel := 0, maxChain := 0, goodMatch := 0, niceMatch := 0, minMatch := 3,
    strstart := 0, lookahead := 0, prevLength := 0, matchStart := 0, out := 0, outEnd := 0 }

/-- The machine right after hardware reset: registers as 70_reset_and_hazards.md R221 says, parameters at the defaults
of 00_scope.md R6, nothing presented at the port, no response yet, and memories that list nothing. The spec leaves the
memories' contents open (R222); every other contents is a state too, and what the spec states of a launch is stated
here for all of them (notes/assumptions/3.md). -/
def State.reset : State :=
  { cfg := Config.default, regs := Regs.reset Config.default, win := { cells := [], free := [] }, head := [], prev := [],
    response := none, draws := 0, port := [] }

end Sys2Proof.Machine
end

