-- ==== Sys2Proof/Machine/Flags.lean ====
section
/-! DEFINITION. The fields of `STATUS` (10_state.md R25) and the completion codes as numbers (60_exceptions.md R191). -/
namespace Sys2Proof.Machine

/-- Why a search stopped (42_match_finder.md R145). -/
inductive StopReason where
  | limit
  | budget
  | nice
  | noImprove
deriving DecidableEq, Repr

/-- `STOPR` values (42_match_finder.md R145); 0 means that no LMATCH has completed since reset. -/
def StopReason.number : StopReason → BitVec 3
  | .limit => 1
  | .budget => 2
  | .nice => 3
  | .noImprove => 4

/-- The fault code's number (60_exceptions.md R191). -/
def FaultCode.number : FaultCode → BitVec 4
  | .errOpcode => 8
  | .errReg => 9
  | .errValue => 10
  | .errAddr => 11
  | .errChain => 12
  | .errOrder => 13

/-- `CODE` (60_exceptions.md R191). -/
def Code.number : Code → BitVec 4
  | .ok => 0
  | .signal .needInput => 1
  | .signal .needOutput => 2
  | .fault c => c.number

/-! `STATUS` fields (10_state.md R25). -/

/-- Bit 0, `FAULT`. -/
def Status.fault (st : Word) : Bool := st.getLsbD 0
/-- Bits 7:4, `FCODE`. -/
def Status.fcode (st : Word) : BitVec 4 := st.extractLsb' 4 4
/-- Bit 8, `FOUND`. -/
def Status.found (st : Word) : Bool := st.getLsbD 8
/-- Bits 14:12, `STOPR`. -/
def Status.stopr (st : Word) : BitVec 3 := st.extractLsb' 12 3
/-- The bits no field has: 3:1, 11:9 and 31:15; they read 0. -/
def Status.reserved (st : Word) : Word := st &&& 0xFFFF8E0E#32

/-- `STATUS.FAULT <- 1` and `STATUS.FCODE <- c`. -/
def Status.setFault (c : FaultCode) (st : Word) : Word :=
  (st &&& 0xFFFFFF0E#32) ||| (c.number.setWidth 32 <<< 4) ||| 1#32

/-- `STATUS.FOUND <- b`. -/
def Status.setFound (b : Bool) (st : Word) : Word :=
  (st &&& 0xFFFFFEFF#32) ||| (if b then 0x100#32 else 0#32)

/-- `STATUS.STOPR <- r`. -/
def Status.setStopr (r : StopReason) (st : Word) : Word :=
  (st &&& 0xFFFF8FFF#32) ||| (r.number.setWidth 32 <<< 12)

/-- What a fault does to `STATUS` (60_exceptions.md R194): the first one since reset is recorded, a later one is not. -/
def Status.recordFault (c : FaultCode) (st : Word) : Word :=
  if Status.fault st then st else Status.setFault c st

/-- What a search that completes with `OK` does to `STATUS` (42_match_finder.md R144). -/
def Status.recordSearch (found : Bool) (stop : StopReason) (st : Word) : Word :=
  Status.setStopr stop (Status.setFound found st)

end Sys2Proof.Machine
end

