-- ==== Sys2Proof/Machine/Ops.lean ====
section
/-! DEFINITION. The operations every command is written with: the memories (20_memory.md R60 to R74), the response and
its bookkeeping (60_exceptions.md R190 to R200), the hardware reset and the command port (70_reset_and_hazards.md R220,
00_scope.md R5). -/
namespace Sys2Proof.Machine

/-! ## Lists of keys and values, keys rising -/

/-- The value at a key. -/
def lookup {α : Type} (k : Nat) : List (Nat × α) → Option α
  | [] => none
  | c :: cs => if c.1 = k then some c.2 else if k < c.1 then none else lookup k cs

/-- Put a value at a key, keeping the keys rising. -/
def insertAt {α : Type} (k : Nat) (v : α) : List (Nat × α) → List (Nat × α)
  | [] => [(k, v)]
  | c :: cs => if c.1 = k then (k, v) :: cs else if k < c.1 then (k, v) :: c :: cs else c :: insertAt k v cs

/-- Take a key away. -/
def eraseAt {α : Type} (k : Nat) : List (Nat × α) → List (Nat × α)
  | [] => []
  | c :: cs => if c.1 = k then cs else if k < c.1 then c :: cs else c :: eraseAt k cs

/-- The keys rise strictly. -/
abbrev keysRise {α : Type} (l : List (Nat × α)) : Prop := l.Pairwise (fun x y => x.1 < y.1)

/-! ## Memories: bytes or table entries in one canonical form -/

/-- What an address nothing lists reads as: 0. A launch with other contents is a state that lists them
(notes/assumptions/3.md). For `HEAD` and `PREV` this is `NIL` (00_scope.md R7). -/
def Memory.unlisted {n : Nat} : BitVec n := 0#n

/-- The canonical form: addresses strictly rising, and no entry equal to what an unlisted address reads as. -/
abbrev Memory.wf {n : Nat} (m : List (Nat × BitVec n)) : Prop :=
  keysRise m ∧ ∀ c ∈ m, c.2 ≠ Memory.unlisted

/-- Every listed address is below `size`. -/
abbrev Memory.within {n : Nat} (size : Nat) (m : List (Nat × BitVec n)) : Prop := ∀ c ∈ m, c.1 < size

/-- Read one byte or entry. -/
def Memory.read {n : Nat} (m : List (Nat × BitVec n)) (a : Nat) : BitVec n := (lookup a m).getD Memory.unlisted

/-- Write one byte or entry, keeping the canonical form. -/
def Memory.write {n : Nat} (m : List (Nat × BitVec n)) (a : Nat) (v : BitVec n) : List (Nat × BitVec n) :=
  if v = Memory.unlisted then eraseAt a m else insertAt a v m

/-- A memory of `size` places with the listed contents; a later pair for an address wins and a pair beyond the size
names no place. -/
def Memory.load {n : Nat} (size : Nat) (l : List (Nat × BitVec n)) : List (Nat × BitVec n) :=
  l.foldl (fun m c => if c.1 < size then Memory.write m c.1 c.2 else m) []

/-! ## The window `WIN` (10_state.md R37) -/

/-- `WIN[a]` (00_scope.md R10). A byte left unspecified reads as the free value of its draw. -/
def Window.read (w : Window) (a : Nat) : Byte :=
  match lookup a w.free with
  | some k => Config.slackByte k
  | none => Memory.read w.cells a

/-- `WIN[a] <- v`: a store makes the byte specified (40_host_access.md R104). -/
def Window.write (w : Window) (a : Nat) (v : Byte) : Window :=
  { cells := Memory.write w.cells a v, free := eraseAt a w.free }

/-- `unspecified(a, n)` (00_scope.md R10): byte `a + i` takes the free value of draw `draw + i`. -/
def Window.unspecify (draw a : Nat) : Nat → Window → Window
  | 0, w => w
  | n + 1, w =>
    Window.unspecify (draw + 1) (a + 1) n { cells := eraseAt a w.cells, free := insertAt a draw w.free }

/-- The window's canonical form: both lists are, and no address is in both. -/
abbrev Window.wf (w : Window) : Prop :=
  Memory.wf w.cells ∧ keysRise w.free ∧ ∀ f ∈ w.free, lookup f.1 w.cells = none

/-- Every address the window lists is below `size`. -/
abbrev Window.within (size : Nat) (w : Window) : Prop := Memory.within size w.cells ∧ ∀ f ∈ w.free, f.1 < size

/-! ## Ending a command -/

/-- How a command's own pseudocode ends (00_scope.md R10): `done` with the state it has made, or `signal` or `raise`,
which discard that state. -/
inductive Completion where
  | done (s : State)
  | signal (c : Signal)
  | fault (c : FaultCode)
deriving DecidableEq, Repr

/-- `R[RESULT] <- v`. -/
def State.setResult (v : Word) (s : State) : State := { s with regs := { s.regs with result := v } }

/-- `done(v)` after the changes in `s`. -/
def doneWith (v : Word) (s : State) : Completion := .done (s.setResult v)

/-- "adds 1 to `SEQ` modulo `2^32` as the last thing it does" (10_state.md R26), and the response's code. -/
def respond (c : Code) (s : State) : State :=
  { s with regs := { s.regs with seq := s.regs.seq + 1 }, response := some c }

/-- What a signal does to the state before the command (60_exceptions.md R193). -/
def takeSignal (c : Signal) (s : State) : State := respond (.signal c) s

/-- What a fault does to the state before the command (60_exceptions.md R194): the one shared exception entry of LZMF.
There is no handler, no saved pc and no return from it (R190, R199, R200). -/
def takeFault (c : FaultCode) (s : State) : State :=
  respond (.fault c) { s with regs := { s.regs with status := Status.recordFault c s.regs.status } }

/-- The state after a command that began in `s` and ended so (00_scope.md R5, R10). -/
def finish (s : State) : Completion → State
  | .done t => respond .ok t
  | .signal c => takeSignal c s
  | .fault c => takeFault c s

/-- The outcome of a command that began in `s`: always a next state. -/
def complete (s : State) (c : Completion) : Host.Outcome State Fault Refusal := .next (finish s c)

/-- The response port (30_encoding.md R88): `{CODE, RESULT}` as 36 bits; none before the first response. -/
def State.responseWord (s : State) : Option (BitVec 36) := s.response.map (fun c => c.number ++ s.regs.result)

/-! ## Resets (70_reset_and_hazards.md R220 to R222) -/

/-- The RESET command's effect on the registers (40_host_access.md R108). -/
def State.resetRegisters (s : State) : State := { s with regs := Regs.reset s.cfg }

/-- Hardware reset (R220): the registers are reset and the memories hold the image nobody chose. A command in progress
is abandoned, so no response is produced. -/
def hardwareReset (image : Image) (s : State) : State :=
  { s with
    regs := Regs.reset s.cfg
    win := { cells := Memory.load s.cfg.winBytes image.win, free := [] }
    head := Memory.load (2 ^ s.cfg.hbitsMax) image.head
    prev := Memory.load (2 ^ s.cfg.wbitsMax) image.prev
    response := none }

/-! ## The command port -/

/-- The next thing the host does and the state after it is taken from the port (10_state.md R22). -/
def nextEvent (s : State) : Option (HostEvent × State) :=
  match s.port with
  | [] => none
  | e :: rest => some (e, { s with port := rest })

/-- Present a word at the port, before anything else. -/
def State.present (w : CommandWord) (s : State) : State := { s with port := .command w :: s.port }

/-- A word that is no command (30_encoding.md R84, R85): `Fault(ERR_OPCODE)` and nothing else. -/
def illegalWord (s : State) : State := takeFault .errOpcode s

end Sys2Proof.Machine
end

