-- ==== Sys2Proof/Machine/Operands.lean ====
section
/-! DEFINITION. Where commands take their operands from (10_state.md R21): the control registers by number (R23, R36),
the quantities computed from them (00_scope.md R10), the hash operand of a position (41_hash_index.md R121 to R123), and
the assembler's spelling of a command (30_encoding.md R89). -/
namespace Sys2Proof.Machine

/-! ## The register map (10_state.md R36) -/

/-- Every register. -/
def Reg.all : List Reg :=
  [.id, .status, .result, .seq, .chunk, .winbytes, .wbits, .hbits, .level, .triggerLevel, .earlyLevel, .maxChain,
   .goodMatch, .niceMatch, .minMatch, .strstart, .lookahead, .prevLength, .matchStart, .out, .outEnd]

/-- The register's number. -/
def Reg.number : Reg → Field24
  | .id => 0x00 | .status => 0x01 | .result => 0x02 | .seq => 0x03 | .chunk => 0x04 | .winbytes => 0x05
  | .wbits => 0x08 | .hbits => 0x09 | .level => 0x0A | .triggerLevel => 0x0B | .earlyLevel => 0x0C | .maxChain => 0x0D
  | .goodMatch => 0x0E | .niceMatch => 0x0F | .minMatch => 0x10
  | .strstart => 0x18 | .lookahead => 0x19 | .prevLength => 0x1A | .matchStart => 0x1B | .out => 0x20 | .outEnd => 0x21

/-- The register a number names, if any. -/
def Reg.ofNumber (n : Field24) : Option Reg := Reg.all.find? (fun r => r.number == n)

/-- Access class RO (10_state.md R23, R36). -/
def Reg.readOnly : Reg → Bool
  | .id | .status | .result | .seq | .chunk | .winbytes => true
  | _ => false

/-- The values SETR may write (10_state.md R36). -/
def Reg.legalValue (c : Config) (r : Reg) (v : Word) : Bool :=
  match r with
  | .wbits => 1 ≤ v.toNat && v.toNat ≤ c.wbitsMax
  | .hbits => 1 ≤ v.toNat && v.toNat ≤ c.hbitsMax
  | .minMatch => v.toNat == 3 || v.toNat == 4
  | _ => true

/-- `R[NAME]` (00_scope.md R10). `ID`, `CHUNK` and `WINBYTES` read as parameters (10_state.md R24). -/
def State.readReg (s : State) : Reg → Word
  | .id => s.cfg.idValue
  | .status => s.regs.status
  | .result => s.regs.result
  | .seq => s.regs.seq
  | .chunk => BitVec.ofNat 32 s.cfg.chunk
  | .winbytes => BitVec.ofNat 32 s.cfg.winBytes
  | .wbits => s.regs.wbits
  | .hbits => s.regs.hbits
  | .level => s.regs.level
  | .triggerLevel => s.regs.triggerLevel
  | .earlyLevel => s.regs.earlyLevel
  | .maxChain => s.regs.maxChain
  | .goodMatch => s.regs.goodMatch
  | .niceMatch => s.regs.niceMatch
  | .minMatch => s.regs.minMatch
  | .strstart => s.regs.strstart
  | .lookahead => s.regs.lookahead
  | .prevLength => s.regs.prevLength
  | .matchStart => s.regs.matchStart
  | .out => s.regs.out
  | .outEnd => s.regs.outEnd

/-- `R[NAME] <- v` for a register SETR may write; a read-only register is not written this way (10_state.md R23). -/
def State.writeReg (s : State) (r : Reg) (v : Word) : State :=
  match r with
  | .id | .status | .result | .seq | .chunk | .winbytes => s
  | .wbits => { s with regs := { s.regs with wbits := v } }
  | .hbits => { s with regs := { s.regs with hbits := v } }
  | .level => { s with regs := { s.regs with level := v } }
  | .triggerLevel => { s with regs := { s.regs with triggerLevel := v } }
  | .earlyLevel => { s with regs := { s.regs with earlyLevel := v } }
  | .maxChain => { s with regs := { s.regs with maxChain := v } }
  | .goodMatch => { s with regs := { s.regs with goodMatch := v } }
  | .niceMatch => { s with regs := { s.regs with niceMatch := v } }
  | .minMatch => { s with regs := { s.regs with minMatch := v } }
  | .strstart => { s with regs := { s.regs with strstart := v } }
  | .lookahead => { s with regs := { s.regs with lookahead := v } }
  | .prevLength => { s with regs := { s.regs with prevLength := v } }
  | .matchStart => { s with regs := { s.regs with matchStart := v } }
  | .out => { s with regs := { s.regs with out := v } }
  | .outEnd => { s with regs := { s.regs with outEnd := v } }

/-! ## Quantities computed from registers (00_scope.md R10) -/

/-- `wsize = 1 << R[WBITS]`. -/
def State.wsize (s : State) : Nat := 2 ^ s.regs.wbits.toNat
/-- `wmask = wsize - 1`. -/
def State.wmask (s : State) : Nat := s.wsize - 1
/-- `hmask = (1 << R[HBITS]) - 1`. -/
def State.hmask (s : State) : Nat := 2 ^ s.regs.hbits.toNat - 1
/-- The `PREV` index of a position, `p & wmask` (10_state.md R39). -/
def State.prevIndex (s : State) (p : Nat) : Nat := p &&& s.wmask
/-- One past the last valid input byte, `R[STRSTART] + R[LOOKAHEAD]` (10_state.md R33). -/
def State.validEnd (s : State) : Nat := s.regs.strstart.toNat + s.regs.lookahead.toNat
/-- The output budget `left = R[OUT_END] ∸ R[OUT]` (43_copy_engine.md R162). -/
def State.left (s : State) : Nat := s.regs.outEnd.toNat - s.regs.out.toNat

/-! ## The hash (41_hash_index.md R121 to R123) -/

/-- `HASHFN_REF(v) = ((v · 2654435761) mod 2^32) >> 16` (R123). -/
def hashReference (v : Word) : Word := (v * 2654435761#32) >>> 16

/-- `HASHFN` (R122). -/
def hashFunction : HashChoice → Word → Word
  | .reference => hashReference
  | .implementation n => Config.openHash n

/-- The hash covers three bytes, not four: `R[LEVEL] > R[TRIGGER_LEVEL]` (R121). -/
def State.lowByteMasked (s : State) : Bool := s.regs.triggerLevel.toNat < s.regs.level.toNat

/-- `val(p)` (R121): four window bytes, the first most significant, the last masked out above the trigger level. -/
def State.hashOperand (s : State) (p : Nat) : Word :=
  let val : Word := s.win.read p ++ s.win.read (p + 1) ++ s.win.read (p + 2) ++ s.win.read (p + 3)
  if s.lowByteMasked then val &&& 0xFFFFFF00#32 else val

/-- `HASHIDX(p) = HASHFN(val(p)) & hmask` (R122). -/
def State.hashIndex (s : State) (p : Nat) : Nat := (hashFunction s.cfg.hash (s.hashOperand p)).toNat &&& s.hmask

/-! ## Assembler spelling (30_encoding.md R89) -/

/-- The register's name (10_state.md R36). -/
def Reg.name : Reg → String
  | .id => "ID" | .status => "STATUS" | .result => "RESULT" | .seq => "SEQ" | .chunk => "CHUNK"
  | .winbytes => "WINBYTES" | .wbits => "WBITS" | .hbits => "HBITS" | .level => "LEVEL"
  | .triggerLevel => "TRIGGER_LEVEL" | .earlyLevel => "EARLY_LEVEL" | .maxChain => "MAX_CHAIN"
  | .goodMatch => "GOOD_MATCH" | .niceMatch => "NICE_MATCH" | .minMatch => "MIN_MATCH" | .strstart => "STRSTART"
  | .lookahead => "LOOKAHEAD" | .prevLength => "PREV_LENGTH" | .matchStart => "MATCH_START" | .out => "OUT"
  | .outEnd => "OUT_END"

/-- A register operand: its name, or its number where it names no register. -/
def registerText (n : Field24) : String :=
  match Reg.ofNumber n with
  | some r => r.name
  | none => Nat.repr n.toNat

/-- The written form of a command: SETR and GETR register first, the others field `A` first. -/
def assembly : Instr → String
  | .setr reg value => "SETR " ++ registerText reg ++ ", " ++ Nat.repr value.toNat
  | .getr reg => "GETR " ++ registerText reg
  | .stb addr byte => "STB " ++ Nat.repr addr.toNat ++ ", " ++ Nat.repr byte.toNat
  | .ldb a => "LDB " ++ Nat.repr a.toNat
  | .ldh a => "LDH " ++ Nat.repr a.toNat
  | .ldp a => "LDP " ++ Nat.repr a.toNat
  | .insert a => "INSERT " ++ Nat.repr a.toNat
  | .insertn a b => "INSERTN " ++ Nat.repr a.toNat ++ ", " ++ Nat.repr b.toNat
  | .lmatch a => "LMATCH " ++ Nat.repr a.toNat
  | .cmp258 a b => "CMP258 " ++ Nat.repr a.toNat ++ ", " ++ Nat.repr b.toNat
  | .copy a b => "COPY " ++ Nat.repr a.toNat ++ ", " ++ Nat.repr b.toNat
  | .copys a b => "COPYS " ++ Nat.repr a.toNat ++ ", " ++ Nat.repr b.toNat
  | .nop => "NOP"
  | .clear => "CLEAR"
  | .slide => "SLIDE"
  | .reset => "RESET"

end Sys2Proof.Machine
end

