-- ==== Sys2Proof/Machine/CopyEngine.lean ====
section
/-! DEFINITION. The chunked copy engine: COPY and COPYS (43_copy_engine.md R161 to R165), defined by the byte-serial
loop; and the reference chunked algorithm of R166 to R172, whose result R170 says is the same. -/
namespace Sys2Proof.Machine

/-! ## The architectural copy -/

/-- `SERIALCOPY(out, dist, len)` (R161): one byte at a time, each read seeing the writes before it. -/
def serialCopy (dist : Nat) : (len out : Nat) → Window → Window
  | 0, _, w => w
  | n + 1, out, w => serialCopy dist n (out + 1) (w.write out (w.read (out - dist)))

/-- The chunked regime (R163, R166): `slack = (left >= 3 * CHUNK) and (len > 0)`. -/
def State.chunkedRegime (s : State) (len : Nat) : Bool := 3 * s.cfg.chunk ≤ s.left && 0 < len

/-- `R[OUT] <- out`. -/
def State.setOut (out : Nat) (s : State) : State := { s with regs := { s.regs with out := BitVec.ofNat 32 out } }

/-- COPY's pseudocode (R163). The slack bytes become free values (R165). -/
def copyBody (len dist : Nat) (s : State) : Completion :=
  let out := s.regs.out.toNat
  if dist = 0 then .fault .errValue
  else if out < dist then .fault .errAddr
  else if s.left < len then .signal .needOutput
  else if s.cfg.winBytes < out + len then .fault .errAddr
  else if s.chunkedRegime len then
    if s.cfg.winBytes < out + len + s.cfg.chunk then .fault .errAddr
    else
      doneWith (BitVec.ofNat 32 (out + len))
        ({ s with
            win := (serialCopy dist len out s.win).unspecify s.draws (out + len) s.cfg.chunk
            draws := s.draws + s.cfg.chunk }.setOut (out + len))
  else doneWith (BitVec.ofNat 32 (out + len)) ({ s with win := serialCopy dist len out s.win }.setOut (out + len))

/-- COPY, the fast variant (R163). -/
def execCopy (len : Word) (dist : Field24) (s : State) : Host.Outcome State Fault Refusal :=
  complete s (copyBody len.toNat dist.toNat s)

/-- COPYS's pseudocode (R164). -/
def copysBody (len dist : Nat) (s : State) : Completion :=
  let out := s.regs.out.toNat
  if dist = 0 then .fault .errValue
  else if out < dist then .fault .errAddr
  else if s.left < len then .signal .needOutput
  else if s.cfg.winBytes < out + len then .fault .errAddr
  else doneWith (BitVec.ofNat 32 (out + len)) ({ s with win := serialCopy dist len out s.win }.setOut (out + len))

/-- COPYS, the safe variant (R164). -/
def execCopys (len : Word) (dist : Field24) (s : State) : Host.Outcome State Fault Refusal :=
  complete s (copysBody len.toNat dist.toNat s)

/-! ## The reference chunked algorithm (R166 to R172) -/

/-- `load(a)`: lane `i` is `WIN[a + i]` (R176). -/
def loadChunk (w : Window) (a n : Nat) : List Byte := (List.range n).map (fun i => w.read (a + i))

/-- `store(a, P)`: lane `i` goes to `WIN[a + i]` (R176). -/
def storeLanes (w : Window) (a : Nat) : List Byte → Window
  | [] => w
  | b :: bs => storeLanes (w.write a b) (a + 1) bs

/-- `put(a, P, n)` (R172): the first `n` lanes in the safe variant, every lane in the fast one. -/
def putChunk (safe : Bool) (w : Window) (a : Nat) (p : List Byte) (n : Nat) : Window :=
  storeLanes w a (if safe then p.take n else p)

/-- `k` whole chunks of the fixed value `p` (rules 2 and 3: broadcast, and `dist = C`). -/
def putSame (safe : Bool) (c : Nat) (p : List Byte) : (k out : Nat) → Window → Window
  | 0, _, w => w
  | k + 1, out, w => putSame safe c p k (out + c) (putChunk safe w out p c)

/-- `k` whole chunks, each loaded from `d` behind its destination (rule 2, unrolling; the chunks of a slice, rule 4). -/
def putBehind (safe : Bool) (c d : Nat) : (k out : Nat) → Window → Window
  | 0, _, w => w
  | k + 1, out, w => putBehind safe c d k (out + c) (putChunk safe w out (loadChunk w (out - d) c) c)

/-- A remainder of `r < C` bytes, loaded from `d` behind; nothing if there is none. The safe variant loads only the bytes
it stores (R172). -/
def putRest (safe : Bool) (c d r out : Nat) (w : Window) : Window :=
  if r = 0 then w else putChunk safe w out (loadChunk w (out - d) (if safe then r else c)) r

/-- Whole chunks of `p` and then its first lanes (R167, R169). -/
def replicateChunk (safe : Bool) (c : Nat) (p : List Byte) (len out : Nat) (w : Window) : Window :=
  let w' := putSame safe c p (len / c) out w
  if len % c = 0 then w' else putChunk safe w' (out + len / c * c) p (len % c)

/-- Whole chunks from `d` behind, then the remainder (R168, R171). -/
def copyBehind (safe : Bool) (c d len out : Nat) (w : Window) : Window :=
  putRest safe c d (len % c) (out + len / c * c) (putBehind safe c d (len / c) out w)

/-- R168's doubling loop and what follows it; `fuel` bounds the doublings (`d` is below `C` before each). -/
def unrollCopy (safe : Bool) (c : Nat) : (fuel d len out : Nat) → Window → Window
  | 0, d, len, out, w => copyBehind safe c d len out w
  | fuel + 1, d, len, out, w =>
    if d < c ∧ d < len then unrollCopy safe c fuel (2 * d) (len - d) (out + d) (serialCopy d d out w)
    else copyBehind safe c d len out w

/-- R171's slices of `min(dist, len)` bytes; `fuel` bounds their number. -/
def sliceCopy (safe : Bool) (c dist : Nat) : (fuel len out : Nat) → Window → Window
  | 0, _, _, w => w
  | fuel + 1, len, out, w =>
    if len = 0 then w
    else sliceCopy safe c dist fuel (len - min dist len) (out + min dist len) (copyBehind safe c dist (min dist len) out w)

/-- `CHUNKCOPY(out, dist, len, left, safe)` (R172). -/
def chunkCopy (c out dist len left : Nat) (safe : Bool) (w : Window) : Window :=
  if left < 3 * c then serialCopy dist len out w
  else if len = 0 then w
  else if dist < c then
    if (dist = 1 ∨ dist = 2 ∨ dist = 4 ∨ dist = 8) ∧ c % dist = 0 then
      replicateChunk safe c ((List.range c).map (fun i => w.read (out - dist + i % dist))) len out w
    else unrollCopy safe c c dist len out w
  else if dist = c then replicateChunk safe c (loadChunk w (out - c) c) len out w
  else sliceCopy safe c dist len len out w

end Sys2Proof.Machine
end

