-- ==== Sys2Proof/Machine/HashIndex.lean ====
section
/-! DEFINITION. The hash-index updater: CLEAR, SLIDE, INSERT, INSERTN (41_hash_index.md R124 to R129). -/
namespace Sys2Proof.Machine

/-! ## CLEAR and SLIDE -/

/-- Every entry of a table is `NIL` (R124). -/
def Table.cleared : Table := []

/-- CLEAR (R124). -/
def execClear (s : State) : Host.Outcome State Fault Refusal :=
  complete s (.done { s with head := Table.cleared, prev := Table.cleared })

/-- An entry after a slide: `m - wsize if m >= wsize else NIL` (R125). -/
def rebasedEntry (wsize : Nat) (m : Word) : Word := if wsize ≤ m.toNat then BitVec.ofNat 32 (m.toNat - wsize) else 0

/-- Entry `i` after a slide: rebased in entries `0 .. mask`, left alone above (R125). -/
def slidEntry (wsize mask i : Nat) (m : Word) : Word := if i ≤ mask then rebasedEntry wsize m else m

/-- Rebase a table (R125). An entry not listed is `NIL` and stays so, since `wsize` is at least 1. -/
def Table.rebase (wsize mask : Nat) : Table → Table
  | [] => []
  | c :: cs =>
    if slidEntry wsize mask c.1 c.2 = 0 then Table.rebase wsize mask cs
    else (c.1, slidEntry wsize mask c.1 c.2) :: Table.rebase wsize mask cs

/-- SLIDE (R125). -/
def execSlide (s : State) : Host.Outcome State Fault Refusal :=
  complete s (.done { s with head := Table.rebase s.wsize s.hmask s.head, prev := Table.rebase s.wsize s.wmask s.prev })

/-! ## INSERT and INSERTN -/

/-- The two tables and the previous bucket head of the last insertion, while a run is being inserted (R127). -/
structure IndexRun where
  head : Table
  prev : Table
  old : Word
deriving DecidableEq, Repr

/-- One iteration of R127's loop, for position `p`; none where the order check fails (R129). -/
def insertOne (s : State) (p : Nat) (t : IndexRun) : Option IndexRun :=
  let h := s.hashIndex p
  let old := Memory.read t.head h
  if old ≠ 0 ∧ p ≤ old.toNat then none
  else some { head := Memory.write t.head h (BitVec.ofNat 32 p), prev := Memory.write t.prev (s.prevIndex p) old, old := old }

/-- R127's loop: `count` positions from `p` upward, each seeing the writes of the ones before it. -/
def insertRun (s : State) : Nat → Nat → IndexRun → Option IndexRun
  | 0, _, t => some t
  | n + 1, p, t =>
    match insertOne s p t with
    | none => none
    | some t' => insertRun s n (p + 1) t'

/-- R127's pseudocode for a run of `count` positions from `str`, `count = 0` being R128's query. -/
def insertBody (str count : Nat) (s : State) : Completion :=
  if count = 0 then doneWith (Memory.read s.prev (s.prevIndex str)) s
  else if s.cfg.winBytes < str + count - 1 + 4 then .fault .errAddr
  else if s.validEnd < str + count - 1 + s.regs.minMatch.toNat then .signal .needInput
  else
    match insertRun s count str { head := s.head, prev := s.prev, old := 0 } with
    | none => .fault .errOrder
    | some t => doneWith t.old { s with head := t.head, prev := t.prev }

/-- INSERT (R126): "exactly that of `INSERTN str, 1`". -/
def execInsert (str : Word) (s : State) : Host.Outcome State Fault Refusal := complete s (insertBody str.toNat 1 s)

/-- INSERTN (R127, R128). -/
def execInsertn (str : Word) (count : Field24) (s : State) : Host.Outcome State Fault Refusal :=
  complete s (insertBody str.toNat count.toNat s)

end Sys2Proof.Machine
end

