-- ==== Sys2Proof/Machine/HostAccess.lean ====
section
/-! DEFINITION. The host-access commands NOP, SETR, GETR, STB, LDB, LDH, LDP and RESET (40_host_access.md R101 to
R108). A `…Body` is the command's own pseudocode; `complete` adds what every command does at its end (R100). -/
namespace Sys2Proof.Machine

/-- NOP (R101). -/
def execNop (s : State) : Host.Outcome State Fault Refusal := complete s (.done s)

/-- SETR's pseudocode (R102). -/
def setrBody (reg : Field24) (value : Word) (s : State) : Completion :=
  match Reg.ofNumber reg with
  | none => .fault .errReg
  | some r =>
    if r.readOnly then .fault .errReg
    else if r.legalValue s.cfg value then .done (s.writeReg r value)
    else .fault .errValue

/-- SETR (R102). -/
def execSetr (reg : Field24) (value : Word) (s : State) : Host.Outcome State Fault Refusal :=
  complete s (setrBody reg value s)

/-- GETR's pseudocode (R103). -/
def getrBody (reg : Field24) (s : State) : Completion :=
  match Reg.ofNumber reg with
  | none => .fault .errReg
  | some r => doneWith (s.readReg r) s

/-- GETR (R103). -/
def execGetr (reg : Field24) (s : State) : Host.Outcome State Fault Refusal := complete s (getrBody reg s)

/-- STB's pseudocode (R104). -/
def stbBody (addr : Word) (byte : Byte) (s : State) : Completion :=
  if s.cfg.winBytes ≤ addr.toNat then .fault .errAddr
  else .done { s with win := s.win.write addr.toNat byte }

/-- STB (R104). -/
def execStb (addr : Word) (byte : Byte) (s : State) : Host.Outcome State Fault Refusal :=
  complete s (stbBody addr byte s)

/-- LDB's pseudocode (R105): the byte zero-extended. -/
def ldbBody (addr : Word) (s : State) : Completion :=
  if s.cfg.winBytes ≤ addr.toNat then .fault .errAddr
  else doneWith ((s.win.read addr.toNat).setWidth 32) s

/-- LDB (R105). -/
def execLdb (addr : Word) (s : State) : Host.Outcome State Fault Refusal := complete s (ldbBody addr s)

/-- LDH's pseudocode (R106): the index is checked against the physical size. -/
def ldhBody (index : Word) (s : State) : Completion :=
  if 2 ^ s.cfg.hbitsMax ≤ index.toNat then .fault .errAddr
  else doneWith (Memory.read s.head index.toNat) s

/-- LDH (R106). -/
def execLdh (index : Word) (s : State) : Host.Outcome State Fault Refusal := complete s (ldhBody index s)

/-- LDP's pseudocode (R107): a table index, not a position. -/
def ldpBody (index : Word) (s : State) : Completion :=
  if 2 ^ s.cfg.wbitsMax ≤ index.toNat then .fault .errAddr
  else doneWith (Memory.read s.prev index.toNat) s

/-- LDP (R107). -/
def execLdp (index : Word) (s : State) : Host.Outcome State Fault Refusal := complete s (ldpBody index s)

/-- RESET (R108): every register takes its reset value, `SEQ` among them, which is not incremented. -/
def execReset (s : State) : Host.Outcome State Fault Refusal := .next { s.resetRegisters with response := some .ok }

end Sys2Proof.Machine
end

