-- ==== Sys2Proof/Machine/MatchFinder.lean ====
section
/-! DEFINITION. The match finder: LMATCH and CMP258 (42_match_finder.md R140 to R152). -/
namespace Sys2Proof.Machine

/-! ## The 258-byte compare -/

/-- How many of the next `n` byte positions from `a` and `b` agree before the first that does not. -/
def matchLenUpTo (w : Window) : Nat → Nat → Nat → Nat
  | 0, _, _ => 0
  | n + 1, a, b => if w.read a = w.read b then matchLenUpTo w n (a + 1) (b + 1) + 1 else 0

/-- `MATCHLEN(a, b)` (R140). -/
def matchLen (w : Window) (a b : Nat) : Nat := matchLenUpTo w Config.maxMatch a b

/-- CMP258's pseudocode (R152). -/
def cmp258Body (a b : Nat) (s : State) : Completion :=
  if s.cfg.winBytes < a + Config.maxMatch ∨ s.cfg.winBytes < b + Config.maxMatch then .fault .errAddr
  else doneWith (BitVec.ofNat 32 (matchLen s.win a b)) s

/-- CMP258 (R152). -/
def execCmp258 (addr0 : Word) (addr1 : Field24) (s : State) : Host.Outcome State Fault Refusal :=
  complete s (cmp258Body addr0.toNat addr1.toNat s)

/-! ## The search -/

/-- What a search does not change: its limits (R141 to R143, R146) and what it reads (R151). -/
structure SearchSetup where
  win : Window
  prev : Table
  wmask : Nat
  ss : Nat
  limit : Nat
  nice : Nat
  low : Bool
deriving DecidableEq, Repr

/-- What a search that is not ended by a fault leaves (R144), and the positions it examined, newest first (R143). -/
structure Search where
  best : Nat
  matchStart : Nat
  found : Bool
  stop : StopReason
  examined : List Nat
deriving DecidableEq, Repr

/-- The search ends before another candidate is examined. -/
def Search.stopped (best ms : Nat) (found : Bool) (stop : StopReason) : Search :=
  { best := best, matchStart := ms, found := found, stop := stop, examined := [] }

/-- The search has also examined `cur`, before what it went on to examine. -/
def Search.afterExamining (cur : Nat) (r : Search) : Search := { r with examined := cur :: r.examined }

/-- The next position on the chain, `PREV[cur & wmask]`. -/
def SearchSetup.link (q : SearchSetup) (cur : Nat) : Nat := (Memory.read q.prev (cur &&& q.wmask)).toNat

/-- R144's loop with `budget` examinations left; none where a link is not strictly earlier (`ERR_CHAIN`). The tests at
the top are limit, budget, link, in this order (R145). -/
def searchLoop (q : SearchSetup) : (budget cur bound best ms : Nat) → (found : Bool) → Option Search
  | 0, cur, _, best, ms, found =>
    some (Search.stopped best ms found (if cur ≤ q.limit then .limit else .budget))
  | n + 1, cur, bound, best, ms, found =>
    if cur ≤ q.limit then some (Search.stopped best ms found .limit)
    else if bound ≤ cur then none
    else if best < matchLen q.win q.ss cur then
      if q.nice ≤ matchLen q.win q.ss cur then
        some ((Search.stopped (matchLen q.win q.ss cur) cur true .nice).afterExamining cur)
      else (searchLoop q n (q.link cur) cur (matchLen q.win q.ss cur) cur true).map (Search.afterExamining cur)
    else if q.low then some ((Search.stopped best ms found .noImprove).afterExamining cur)
    else (searchLoop q n (q.link cur) cur best ms found).map (Search.afterExamining cur)

/-- The work budget (R141). -/
def State.searchBudget (s : State) : Nat :=
  if s.regs.goodMatch.toNat ≤ s.regs.prevLength.toNat then s.regs.maxChain.toNat >>> 1 else s.regs.maxChain.toNat

/-- The distance limit (R142). -/
def State.searchLimit (s : State) : Nat :=
  if s.wsize < s.regs.strstart.toNat then s.regs.strstart.toNat - s.wsize else 0

/-- The early-exit length (R143). -/
def State.searchNice (s : State) : Nat := min s.regs.niceMatch.toNat s.regs.lookahead.toNat

/-- The low-level early stop is active (R146). -/
def State.searchLow (s : State) : Bool := s.regs.level.toNat < s.regs.earlyLevel.toNat

/-- The setup of a search in state `s`. -/
def State.searchSetup (s : State) : SearchSetup :=
  { win := s.win, prev := s.prev, wmask := s.wmask, ss := s.regs.strstart.toNat, limit := s.searchLimit,
    nice := s.searchNice, low := s.searchLow }

/-- The search LMATCH makes from chain entry point `cur` (R144). -/
def State.search (s : State) (cur : Nat) : Option Search :=
  searchLoop s.searchSetup s.searchBudget cur s.regs.strstart.toNat s.regs.prevLength.toNat s.regs.matchStart.toNat false

/-- The state after a search: `MATCH_START`, `STATUS.FOUND` and `STATUS.STOPR` (R144). -/
def State.recordSearch (r : Search) (s : State) : State :=
  { s with regs := { s.regs with
      matchStart := BitVec.ofNat 32 r.matchStart
      status := Status.recordSearch r.found r.stop s.regs.status } }

/-- LMATCH's pseudocode (R144), with the clamp of R147. -/
def lmatchBody (cur : Nat) (s : State) : Completion :=
  if s.cfg.winBytes < s.regs.strstart.toNat + Config.maxMatch then .fault .errAddr
  else
    match s.search cur with
    | none => .fault .errChain
    | some r => doneWith (BitVec.ofNat 32 (min r.best s.regs.lookahead.toNat)) (s.recordSearch r)

/-- LMATCH (R144). -/
def execLmatch (cur : Word) (s : State) : Host.Outcome State Fault Refusal := complete s (lmatchBody cur.toNat s)

end Sys2Proof.Machine
end

