-- ==== Sys2Proof/Machine/Dispatch.lean ====
section
/-! DEFINITION. One arm per command of 30_encoding.md R83. -/
namespace Sys2Proof.Machine

def exec (i : Instr) (s : State) : Host.Outcome State Fault Refusal :=
  match i with
  | .nop => Sys2Proof.Machine.execNop s
  | .setr reg value => Sys2Proof.Machine.execSetr reg value s
  | .getr reg => Sys2Proof.Machine.execGetr reg s
  | .stb addr byte => Sys2Proof.Machine.execStb addr byte s
  | .ldb addr => Sys2Proof.Machine.execLdb addr s
  | .ldh index => Sys2Proof.Machine.execLdh index s
  | .ldp index => Sys2Proof.Machine.execLdp index s
  | .clear => Sys2Proof.Machine.execClear s
  | .slide => Sys2Proof.Machine.execSlide s
  | .insert str => Sys2Proof.Machine.execInsert str s
  | .insertn str count => Sys2Proof.Machine.execInsertn str count s
  | .lmatch cur => Sys2Proof.Machine.execLmatch cur s
  | .cmp258 addr0 addr1 => Sys2Proof.Machine.execCmp258 addr0 addr1 s
  | .copy len dist => Sys2Proof.Machine.execCopy len dist s
  | .copys len dist => Sys2Proof.Machine.execCopys len dist s
  | .reset => Sys2Proof.Machine.execReset s

end Sys2Proof.Machine
end

