-- ==== Sys2Proof/Machine/Step.lean ====
section
/-! DEFINITION. One step (00_scope.md R4, R5): the execution of the next command the host presents, from acceptance to
response; a hardware reset; or nothing, when the host presents nothing. -/
namespace Sys2Proof.Machine

/-- With nothing presented LZMF "is idle and holds its state indefinitely" (60_exceptions.md R205). -/
def step (s : State) : Host.Outcome State Fault Refusal :=
  match nextEvent s with
  | none => .next s
  | some (.hardwareReset image, t) => .next (hardwareReset image t)
  | some (.command w, t) =>
    match decode w with
    | .ok i => exec i t
    | .error _ => .next (illegalWord t)

/-- `s` with the word whose bits are `w` presented at the port before anything else: LZMF fetches nothing
(10_state.md R22), so this is what the host does to have a command run. -/
def State.withFetchWord (s : State) (nbits w : Nat) : State := s.present (BitVec.ofNat 64 (w % 2 ^ nbits))

end Sys2Proof.Machine
end

