-- ==== Sys2Proof/Safety.lean ====
section
/-! DEFINITION. The terms claims are stated in: the invariant of the machine, what a fault and a signal leave, launches
and runs, and the chain a search may follow. -/
namespace Sys2Proof.Machine

/-! ## The invariant -/

/-- The registers SETR restricts hold a legal value (10_state.md R28, R29, R32, R36). -/
abbrev State.RegistersLegal (s : State) : Prop :=
  1 ≤ s.regs.wbits.toNat ∧ s.regs.wbits.toNat ≤ s.cfg.wbitsMax ∧ 1 ≤ s.regs.hbits.toNat ∧
    s.regs.hbits.toNat ≤ s.cfg.hbitsMax ∧ (s.regs.minMatch.toNat = 3 ∨ s.regs.minMatch.toNat = 4)

/-- `STATUS` holds only what 10_state.md R25 allows: reserved bits 0; `FCODE` 0 while `FAULT` = 0 and a fault code (8..13)
otherwise; `STOPR` at most 4, and not 0 where `FOUND` is 1. -/
abbrev Status.Legal (st : Word) : Prop :=
  Status.reserved st = 0 ∧ (Status.fault st = false → Status.fcode st = 0) ∧
    (Status.fault st = true → 8 ≤ (Status.fcode st).toNat ∧ (Status.fcode st).toNat ≤ 13) ∧
    (Status.stopr st).toNat ≤ 4 ∧ (Status.found st = true → Status.stopr st ≠ 0)

/-- The three memories are in canonical form and list no address outside them (20_memory.md R60, R66). -/
abbrev State.MemoriesLegal (s : State) : Prop :=
  s.win.wf ∧ s.win.within s.cfg.winBytes ∧ Memory.wf s.head ∧ Memory.within (2 ^ s.cfg.hbitsMax) s.head ∧
    Memory.wf s.prev ∧ Memory.within (2 ^ s.cfg.wbitsMax) s.prev

/-- A fault in the last response is on record in `STATUS.FAULT` (60_exceptions.md R194). -/
def State.faultOnRecord (s : State) : Bool :=
  match s.response with
  | some (.fault _) => Status.fault s.regs.status
  | _ => true

/-- The invariant every step keeps. -/
abbrev State.Inv (s : State) : Prop :=
  s.cfg.Legal ∧ s.RegistersLegal ∧ Status.Legal s.regs.status ∧ s.MemoriesLegal ∧ s.faultOnRecord = true

/-- Every entry of `HEAD` and `PREV` names a position inside `WIN` (10_state.md R38, R39). -/
def State.EntriesInWindow (s : State) : Prop :=
  (∀ i, (Memory.read s.head i).toNat < s.cfg.winBytes) ∧ ∀ i, (Memory.read s.prev i).toNat < s.cfg.winBytes

/-! ## Launches (70_reset_and_hazards.md R220 to R222) -/

/-- A state right after a hardware reset of some implementation: registers at their reset values, any contents of the
three memories, nothing presented yet. -/
def State.Launch (s : State) : Prop :=
  s.cfg.Legal ∧ s.regs = Regs.reset s.cfg ∧ s.MemoriesLegal ∧ s.response = none

/-- The state reads as 10_state.md R36's column of reset values. -/
def RegistersReadAsReset (s : State) : Prop :=
  s.readReg .id = s.cfg.idValue ∧ s.readReg .status = 0 ∧ s.readReg .result = 0 ∧ s.readReg .seq = 0 ∧
    (s.readReg .chunk).toNat = s.cfg.chunk ∧ (s.readReg .winbytes).toNat = s.cfg.winBytes ∧
    (s.readReg .wbits).toNat = s.cfg.wbitsMax ∧ (s.readReg .hbits).toNat = s.cfg.hbitsMax ∧ s.readReg .minMatch = 3 ∧
    ∀ r ∈ [Reg.level, .triggerLevel, .earlyLevel, .maxChain, .goodMatch, .niceMatch, .strstart, .lookahead, .prevLength,
      .matchStart, .out, .outEnd], s.readReg r = 0

/-- The 21 register numbers of 10_state.md R36 with what each reads as. -/
def registerReadings (s : State) : List (Field24 × Word) :=
  [(0x00, s.cfg.idValue), (0x01, s.regs.status), (0x02, s.regs.result), (0x03, s.regs.seq),
   (0x04, BitVec.ofNat 32 s.cfg.chunk), (0x05, BitVec.ofNat 32 s.cfg.winBytes), (0x08, s.regs.wbits),
   (0x09, s.regs.hbits), (0x0A, s.regs.level), (0x0B, s.regs.triggerLevel), (0x0C, s.regs.earlyLevel),
   (0x0D, s.regs.maxChain), (0x0E, s.regs.goodMatch), (0x0F, s.regs.niceMatch), (0x10, s.regs.minMatch),
   (0x18, s.regs.strstart), (0x19, s.regs.lookahead), (0x1A, s.regs.prevLength), (0x1B, s.regs.matchStart),
   (0x20, s.regs.out), (0x21, s.regs.outEnd)]

/-! ## How a command ends -/

/-- What a command that ends with a signal leaves (60_exceptions.md R193): "the state after it equals the state before it
except for `SEQ`", and the response carries the code. -/
def SignalLeaves (c : Signal) (s t : State) : Prop :=
  t = { s with regs := { s.regs with seq := s.regs.seq + 1 }, response := some (.signal c) }

/-- What a command that ends with a fault leaves (60_exceptions.md R194): `SEQ` and `STATUS` apart, the state before it;
in `STATUS`, the first fault since reset is recorded in `FAULT` and `FCODE`, a later one changes nothing. -/
def FaultLeaves (c : FaultCode) (s t : State) : Prop :=
  t = { s with regs := { s.regs with seq := s.regs.seq + 1, status := t.regs.status }, response := some (.fault c) } ∧
    (Status.fault s.regs.status = false →
      Status.fault t.regs.status = true ∧ Status.fcode t.regs.status = c.number ∧
        Status.found t.regs.status = Status.found s.regs.status ∧
        Status.stopr t.regs.status = Status.stopr s.regs.status ∧
        Status.reserved t.regs.status = Status.reserved s.regs.status) ∧
    (Status.fault s.regs.status = true → t.regs.status = s.regs.status)

/-- `exec` answers a next state in which the command has ended with a signal. -/
def EndsWithSignal (i : Instr) (s : State) (c : Signal) : Prop := ∃ t, exec i s = .next t ∧ SignalLeaves c s t

/-- `exec` answers a next state in which the command has ended with a fault code. -/
def EndsWithFault (i : Instr) (s : State) (c : FaultCode) : Prop := ∃ t, exec i s = .next t ∧ FaultLeaves c s t

/-- `exec` answers a next state in which the command has ended with `OK`, having written `v` to `RESULT`, and no register
but `RESULT` and `SEQ` has changed, nor has any memory. -/
def EndsWithResult (i : Instr) (s : State) (v : Word) : Prop :=
  exec i s = .next { s with regs := { s.regs with result := v, seq := s.regs.seq + 1 }, response := some .ok }

/-- The word made of these fields is no command and ends with `ERR_OPCODE` (30_encoding.md R84). -/
def RejectedWord (opc : BitVec 8) (b : Field24) (a : Word) : Prop :=
  ∀ (s : State) (rest : List HostEvent), s.port = .command (Command.word ⟨opc, b, a⟩) :: rest →
    ∃ t, step s = .next t ∧ FaultLeaves .errOpcode { s with port := rest } t

/-! ## Chains (42_match_finder.md R144) -/

/-- Every chain position still inside the distance limit links to a strictly earlier one (10_state.md R40, item 1). -/
def State.ChainDescends (s : State) : Prop :=
  ∀ p, s.searchLimit < p → p < s.regs.strstart.toNat → (Memory.read s.prev (s.prevIndex p)).toNat < p

/-- The positions above the distance limit on the chain from `cur`, newest first, at most `fuel` of them. -/
def State.liveChain (s : State) : (fuel cur : Nat) → List Nat
  | 0, _ => []
  | n + 1, cur =>
    if cur ≤ s.searchLimit then [] else cur :: s.liveChain n (Memory.read s.prev (s.prevIndex cur)).toNat

/-- Position number `k` on the chain from `cur`: `cur` itself, then each one's `PREV` entry. -/
def State.chainAt (s : State) (cur : Nat) : Nat → Nat
  | 0 => cur
  | k + 1 => (Memory.read s.prev (s.prevIndex (s.chainAt cur k))).toNat

/-- What position number `k` must be below: the one before it, or `STRSTART` for the entry point. -/
def State.chainBound (s : State) (cur : Nat) : Nat → Nat
  | 0 => s.regs.strstart.toNat
  | k + 1 => s.chainAt cur k

/-- How many bytes position number `k` has in common with `STRSTART`. -/
def State.chainLen (s : State) (cur k : Nat) : Nat := matchLen s.win s.regs.strstart.toNat (s.chainAt cur k)

/-- The best length once the first `k` positions are examined: the longest among theirs and `PREV_LENGTH`. -/
def State.bestAfter (s : State) (cur : Nat) : Nat → Nat
  | 0 => s.regs.prevLength.toNat
  | k + 1 => max (s.bestAfter cur k) (s.chainLen cur k)

/-! ## Runs -/

/-- The command sequence `is`, executed in order; none where a step stops. -/
def execAll : List Instr → State → Option State
  | [], s => some s
  | i :: is, s =>
    match exec i s with
    | .next t => execAll is t
    | _ => none

/-- `INSERT str`, `INSERT str+1`, …: `count` single insertions (41_hash_index.md R127). -/
def singleInserts : (count : Nat) → (str : Word) → List Instr
  | 0, _ => []
  | n + 1, str => .insert str :: singleInserts n (str + 1)

end Sys2Proof.Machine
end

