-- ==== Sys2Proof/Certificates/Slice0/Obligations.lean ====
section
/-! DEFINITION. The statements for the provers. Each docstring names the rule of spec/ the statement formalises, or the
section it is derived from. Where a statement describes the next state `t` as `{ s with … }` and names a memory of `t`
itself there, the reads after it say what that memory holds; everything else is as in `s`: that is its frame. -/
open Sys2Proof Sys2Proof.Machine

/-! ## Encoding and decoding -/

/-- 30_encoding.md R81: the fields of a command word and the formula that joins them. -/
def Obligations.CommandWordJoinsItsThreeFields : Prop :=
  (∀ c : Command, c.word.toNat = c.opc.toNat <<< 56 ||| c.b.toNat <<< 32 ||| c.a.toNat) ∧
    ∀ w : CommandWord, (Command.ofWord w).opc.toNat = w.toNat >>> 56 ∧
      (Command.ofWord w).b.toNat = (w.toNat >>> 32) % 2 ^ 24 ∧ (Command.ofWord w).a.toNat = w.toNat % 2 ^ 32 ∧
      (Command.ofWord w).word = w

/-- 30_encoding.md sections 2 and 3: decoding and encoding are inverse, for every command with every operand value and
for every word the decoder accepts. -/
def Obligations.DecodeAndEncodeAreInverse : Prop :=
  (∀ i, decode (encode i) = .ok i) ∧ ∀ w i, decode w = .ok i → encode i = w

/-- Words written out in 30_encoding.md R91 and 95_test_vectors.md 2.1 decode to the commands they stand for. -/
def Obligations.SpecWordsDecodeToTheirCommands : Prop :=
  decode 0x0000000000000000#64 = .ok .nop ∧ decode 0x010000080000000F#64 = .ok (.setr 0x08 15) ∧
    decode 0x0300006100000100#64 = .ok (.stb 256 97) ∧ decode 0x1300000C00000001#64 = .ok (.insertn 1 12) ∧
    decode 0x2000000000000007#64 = .ok (.lmatch 7) ∧ decode 0x210003E800000000#64 = .ok (.cmp258 0 1000) ∧
    decode 0x3000000200000007#64 = .ok (.copy 7 2) ∧ decode 0x7F00000000000000#64 = .ok .reset ∧
    decode 0x0700000000000000#64 = .error (.unassignedOpcode 0x07) ∧
    decode 0x0300010000000000#64 = .error (.reservedField 0x03)

/-- 30_encoding.md sections 2 and 3: the decoder, written from the table of R83, accepts exactly the words that the prose
of R84 and R85 does not call illegal. -/
def Obligations.DecoderAcceptsExactlyWellFormedWords : Prop :=
  ∀ w, (∃ i, decode w = .ok i) ↔ (Command.ofWord w).wellFormed = true

/-- opcode_table.json: a word the decoder accepts fits its own command's row and no other; a word it rejects fits none. -/
def Obligations.DecodedWordFitsItsTableRowOnly : Prop :=
  (∀ w i, decode w = .ok i → ∀ r ∈ opcodeTable, r.fits w = true ↔ r.mnemonic = i.mnemonic) ∧
    ∀ w e, decode w = .error e → ∀ r ∈ opcodeTable, r.fits w = false

/-- 30_encoding.md R84: a non-zero reserved field raises `ERR_OPCODE` "without doing anything else", before any other
check of the command. -/
def Obligations.NonzeroReservedFieldRaisesErrOpcode : Prop :=
  ∀ (s : State) (rest : List HostEvent) (opc : BitVec 8) (b : Field24) (a : Word),
    s.port = .command (Command.word ⟨opc, b, a⟩) :: rest →
    ((opc ∈ [0x00#8, 0x10#8, 0x11#8, 0x7F#8] ∧ (a ≠ 0 ∨ b ≠ 0)) ∨ (opc = 0x02#8 ∧ a ≠ 0) ∨
      (opc ∈ [0x04#8, 0x05#8, 0x06#8, 0x12#8, 0x20#8] ∧ b ≠ 0) ∨ (opc = 0x03#8 ∧ 0xFF < b.toNat)) →
    ∃ t, step s = .next t ∧ FaultLeaves .errOpcode { s with port := rest } t

/-- 30_encoding.md R85: every opcode outside the table is illegal, raises `ERR_OPCODE` and changes nothing but the fault
bookkeeping; every word is a command with legal reserved fields or illegal. -/
def Obligations.UnassignedOpcodeRaisesErrOpcode : Prop :=
  (∀ (s : State) (rest : List HostEvent) (c : Command), s.port = .command c.word :: rest →
    ((0x07 ≤ c.opc.toNat ∧ c.opc.toNat ≤ 0x0F) ∨ (0x14 ≤ c.opc.toNat ∧ c.opc.toNat ≤ 0x1F) ∨
      (0x22 ≤ c.opc.toNat ∧ c.opc.toNat ≤ 0x2F) ∨ (0x32 ≤ c.opc.toNat ∧ c.opc.toNat ≤ 0x7E) ∨ 0x80 ≤ c.opc.toNat) →
    ∃ t, step s = .next t ∧ FaultLeaves .errOpcode { s with port := rest } t) ∧
  ∀ w, (∃ i, decode w = .ok i ∧ encode i = w) ∨ ∃ e, decode w = .error e

/-! ## The step, the resets and the invariant -/

/-- 00_scope.md section 4: one step takes the next word from the port and is `exec` of the command it decodes to. -/
def Obligations.StepRunsTheDecodedCommand : Prop :=
  ∀ (s : State) (w : CommandWord) (rest : List HostEvent) (i : Instr),
    s.port = .command w :: rest → decode w = .ok i → step s = exec i { s with port := rest }

/-- 60_exceptions.md section 4 (power and wait states): with nothing presented the state is held. That such a step is a
step is the model's choice (notes/assumptions/6.md). -/
def Obligations.IdleStepHoldsTheState : Prop :=
  ∀ s : State, s.port = [] → step s = .next s

/-- 60_exceptions.md section 4 (what remains undefined): every command in every state, and every step, has an outcome. -/
def Obligations.EveryCommandAndEveryStepHasANextState : Prop :=
  (∀ i s, ∃ t, exec i s = .next t) ∧ ∀ s, ∃ t, step s = .next t

/-- 70_reset_and_hazards.md section 1: a hardware reset of an implementation gives a launch of it, and can leave any
contents at all in the three memories. The event that carries the contents is the model's choice
(notes/assumptions/3.md, 7.md). -/
def Obligations.HardwareResetLaunchesWithAnyContents : Prop :=
  (∀ (s : State) (image : Image) (rest : List HostEvent), s.cfg.Legal → s.port = .hardwareReset image :: rest →
    ∃ t, step s = .next t ∧ t.Launch ∧ t.cfg = s.cfg ∧ t.port = rest) ∧
  ∀ (s : State) (win : Memory) (head prev : Table) (rest : List HostEvent),
    Memory.wf win → Memory.within s.cfg.winBytes win → Memory.wf head → Memory.within (2 ^ s.cfg.hbitsMax) head →
    Memory.wf prev → Memory.within (2 ^ s.cfg.wbitsMax) prev →
    s.port = .hardwareReset { win := win, head := head, prev := prev } :: rest →
    ∃ t, step s = .next t ∧ t.win.cells = win ∧ t.win.free = [] ∧ t.head = head ∧ t.prev = prev

/-- 10_state.md R36, 70_reset_and_hazards.md section 1: `State.reset` is a launch, and in every launch the registers read
as the table's reset values. -/
def Obligations.LaunchRegistersHoldTheResetValues : Prop :=
  State.reset.Launch ∧ ∀ s : State, s.Launch → RegistersReadAsReset s

/-- The invariant (registers and STATUS legal, memories canonical and inside their bounds, a fault response on record) holds at `State.reset` and
at every launch. -/
def Obligations.InvariantHoldsAtEveryLaunch : Prop :=
  State.reset.Inv ∧ ∀ s : State, s.Launch → s.Inv

/-- The invariant is kept by every step: every command, every illegal word, every hardware reset, the idle step. -/
def Obligations.EveryStepKeepsTheInvariant : Prop :=
  ∀ s t : State, s.Inv → step s = .next t → t.Inv

/-- 10_state.md R24: `ID`, `CHUNK` and `WINBYTES` (numbers 0, 4, 5) read as the parameters, SETR cannot write them, and no
step changes them. -/
def Obligations.ParameterRegistersNeverChange : Prop :=
  (∀ s : State, s.cfg.Legal → EndsWithResult (.getr 0x00) s s.cfg.idValue ∧
    (∃ v : Word, v.toNat = s.cfg.chunk ∧ EndsWithResult (.getr 0x04) s v) ∧
    ∃ v : Word, v.toNat = s.cfg.winBytes ∧ EndsWithResult (.getr 0x05) s v) ∧
  (∀ (s : State) (v : Word), EndsWithFault (.setr 0x00 v) s .errReg ∧ EndsWithFault (.setr 0x04 v) s .errReg ∧
    EndsWithFault (.setr 0x05 v) s .errReg) ∧
  ∀ s t : State, step s = .next t → t.cfg = s.cfg ∧ t.readReg .id = s.readReg .id ∧
    t.readReg .chunk = s.readReg .chunk ∧ t.readReg .winbytes = s.readReg .winbytes

/-! ## How commands end -/

/-- 10_state.md section 2 (SEQ): every command adds 1 to `SEQ` (modulo 2^32, the word's own arithmetic) whatever its completion code,
an illegal word too; RESET leaves 0; GETR of `SEQ` returns the count before its own increment; SETR cannot write it. -/
def Obligations.SeqCountsEveryCommand : Prop :=
  (∀ (i : Instr) (s t : State), exec i s = .next t →
    (i ≠ .reset → t.regs.seq = s.regs.seq + 1) ∧ (i = .reset → t.regs.seq = 0)) ∧
  (∀ (s : State) (w : CommandWord) (rest : List HostEvent) (e : DecodeError), s.port = .command w :: rest →
    decode w = .error e → ∃ t, step s = .next t ∧ t.regs.seq = s.regs.seq + 1) ∧
  (∀ s : State, EndsWithResult (.getr 0x03) s s.regs.seq) ∧ ∀ (s : State) (v : Word), EndsWithFault (.setr 0x03 v) s .errReg

/-- 10_state.md section 2 (RESULT): only GETR, LDB, LDH, LDP, INSERT, INSERTN, LMATCH, CMP258, COPY and COPYS write
`RESULT`, and only where they end with `OK`. RESET is left out: it sets every register (notes/assumptions/12.md). -/
def Obligations.ResultChangesOnlyByItsProducers : Prop :=
  ∀ (i : Instr) (s t : State), exec i s = .next t → i ≠ .reset → t.regs.result ≠ s.regs.result →
    t.response = some .ok ∧ i.mnemonic ∈ ["GETR", "LDB", "LDH", "LDP", "INSERT", "INSERTN", "LMATCH", "CMP258", "COPY", "COPYS"]

/-- 60_exceptions.md R194: a command that ends with a fault, an illegal word too, leaves the state before it but for `SEQ`
and `STATUS`, where the first fault since reset is recorded; the response carries the code and the old `RESULT`; `FAULT` is
cleared by no command but RESET; and the next command executes normally whatever `STATUS` says: it makes the same next
state, `STATUS` itself and a GETR of it apart. -/
def Obligations.FaultsArePreciseAndSticky : Prop :=
  (∀ (i : Instr) (s t : State) (c : FaultCode), exec i s = .next t → t.response = some (.fault c) →
    FaultLeaves c s t ∧ t.responseWord = some (c.number ++ s.regs.result)) ∧
  (∀ (i : Instr) (s t : State), exec i s = .next t → i ≠ .reset → Status.fault s.regs.status = true →
    Status.fault t.regs.status = true ∧ Status.fcode t.regs.status = Status.fcode s.regs.status) ∧
  (∀ (s : State) (w : CommandWord) (rest : List HostEvent) (e : DecodeError), s.port = .command w :: rest →
    decode w = .error e → ∃ t, step s = .next t ∧ FaultLeaves .errOpcode { s with port := rest } t ∧
      t.responseWord = some (FaultCode.errOpcode.number ++ s.regs.result)) ∧
  ∀ (i : Instr) (s : State) (st : Word), i ≠ .getr 0x01 → ∃ t t', exec i s = .next t ∧
    exec i { s with regs := { s.regs with status := st } } = .next t' ∧
    t' = { t with regs := { t.regs with status := t'.regs.status } }

/-- 60_exceptions.md R193: a command that ends with a signal leaves the state before it but for `SEQ`, and the response
carries the code and the old `RESULT`; and what it leaves does not touch a later issue of the same command: in any state
`u` (the cause removed or not) the command makes the same next state whatever `SEQ` and the last response are, its own
`SEQ` increment apart. -/
def Obligations.SignalsArePrecise : Prop :=
  ∀ (i : Instr) (s t : State) (c : Signal), exec i s = .next t → t.response = some (.signal c) →
    SignalLeaves c s t ∧ t.responseWord = some ((Code.signal c).number ++ s.regs.result) ∧
    ∀ (u : State) (q : Word) (r : Option Code), ∃ v, exec i u = .next v ∧
      exec i { u with regs := { u.regs with seq := q }, response := r } =
        .next { v with regs := { v.regs with seq := q + 1 } }

/-- 30_encoding.md R88: every command returns one response, of 4 bits of code and the 32 bits of `RESULT` as it stands after
the command: the old one where the command ends with a signal or a fault. The codes' numbers are 60_exceptions.md
section 1's table; a code is a fault exactly when its bit 3 is set. -/
def Obligations.EveryCommandReturnsOneResponse : Prop :=
  (∀ (i : Instr) (s t : State), exec i s = .next t → ∃ c, t.response = some c ∧
    t.responseWord = some (c.number ++ t.regs.result) ∧ (c ≠ .ok → t.regs.result = s.regs.result)) ∧
  (∀ (s : State) (w : CommandWord) (rest : List HostEvent) (e : DecodeError), s.port = .command w :: rest →
    decode w = .error e → ∃ t, step s = .next t ∧ t.responseWord = some (8#4 ++ s.regs.result)) ∧
  (∀ (i : Instr) (s t : State), exec i s = .next t →
    i.mnemonic ∈ ["NOP", "SETR", "STB", "CLEAR", "SLIDE"] → t.regs.result = s.regs.result) ∧
  [Code.ok, .signal .needInput, .signal .needOutput, .fault .errOpcode, .fault .errReg, .fault .errValue,
    .fault .errAddr, .fault .errChain, .fault .errOrder].map Code.number = [0, 1, 2, 8, 9, 10, 11, 12, 13] ∧
  ∀ c : Code, (∃ f, c = .fault f) ↔ c.number.getLsbD 3 = true

/-- 10_state.md section 2 (STATUS): only an LMATCH that ends with `OK` writes `FOUND` and `STOPR` (RESET apart, which
clears them), and it writes no other field. -/
def Obligations.SearchFlagsAreWrittenByLmatchOnly : Prop :=
  ∀ (i : Instr) (s t : State), exec i s = .next t → i ≠ .reset →
    ((∀ cur, i ≠ .lmatch cur) ∨ t.response ≠ some .ok →
      Status.found t.regs.status = Status.found s.regs.status ∧ Status.stopr t.regs.status = Status.stopr s.regs.status) ∧
    (t.response = some .ok → Status.fault t.regs.status = Status.fault s.regs.status ∧
      Status.fcode t.regs.status = Status.fcode s.regs.status ∧
      Status.reserved t.regs.status = Status.reserved s.regs.status)

/-- 60_exceptions.md section 2: the blank cells of the table of commands and codes. Each command ends with `OK` or one of
the codes of its row (`ERR_OPCODE` belongs to words the decoder rejects). -/
def Obligations.CommandsEndOnlyWithTheCodesOfTheirRow : Prop :=
  ∀ (i : Instr) (s t : State), exec i s = .next t → ∃ c, t.response = some c ∧
    match i with
    | .nop => c = .ok
    | .setr _ _ => c ∈ [Code.ok, .fault .errReg, .fault .errValue]
    | .getr _ => c ∈ [Code.ok, .fault .errReg]
    | .stb _ _ => c ∈ [Code.ok, .fault .errAddr]
    | .ldb _ => c ∈ [Code.ok, .fault .errAddr]
    | .ldh _ => c ∈ [Code.ok, .fault .errAddr]
    | .ldp _ => c ∈ [Code.ok, .fault .errAddr]
    | .clear => c = .ok
    | .slide => c = .ok
    | .insert _ => c ∈ [Code.ok, .signal .needInput, .fault .errAddr, .fault .errOrder]
    | .insertn _ count =>
      if count = 0 then c = .ok else c ∈ [Code.ok, .signal .needInput, .fault .errAddr, .fault .errOrder]
    | .lmatch _ => c ∈ [Code.ok, .fault .errAddr, .fault .errChain]
    | .cmp258 _ _ => c ∈ [Code.ok, .fault .errAddr]
    | .copy _ _ => c ∈ [Code.ok, .signal .needOutput, .fault .errValue, .fault .errAddr]
    | .copys _ _ => c ∈ [Code.ok, .signal .needOutput, .fault .errValue, .fault .errAddr]
    | .reset => c = .ok

/-! ## Host access -/

/-- 40_host_access.md R101: NOP changes only `SEQ`; a NOP word with a non-zero field is `ERR_OPCODE`. -/
def Obligations.NopChangesOnlySeq : Prop :=
  decode (Command.word ⟨0x00, 0, 0⟩) = .ok .nop ∧ (∀ b a, b ≠ 0 ∨ a ≠ 0 → RejectedWord 0x00 b a) ∧
    ∀ s : State, exec .nop s =
      .next { s with regs := { s.regs with seq := s.regs.seq + 1 }, response := some .ok }

/-- 40_host_access.md R102: an unassigned or read-only number is `ERR_REG`, a value illegal for the register is
`ERR_VALUE`; otherwise the register takes the value, and no other register but `SEQ` and no memory changes. -/
def Obligations.SetrWritesOneRegisterOrFaults : Prop :=
  (∀ b a, decode (Command.word ⟨0x01, b, a⟩) = .ok (.setr b a)) ∧
  ∀ (s : State) (n : Field24) (v : Word),
    ((∀ r : Reg, r.number ≠ n) → EndsWithFault (.setr n v) s .errReg) ∧
    ∀ r : Reg, r.number = n →
      (r ∈ [Reg.id, .status, .result, .seq, .chunk, .winbytes] → EndsWithFault (.setr n v) s .errReg) ∧
      (r = .wbits ∧ ¬ (1 ≤ v.toNat ∧ v.toNat ≤ s.cfg.wbitsMax) ∨ r = .hbits ∧ ¬ (1 ≤ v.toNat ∧ v.toNat ≤ s.cfg.hbitsMax) ∨
        r = .minMatch ∧ ¬ (v = 3 ∨ v = 4) → EndsWithFault (.setr n v) s .errValue) ∧
      (r ∉ [Reg.id, .status, .result, .seq, .chunk, .winbytes] →
        (r = .wbits → 1 ≤ v.toNat ∧ v.toNat ≤ s.cfg.wbitsMax) → (r = .hbits → 1 ≤ v.toNat ∧ v.toNat ≤ s.cfg.hbitsMax) →
        (r = .minMatch → v = 3 ∨ v = 4) →
        ∃ t, exec (.setr n v) s = .next t ∧ t = { s with regs := t.regs, response := some .ok } ∧ t.readReg r = v ∧
          t.readReg .seq = s.readReg .seq + 1 ∧ ∀ q : Reg, q ≠ r → q ≠ .seq → t.readReg q = s.readReg q)

/-- 40_host_access.md R103: GETR returns the register of each number of 10_state.md R36 and faults `ERR_REG` for every
other number; reading changes nothing else. A GETR word with `A ≠ 0` is `ERR_OPCODE`. -/
def Obligations.GetrReadsTheNumberedRegister : Prop :=
  (∀ b, decode (Command.word ⟨0x02, b, 0⟩) = .ok (.getr b)) ∧ (∀ b a, a ≠ 0 → RejectedWord 0x02 b a) ∧
  ∀ s : State, (∀ p ∈ registerReadings s, EndsWithResult (.getr p.1) s p.2) ∧
    ∀ n : Field24, (∀ p ∈ registerReadings s, p.1 ≠ n) → EndsWithFault (.getr n) s .errReg

/-- 40_host_access.md R104: STB stores one byte inside `WIN`, touches nothing else, and makes a byte that a fast COPY left
unspecified specified again; outside `WIN` it is `ERR_ADDR`; with `B[23:8] ≠ 0` it is `ERR_OPCODE`. -/
def Obligations.StbStoresOneByte : Prop :=
  (∀ (byte : Byte) (a : Word), decode (Command.word ⟨0x03, byte.setWidth 24, a⟩) = .ok (.stb a byte)) ∧
  (∀ (b : Field24) (a : Word), 0xFF < b.toNat → RejectedWord 0x03 b a) ∧
  ∀ (s : State) (addr : Word) (byte : Byte),
    (s.cfg.winBytes ≤ addr.toNat → EndsWithFault (.stb addr byte) s .errAddr) ∧
    (addr.toNat < s.cfg.winBytes → s.win.wf → ∃ t, exec (.stb addr byte) s = .next t ∧
      t = { s with regs := { s.regs with seq := s.regs.seq + 1 }, win := t.win, response := some .ok } ∧
      t.win.read addr.toNat = byte ∧ (∀ x, x ≠ addr.toNat → t.win.read x = s.win.read x) ∧
      ∀ d, (addr.toNat, d) ∉ t.win.free)

/-- 40_host_access.md R105: LDB returns the byte zero-extended; outside `WIN` it is `ERR_ADDR`; with `B ≠ 0` it is
`ERR_OPCODE`. -/
def Obligations.LdbLoadsOneByte : Prop :=
  (∀ a, decode (Command.word ⟨0x04, 0, a⟩) = .ok (.ldb a)) ∧ (∀ b a, b ≠ 0 → RejectedWord 0x04 b a) ∧
  ∀ (s : State) (addr : Word),
    (s.cfg.winBytes ≤ addr.toNat → EndsWithFault (.ldb addr) s .errAddr) ∧
    (addr.toNat < s.cfg.winBytes → ∃ v : Word, v.toNat = (s.win.read addr.toNat).toNat ∧ EndsWithResult (.ldb addr) s v)

/-- 40_host_access.md R106: LDH returns a physical entry of `HEAD`. -/
def Obligations.LdhLoadsAHeadEntry : Prop :=
  (∀ a, decode (Command.word ⟨0x05, 0, a⟩) = .ok (.ldh a)) ∧ (∀ b a, b ≠ 0 → RejectedWord 0x05 b a) ∧
  ∀ (s : State) (index : Word),
    (2 ^ s.cfg.hbitsMax ≤ index.toNat → EndsWithFault (.ldh index) s .errAddr) ∧
    (index.toNat < 2 ^ s.cfg.hbitsMax → EndsWithResult (.ldh index) s (Memory.read s.head index.toNat))

/-- 40_host_access.md R107: LDP returns a physical entry of `PREV`; no masking is applied. -/
def Obligations.LdpLoadsAPrevEntry : Prop :=
  (∀ a, decode (Command.word ⟨0x06, 0, a⟩) = .ok (.ldp a)) ∧ (∀ b a, b ≠ 0 → RejectedWord 0x06 b a) ∧
  ∀ (s : State) (index : Word),
    (2 ^ s.cfg.wbitsMax ≤ index.toNat → EndsWithFault (.ldp index) s .errAddr) ∧
    (index.toNat < 2 ^ s.cfg.wbitsMax → EndsWithResult (.ldp index) s (Memory.read s.prev index.toNat))

/-- 40_host_access.md R108: RESET gives every register its reset value, `SEQ` among them, answers `{OK, 0}` and touches no
memory; with a non-zero field it resets nothing and is `ERR_OPCODE`; no other command clears `STATUS.FAULT`. -/
def Obligations.ResetCommandResetsTheRegistersOnly : Prop :=
  decode (Command.word ⟨0x7F, 0, 0⟩) = .ok .reset ∧ (∀ b a, b ≠ 0 ∨ a ≠ 0 → RejectedWord 0x7F b a) ∧
  (∀ s : State, s.cfg.Legal → ∃ t, exec .reset s = .next t ∧ t = { s with regs := t.regs, response := some .ok } ∧
    RegistersReadAsReset t ∧ t.responseWord = some 0) ∧
  ∀ (i : Instr) (s t : State), i ≠ .reset → exec i s = .next t → Status.fault s.regs.status = true →
    Status.fault t.regs.status = true

/-! ## The hash index -/

/-- 41_hash_index.md R121: the hash operand is the four bytes at the position, first byte most significant; above the
trigger level the last byte is masked out, so that positions whose first three bytes agree share a bucket. -/
def Obligations.HashOperandIsTheFirstBytesMostSignificantFirst : Prop :=
  ∀ (s : State) (p : Nat),
    (s.regs.level.toNat ≤ s.regs.triggerLevel.toNat → (s.hashOperand p).toNat =
      (s.win.read p).toNat <<< 24 ||| (s.win.read (p + 1)).toNat <<< 16 ||| (s.win.read (p + 2)).toNat <<< 8 |||
        (s.win.read (p + 3)).toNat) ∧
    (s.regs.triggerLevel.toNat < s.regs.level.toNat → (s.hashOperand p).toNat =
      ((s.win.read p).toNat <<< 24 ||| (s.win.read (p + 1)).toNat <<< 16 ||| (s.win.read (p + 2)).toNat <<< 8 |||
        (s.win.read (p + 3)).toNat) &&& 0xFFFFFF00 ∧
      ∀ p', s.win.read p' = s.win.read p → s.win.read (p' + 1) = s.win.read (p + 1) →
        s.win.read (p' + 2) = s.win.read (p + 2) → s.hashIndex p' = s.hashIndex p)

/-- 41_hash_index.md section 2: a hash index is at most `hmask` and depends on the four bytes, `LEVEL`,
`TRIGGER_LEVEL` and `HBITS` only, whatever function `HASHFN` is. -/
def Obligations.HashIndexDependsOnItsInputsOnly : Prop :=
  (∀ (s : State) (p : Nat), s.hashIndex p ≤ 2 ^ s.regs.hbits.toNat - 1) ∧
  ∀ (s s' : State) (p p' : Nat), s.cfg.hash = s'.cfg.hash → s.regs.level = s'.regs.level →
    s.regs.triggerLevel = s'.regs.triggerLevel → s.regs.hbits = s'.regs.hbits →
    (∀ i < 4, s.win.read (p + i) = s'.win.read (p' + i)) → s.hashIndex p = s'.hashIndex p'

/-- 41_hash_index.md R123: the reference hash, its range and its worked values, from the bytes `"abcd"` on. -/
def Obligations.ReferenceHashHasItsWorkedValues : Prop :=
  (∀ v : Word, (hashReference v).toNat = (v.toNat * 2654435761 % 2 ^ 32) >>> 16 ∧ (hashReference v).toNat ≤ 65535) ∧
    (0x61#8 ++ 0x62#8 ++ 0x63#8 ++ 0x64#8 : Word) = 0x61626364 ∧ 0x61626364 * 2654435761 = 0x3C2FD3C5E87CFC24 ∧
    hashReference 0x61626364 = 0xE87C ∧ (0x61626364 : Word) &&& 0xFFFFFF00 = 0x61626300 ∧
    0x61626300 * 2654435761 = 0x3C2FD3881AD17300 ∧ hashReference 0x61626300 = 0x1AD1

/-- 41_hash_index.md R124: CLEAR makes every entry of both tables `NIL` and touches nothing else. -/
def Obligations.ClearEmptiesBothTables : Prop :=
  decode (Command.word ⟨0x10, 0, 0⟩) = .ok .clear ∧ (∀ b a, b ≠ 0 ∨ a ≠ 0 → RejectedWord 0x10 b a) ∧
  ∀ s : State, ∃ t, exec .clear s = .next t ∧
    t = { s with regs := { s.regs with seq := s.regs.seq + 1 }, head := t.head, prev := t.prev, response := some .ok } ∧
    (∀ i, Memory.read t.head i = 0) ∧ ∀ i, Memory.read t.prev i = 0

/-- 41_hash_index.md section 3 (SLIDE): SLIDE lowers entries `0 .. hmask` of `HEAD` and `0 .. wmask` of `PREV` by `wsize`,
those below `wsize` becoming `NIL`, and touches nothing else; a `PREV` index is the same before and after; the order
invariant survives. The spec itself marks this arithmetic as general knowledge (G1; notes/assumptions/11.md). -/
def Obligations.SlideRebasesTheTables : Prop :=
  decode (Command.word ⟨0x11, 0, 0⟩) = .ok .slide ∧ (∀ b a, b ≠ 0 ∨ a ≠ 0 → RejectedWord 0x11 b a) ∧
  ∀ s : State, keysRise s.head → keysRise s.prev → ∃ t, exec .slide s = .next t ∧
    t = { s with regs := { s.regs with seq := s.regs.seq + 1 }, head := t.head, prev := t.prev, response := some .ok } ∧
    (∀ i, (Memory.read t.head i).toNat =
      if i < 2 ^ s.regs.hbits.toNat then (Memory.read s.head i).toNat - 2 ^ s.regs.wbits.toNat
      else (Memory.read s.head i).toNat) ∧
    (∀ i, (Memory.read t.prev i).toNat =
      if i < 2 ^ s.regs.wbits.toNat then (Memory.read s.prev i).toNat - 2 ^ s.regs.wbits.toNat
      else (Memory.read s.prev i).toNat) ∧
    ∀ p, s.wsize ≤ p → t.prevIndex (p - s.wsize) = s.prevIndex p ∧
      ((Memory.read s.prev (s.prevIndex p)).toNat < p →
        (Memory.read t.prev (s.prevIndex p)).toNat < p - s.wsize ∨ Memory.read t.prev (s.prevIndex p) = 0)

/-- 41_hash_index.md R126: INSERT is `INSERTN str, 1`; its four outcomes in the order checked, and its whole effect where it
ends with `OK`. -/
def Obligations.InsertFilesOnePosition : Prop :=
  (∀ a, decode (Command.word ⟨0x12, 0, a⟩) = .ok (.insert a)) ∧ (∀ b a, b ≠ 0 → RejectedWord 0x12 b a) ∧
  ∀ (s : State) (str : Word), exec (.insert str) s = exec (.insertn str 1) s ∧
    (s.cfg.winBytes < str.toNat + 4 → EndsWithFault (.insert str) s .errAddr) ∧
    (str.toNat + 4 ≤ s.cfg.winBytes →
      s.regs.strstart.toNat + s.regs.lookahead.toNat < str.toNat + s.regs.minMatch.toNat →
      EndsWithSignal (.insert str) s .needInput) ∧
    (str.toNat + 4 ≤ s.cfg.winBytes →
      str.toNat + s.regs.minMatch.toNat ≤ s.regs.strstart.toNat + s.regs.lookahead.toNat →
      ∀ old, old = Memory.read s.head (s.hashIndex str.toNat) →
      (old ≠ 0 → str.toNat ≤ old.toNat → EndsWithFault (.insert str) s .errOrder) ∧
      (old = 0 ∨ old.toNat < str.toNat → keysRise s.head → keysRise s.prev → ∃ t, exec (.insert str) s = .next t ∧
        t = { s with regs := { s.regs with result := old, seq := s.regs.seq + 1 }, head := t.head, prev := t.prev,
                     response := some .ok } ∧
        Memory.read t.prev (str.toNat % 2 ^ s.regs.wbits.toNat) = old ∧
        (∀ i, i ≠ str.toNat % 2 ^ s.regs.wbits.toNat → Memory.read t.prev i = Memory.read s.prev i) ∧
        Memory.read t.head (s.hashIndex str.toNat) = str ∧
        ∀ i, i ≠ s.hashIndex str.toNat → Memory.read t.head i = Memory.read s.head i))

/-- 41_hash_index.md section 3 (INSERTN) and 60_exceptions.md section 2 (priority): with `count > 0` INSERTN ends with
`ERR_ADDR`, else with `NEED_INPUT`, else with `ERR_ORDER` exactly where a bucket of the run, as it stood before the
command, is not below the position that hashes to it; else it completes. -/
def Obligations.InsertnChecksInOrderThenCompletes : Prop :=
  (∀ b a, decode (Command.word ⟨0x13, b, a⟩) = .ok (.insertn a b)) ∧
  ∀ (s : State) (str : Word) (count : Field24), 0 < count.toNat →
    (s.cfg.winBytes < str.toNat + count.toNat - 1 + 4 → EndsWithFault (.insertn str count) s .errAddr) ∧
    (str.toNat + count.toNat - 1 + 4 ≤ s.cfg.winBytes →
      s.regs.strstart.toNat + s.regs.lookahead.toNat < str.toNat + count.toNat - 1 + s.regs.minMatch.toNat →
      EndsWithSignal (.insertn str count) s .needInput) ∧
    (s.cfg.Legal → keysRise s.head → str.toNat + count.toNat - 1 + 4 ≤ s.cfg.winBytes →
      str.toNat + count.toNat - 1 + s.regs.minMatch.toNat ≤ s.regs.strstart.toNat + s.regs.lookahead.toNat →
      ((∃ k < count.toNat, Memory.read s.head (s.hashIndex (str.toNat + k)) ≠ 0 ∧
          str.toNat + k ≤ (Memory.read s.head (s.hashIndex (str.toNat + k))).toNat) →
        EndsWithFault (.insertn str count) s .errOrder) ∧
      ((∀ k < count.toNat, Memory.read s.head (s.hashIndex (str.toNat + k)) = 0 ∨
          (Memory.read s.head (s.hashIndex (str.toNat + k))).toNat < str.toNat + k) →
        ∃ t, exec (.insertn str count) s = .next t ∧
          t = { s with regs := { s.regs with result := t.regs.result, seq := s.regs.seq + 1 }, head := t.head,
                       prev := t.prev, response := some .ok }))

/-- 41_hash_index.md section 1 and section 3 (INSERTN): a bulk insertion that ends with `OK` leaves the tables and the
`RESULT` that the sequence of single insertions leaves, each of which ends with `OK`. -/
def Obligations.BulkInsertionEqualsSingleInsertions : Prop :=
  ∀ (s t : State) (str : Word) (count : Field24), s.cfg.Legal → 0 < count.toNat →
    exec (.insertn str count) s = .next t → t.response = some .ok →
    ∃ u, execAll (singleInserts count.toNat str) s = some u ∧ u.head = t.head ∧ u.prev = t.prev ∧ u.win = t.win ∧
      u.response = some .ok ∧ u.regs = { t.regs with seq := s.regs.seq + BitVec.ofNat 32 count.toNat } ∧
      ∀ k ≤ count.toNat, 0 < k → ∃ v, execAll (singleInserts k str) s = some v ∧ v.response = some .ok

/-- 41_hash_index.md R128: INSERTN with `count = 0` returns `PREV[str & wmask]` and changes neither table; no address,
valid-data or order check is made. -/
def Obligations.QueryReturnsTheChainLink : Prop :=
  ∀ (s : State) (str : Word),
    pseudoQuery str = .insertn str 0 ∧
      EndsWithResult (.insertn str 0) s (Memory.read s.prev (str.toNat % 2 ^ s.regs.wbits.toNat))

/-- 41_hash_index.md section 3 (the order check): every `PREV` entry an insertion changes gets `NIL` or a position below
one it inserted there; and a second insertion of a position, other than 0, right after the first is `ERR_ORDER`. -/
def Obligations.InsertionsRecordStrictlyEarlierPositions : Prop :=
  (∀ (s t : State) (str : Word) (count : Field24), keysRise s.prev → exec (.insertn str count) s = .next t →
    ∀ i, Memory.read t.prev i ≠ Memory.read s.prev i →
      ∃ k < count.toNat, s.prevIndex (str.toNat + k) = i ∧
        (Memory.read t.prev i = 0 ∨ (Memory.read t.prev i).toNat < str.toNat + k)) ∧
  ∀ (s t : State) (str : Word), keysRise s.head → str ≠ 0 → exec (.insert str) s = .next t → t.response = some .ok →
    EndsWithFault (.insert str) t .errOrder

/-- 10_state.md section 3 (`HEAD`, `PREV`): every entry a command stores is a position inside `WIN`; so tables that name
only positions inside `WIN` go on doing so. -/
def Obligations.CommandsKeepTableEntriesInsideTheWindow : Prop :=
  ∀ (i : Instr) (s t : State), s.cfg.Legal → keysRise s.head → keysRise s.prev → s.EntriesInWindow →
    exec i s = .next t → t.EntriesInWindow

/-- 41_hash_index.md section 4 (chain acyclicity): where links descend, the walk from any position below `STRSTART` over
positions above the distance limit is strictly falling and visits fewer than `wsize` of them. -/
def Obligations.LiveChainIsShorterThanTheWindow : Prop :=
  ∀ (s : State) (fuel cur : Nat), s.ChainDescends → cur < s.regs.strstart.toNat →
    (s.liveChain fuel cur).length < s.wsize ∧ (s.liveChain fuel cur).Pairwise (· > ·)

/-! ## The match finder -/

/-- 42_match_finder.md R152 with R140: CMP258 returns the largest `n ≤ 258` such that the two regions agree below `n`;
`ERR_ADDR` where an extent does not fit; the result is symmetric, and 258 for equal addresses. -/
def Obligations.Cmp258CountsTheAgreeingPrefix : Prop :=
  (∀ b a, decode (Command.word ⟨0x21, b, a⟩) = .ok (.cmp258 a b)) ∧
  (∀ (s : State) (a : Word) (b : Field24),
    (s.cfg.winBytes < a.toNat + 258 ∨ s.cfg.winBytes < b.toNat + 258 → EndsWithFault (.cmp258 a b) s .errAddr) ∧
    (a.toNat + 258 ≤ s.cfg.winBytes → b.toNat + 258 ≤ s.cfg.winBytes → ∃ v : Word, EndsWithResult (.cmp258 a b) s v ∧
      v.toNat ≤ 258 ∧ (∀ i < v.toNat, s.win.read (a.toNat + i) = s.win.read (b.toNat + i)) ∧
      (v.toNat < 258 → s.win.read (a.toNat + v.toNat) ≠ s.win.read (b.toNat + v.toNat)) ∧
      (a.toNat = b.toNat → v = 258))) ∧
  ∀ (w : Window) (a b : Nat), matchLen w a b = matchLen w b a

/-- 42_match_finder.md section 4 (cheap rejection): a candidate that differs from the string at any offset up to the best
length so far is not longer than it, so rejecting it early loses nothing. -/
def Obligations.CheapRejectionLosesNoMatch : Prop :=
  ∀ (w : Window) (ss cur best k : Nat), k ≤ best → w.read (ss + k) ≠ w.read (cur + k) → matchLen w ss cur ≤ best

/-- 42_match_finder.md section 3 (LMATCH): `ERR_ADDR` where 258 bytes at `STRSTART` do not fit; `ERR_CHAIN` for an entry
point that is above the limit and not below `STRSTART` while budget is left; and from a chain whose links descend it
completes, writing `RESULT`, `MATCH_START`, `FOUND` and `STOPR` and nothing else. -/
def Obligations.LmatchCompletesOnADescendingChain : Prop :=
  (∀ a, decode (Command.word ⟨0x20, 0, a⟩) = .ok (.lmatch a)) ∧ (∀ b a, b ≠ 0 → RejectedWord 0x20 b a) ∧
  ∀ (s : State) (cur : Word),
    (s.cfg.winBytes < s.regs.strstart.toNat + 258 → EndsWithFault (.lmatch cur) s .errAddr) ∧
    (s.regs.strstart.toNat + 258 ≤ s.cfg.winBytes → s.searchLimit < cur.toNat → 0 < s.searchBudget →
      s.regs.strstart.toNat ≤ cur.toNat → EndsWithFault (.lmatch cur) s .errChain) ∧
    (s.regs.strstart.toNat + 258 ≤ s.cfg.winBytes → s.ChainDescends →
      cur.toNat < s.regs.strstart.toNat ∨ cur.toNat ≤ s.searchLimit → ∃ t, exec (.lmatch cur) s = .next t ∧
        t = { s with regs := { s.regs with result := t.regs.result, matchStart := t.regs.matchStart,
                                           status := t.regs.status, seq := s.regs.seq + 1 },
                     response := some .ok } ∧
        Status.fault t.regs.status = Status.fault s.regs.status ∧
        Status.fcode t.regs.status = Status.fcode s.regs.status ∧
        Status.reserved t.regs.status = Status.reserved s.regs.status)

/-- 42_match_finder.md R144: LMATCH whole, loop by loop. Let every one of the first `n` chain positions be above the limit,
below the one before it and within the budget, and neither end the search with a match of `nice` bytes nor fail to improve
at a low level. Then position `n` ends the command with `ERR_CHAIN`, or ends the search with LIMIT or BUDGET before it is
examined, or with NICE or NOIMPROVE after: `m` positions have been examined, `RESULT` is the best length clamped, and
`MATCH_START` the first of them that attains a best length above the known one. -/
def Obligations.LmatchWalksTheChainAsTheRuleSays : Prop :=
  (∀ a, decode (Command.word ⟨0x20, 0, a⟩) = .ok (.lmatch a)) ∧ (∀ b a, b ≠ 0 → RejectedWord 0x20 b a) ∧
  ∀ (s : State) (cur : Word),
    (s.cfg.winBytes < s.regs.strstart.toNat + 258 → EndsWithFault (.lmatch cur) s .errAddr) ∧
    ∀ budget limit nice n : Nat, s.regs.strstart.toNat + 258 ≤ s.cfg.winBytes →
      budget = (if s.regs.goodMatch.toNat ≤ s.regs.prevLength.toNat then s.regs.maxChain.toNat / 2
        else s.regs.maxChain.toNat) →
      limit = s.regs.strstart.toNat - 2 ^ s.regs.wbits.toNat →
      nice = min s.regs.niceMatch.toNat s.regs.lookahead.toNat →
      (∀ k < n, limit < s.chainAt cur.toNat k ∧ s.chainAt cur.toNat k < s.chainBound cur.toNat k ∧ k < budget ∧
        (s.bestAfter cur.toNat k < s.chainLen cur.toNat k ∧ s.chainLen cur.toNat k < nice ∨
          s.chainLen cur.toNat k ≤ s.bestAfter cur.toNat k ∧ s.regs.earlyLevel.toNat ≤ s.regs.level.toNat)) →
      (limit < s.chainAt cur.toNat n → n < budget → s.chainBound cur.toNat n ≤ s.chainAt cur.toNat n →
        EndsWithFault (.lmatch cur) s .errChain) ∧
      ∀ (stop : BitVec 3) (m : Nat),
        (s.chainAt cur.toNat n ≤ limit ∧ stop = 1 ∧ m = n ∨
          limit < s.chainAt cur.toNat n ∧ n = budget ∧ stop = 2 ∧ m = n ∨
          limit < s.chainAt cur.toNat n ∧ s.chainAt cur.toNat n < s.chainBound cur.toNat n ∧ n < budget ∧ m = n + 1 ∧
            (s.bestAfter cur.toNat n < s.chainLen cur.toNat n ∧ nice ≤ s.chainLen cur.toNat n ∧ stop = 3 ∨
              s.chainLen cur.toNat n ≤ s.bestAfter cur.toNat n ∧ s.regs.level.toNat < s.regs.earlyLevel.toNat ∧
                stop = 4)) →
        ∃ t, exec (.lmatch cur) s = .next t ∧
          t = { s with regs := { s.regs with result := t.regs.result, matchStart := t.regs.matchStart,
                                             status := t.regs.status, seq := s.regs.seq + 1 },
                       response := some .ok } ∧
          Status.fault t.regs.status = Status.fault s.regs.status ∧
          Status.fcode t.regs.status = Status.fcode s.regs.status ∧
          Status.reserved t.regs.status = Status.reserved s.regs.status ∧
          t.regs.result.toNat = min (s.bestAfter cur.toNat m) s.regs.lookahead.toNat ∧
          Status.stopr t.regs.status = stop ∧
          (Status.found t.regs.status = true ↔ s.regs.prevLength.toNat < s.bestAfter cur.toNat m) ∧
          (s.bestAfter cur.toNat m = s.regs.prevLength.toNat → t.regs.matchStart = s.regs.matchStart) ∧
          ∀ k < m, s.regs.prevLength.toNat < s.chainLen cur.toNat k → s.chainLen cur.toNat k = s.bestAfter cur.toNat m →
            (∀ j < k, s.chainLen cur.toNat j < s.bestAfter cur.toNat m) → t.regs.matchStart.toNat = s.chainAt cur.toNat k

/-- 42_match_finder.md R148: an empty chain examines nothing: the known length clamped, `MATCH_START` as it was,
`FOUND = 0`, `STOPR = LIMIT`; below the minimum match length exactly where the known length or the lookahead is. -/
def Obligations.EmptyChainYieldsTheKnownLength : Prop :=
  ∀ s : State, s.regs.strstart.toNat + 258 ≤ s.cfg.winBytes → ∃ t, exec (.lmatch 0) s = .next t ∧
    t.response = some .ok ∧ t.regs.result.toNat = min s.regs.prevLength.toNat s.regs.lookahead.toNat ∧
    t.regs.matchStart = s.regs.matchStart ∧ Status.found t.regs.status = false ∧ Status.stopr t.regs.status = 1 ∧
    (t.regs.result.toNat < s.regs.minMatch.toNat ↔
      s.regs.prevLength.toNat < s.regs.minMatch.toNat ∨ s.regs.lookahead.toNat < s.regs.minMatch.toNat)

/-- 42_match_finder.md section 2 (the budget) and 70_reset_and_hazards.md section 2: with a budget of zero nothing is
examined, a bad entry point is not reported, and LIMIT is reported before BUDGET. -/
def Obligations.ZeroBudgetExaminesNothing : Prop :=
  ∀ (s : State) (cur : Word), s.regs.strstart.toNat + 258 ≤ s.cfg.winBytes →
    s.regs.maxChain = 0 ∨ s.regs.maxChain = 1 ∧ s.regs.goodMatch.toNat ≤ s.regs.prevLength.toNat →
    ∃ t, exec (.lmatch cur) s = .next t ∧ t.response = some .ok ∧
      t.regs.result.toNat = min s.regs.prevLength.toNat s.regs.lookahead.toNat ∧
      t.regs.matchStart = s.regs.matchStart ∧ Status.found t.regs.status = false ∧
      Status.stopr t.regs.status = if cur.toNat ≤ s.searchLimit then 1 else 2

/-- 42_match_finder.md sections 2 and 4 (early exits): what the first candidate decides alone. One at least `nice` long
that beats the known length ends the search with NICE; one that does not beat it ends a low-level search with
NOIMPROVE. -/
def Obligations.FirstCandidateCanEndTheSearch : Prop :=
  ∀ (s : State) (cur : Word), s.regs.strstart.toNat + 258 ≤ s.cfg.winBytes → 0 < s.searchBudget →
    s.searchLimit < cur.toNat → cur.toNat < s.regs.strstart.toNat →
    (s.regs.prevLength.toNat < matchLen s.win s.regs.strstart.toNat cur.toNat →
      min s.regs.niceMatch.toNat s.regs.lookahead.toNat ≤ matchLen s.win s.regs.strstart.toNat cur.toNat →
      ∃ t, exec (.lmatch cur) s = .next t ∧ t.response = some .ok ∧
        t.regs.result.toNat = min (matchLen s.win s.regs.strstart.toNat cur.toNat) s.regs.lookahead.toNat ∧
        t.regs.matchStart = cur ∧ Status.found t.regs.status = true ∧ Status.stopr t.regs.status = 3) ∧
    (matchLen s.win s.regs.strstart.toNat cur.toNat ≤ s.regs.prevLength.toNat →
      s.regs.level.toNat < s.regs.earlyLevel.toNat →
      ∃ t, exec (.lmatch cur) s = .next t ∧ t.response = some .ok ∧
        t.regs.result.toNat = min s.regs.prevLength.toNat s.regs.lookahead.toNat ∧
        t.regs.matchStart = s.regs.matchStart ∧ Status.found t.regs.status = false ∧ Status.stopr t.regs.status = 4)

/-- 42_match_finder.md section 6, items 1 to 5, for every LMATCH that ends with `OK`: the length is at most the lookahead,
at least the known length clamped, at most 258 where the known length is; a reported match is a true one, at a distance
from 1 to `wsize - 1`; and where none is found nothing is reported. -/
def Obligations.LmatchReportsOnlyTrueMatches : Prop :=
  ∀ (s t : State) (cur : Word), exec (.lmatch cur) s = .next t → t.response = some .ok →
    t.regs.result.toNat ≤ s.regs.lookahead.toNat ∧
    min s.regs.prevLength.toNat s.regs.lookahead.toNat ≤ t.regs.result.toNat ∧
    (s.regs.prevLength.toNat ≤ 258 → t.regs.result.toNat ≤ 258) ∧
    (Status.found t.regs.status = true →
      s.searchLimit < t.regs.matchStart.toNat ∧ t.regs.matchStart.toNat < s.regs.strstart.toNat ∧
      s.regs.strstart.toNat - t.regs.matchStart.toNat ≤ s.wsize - 1 ∧ t.regs.matchStart ≠ 0 ∧
      ∀ i < t.regs.result.toNat,
        s.win.read (t.regs.matchStart.toNat + i) = s.win.read (s.regs.strstart.toNat + i)) ∧
    (Status.found t.regs.status = false → t.regs.matchStart = s.regs.matchStart ∧
      t.regs.result.toNat = min s.regs.prevLength.toNat s.regs.lookahead.toNat)

/-- 42_match_finder.md sections 4 and 6, item 6: the positions a search examines are strictly falling, inside
`limit+1 .. STRSTART-1`, at most the budget and at most `wsize - 1` in number. -/
def Obligations.SearchExaminesFallingLivePositions : Prop :=
  ∀ (s : State) (cur : Nat) (r : Search), s.search cur = some r →
    r.examined.Pairwise (· > ·) ∧ (∀ c ∈ r.examined, s.searchLimit < c ∧ c < s.regs.strstart.toNat) ∧
    r.examined.length ≤ s.searchBudget ∧ r.examined.length ≤ min s.regs.maxChain.toNat (s.wsize - 1)

/-- 42_match_finder.md section 6, item 7: an LMATCH that ends with `OK` and STOPR = LIMIT outside the low levels has found
the longest match on the whole live chain, and where it beats the known length, the nearest position attaining it. -/
def Obligations.LmatchAtTheLimitFindsTheLongest : Prop :=
  ∀ (s t : State) (cur : Word), exec (.lmatch cur) s = .next t → t.response = some .ok →
    Status.stopr t.regs.status = 1 → s.regs.earlyLevel.toNat ≤ s.regs.level.toNat →
    ∃ best, t.regs.result.toNat = min best s.regs.lookahead.toNat ∧ s.regs.prevLength.toNat ≤ best ∧
      (∀ c ∈ s.liveChain s.regs.strstart.toNat cur.toNat, matchLen s.win s.regs.strstart.toNat c ≤ best) ∧
      (s.regs.prevLength.toNat < best →
        t.regs.matchStart.toNat ∈ s.liveChain s.regs.strstart.toNat cur.toNat ∧
        matchLen s.win s.regs.strstart.toNat t.regs.matchStart.toNat = best ∧
        ∀ c ∈ s.liveChain s.regs.strstart.toNat cur.toNat, t.regs.matchStart.toNat < c →
          matchLen s.win s.regs.strstart.toNat c < best) ∧
      (best = s.regs.prevLength.toNat → Status.found t.regs.status = false)

/-- 42_match_finder.md section 4 (determinism): the outcome of a search that is not ended by a fault depends only on the
operand, the registers LMATCH reads, the 258 bytes at `STRSTART`, and for each examined position its 258 bytes and its
`PREV` entry: not on `HEAD`, `CHUNK`, `HASHFN` or anything else. -/
def Obligations.LmatchDependsOnlyOnWhatItReads : Prop :=
  ∀ (s s' : State) (cur : Word) (r : Search), s.search cur.toNat = some r →
    s'.regs.strstart = s.regs.strstart → s'.regs.lookahead = s.regs.lookahead →
    s'.regs.prevLength = s.regs.prevLength → s'.regs.matchStart = s.regs.matchStart →
    s'.regs.maxChain = s.regs.maxChain → s'.regs.goodMatch = s.regs.goodMatch → s'.regs.niceMatch = s.regs.niceMatch →
    s'.regs.level = s.regs.level → s'.regs.earlyLevel = s.regs.earlyLevel → s'.regs.wbits = s.regs.wbits →
    s'.regs.status = s.regs.status →
    (∀ i < 258, s'.win.read (s.regs.strstart.toNat + i) = s.win.read (s.regs.strstart.toNat + i)) →
    (∀ c ∈ r.examined, Memory.read s'.prev (s.prevIndex c) = Memory.read s.prev (s.prevIndex c) ∧
      ∀ i < 258, s'.win.read (c + i) = s.win.read (c + i)) →
    s.regs.strstart.toNat + 258 ≤ s.cfg.winBytes → s'.regs.strstart.toNat + 258 ≤ s'.cfg.winBytes →
    ∃ t t', exec (.lmatch cur) s = .next t ∧ exec (.lmatch cur) s' = .next t' ∧ t'.response = t.response ∧
      t'.regs.result = t.regs.result ∧ t'.regs.matchStart = t.regs.matchStart ∧ t'.regs.status = t.regs.status

/-- 70_reset_and_hazards.md section 3 (what may depend on bytes beyond the lookahead): change the window at and beyond
`STRSTART + LOOKAHEAD` at will. Where both searches end with `OK` the length is the same; and where the known length is
below the lookahead, the whole response, `MATCH_START` and `STATUS` are. -/
def Obligations.LmatchIgnoresBytesBeyondTheLookahead : Prop :=
  ∀ (s t t' : State) (w' : Window) (cur : Word),
    (∀ a < s.regs.strstart.toNat + s.regs.lookahead.toNat, w'.read a = s.win.read a) →
    exec (.lmatch cur) s = .next t → exec (.lmatch cur) { s with win := w' } = .next t' →
    (t.response = some .ok → t'.response = some .ok → t'.regs.result = t.regs.result) ∧
    (s.regs.prevLength.toNat < s.regs.lookahead.toNat → t'.response = t.response ∧ t'.regs = t.regs)

/-! ## The copy engine -/

/-- 43_copy_engine.md R164 with R161: the checks of COPYS in order (`dist = 0`, `dist > OUT`, `len > left`, the destination);
where they pass COPYS repeats the `dist` bytes before `OUT` over `[OUT, OUT+len)` in every regime, advances `OUT`, returns
it, and changes no other byte: none at or past `OUT_END`. -/
def Obligations.CopysReplicatesThePatternExactly : Prop :=
  (∀ b a, decode (Command.word ⟨0x31, b, a⟩) = .ok (.copys a b)) ∧
  ∀ (s : State) (len : Word) (dist : Field24),
    (dist = 0 → EndsWithFault (.copys len dist) s .errValue) ∧
    (dist ≠ 0 → s.regs.out.toNat < dist.toNat → EndsWithFault (.copys len dist) s .errAddr) ∧
    (dist ≠ 0 → dist.toNat ≤ s.regs.out.toNat → s.regs.outEnd.toNat - s.regs.out.toNat < len.toNat →
      EndsWithSignal (.copys len dist) s .needOutput) ∧
    (dist ≠ 0 → dist.toNat ≤ s.regs.out.toNat → len.toNat ≤ s.regs.outEnd.toNat - s.regs.out.toNat →
      s.cfg.winBytes < s.regs.out.toNat + len.toNat → EndsWithFault (.copys len dist) s .errAddr) ∧
    (s.cfg.Legal → s.win.wf → dist ≠ 0 → dist.toNat ≤ s.regs.out.toNat →
      len.toNat ≤ s.regs.outEnd.toNat - s.regs.out.toNat → s.regs.out.toNat + len.toNat ≤ s.cfg.winBytes →
      ∃ t, exec (.copys len dist) s = .next t ∧
        t = { s with regs := { s.regs with out := t.regs.out, result := t.regs.out, seq := s.regs.seq + 1 },
                     win := t.win, response := some .ok } ∧
        t.regs.out.toNat = s.regs.out.toNat + len.toNat ∧
        (∀ i < len.toNat, t.win.read (s.regs.out.toNat + i) =
          s.win.read (s.regs.out.toNat - dist.toNat + i % dist.toNat)) ∧
        (∀ x, x < s.regs.out.toNat ∨ s.regs.out.toNat + len.toNat ≤ x → t.win.read x = s.win.read x) ∧
        (0 < len.toNat → ∀ x, s.regs.outEnd.toNat ≤ x → t.win.read x = s.win.read x))

/-- 43_copy_engine.md R163 with R161 and R166: the checks of COPY in order, the slack's among them; where they pass COPY
repeats the `dist` bytes before `OUT` over `[OUT, OUT+len)`, advances `OUT` and returns it. In the byte-wise regime, and for
`len = 0`, it changes no other byte; in the chunked regime (`left` at least `3 * CHUNK`) at most the `CHUNK` bytes after the
copy, which become unspecified: nothing is said of their values. -/
def Obligations.CopyReplicatesThePatternUpToSlack : Prop :=
  (∀ b a, decode (Command.word ⟨0x30, b, a⟩) = .ok (.copy a b)) ∧
  ∀ (s : State) (len : Word) (dist : Field24),
    (dist = 0 → EndsWithFault (.copy len dist) s .errValue) ∧
    (dist ≠ 0 → s.regs.out.toNat < dist.toNat → EndsWithFault (.copy len dist) s .errAddr) ∧
    (dist ≠ 0 → dist.toNat ≤ s.regs.out.toNat → s.regs.outEnd.toNat - s.regs.out.toNat < len.toNat →
      EndsWithSignal (.copy len dist) s .needOutput) ∧
    (dist ≠ 0 → dist.toNat ≤ s.regs.out.toNat → len.toNat ≤ s.regs.outEnd.toNat - s.regs.out.toNat →
      s.cfg.winBytes < s.regs.out.toNat + len.toNat → EndsWithFault (.copy len dist) s .errAddr) ∧
    (dist ≠ 0 → dist.toNat ≤ s.regs.out.toNat → len.toNat ≤ s.regs.outEnd.toNat - s.regs.out.toNat →
      3 * s.cfg.chunk ≤ s.regs.outEnd.toNat - s.regs.out.toNat → 0 < len.toNat →
      s.cfg.winBytes < s.regs.out.toNat + len.toNat + s.cfg.chunk → EndsWithFault (.copy len dist) s .errAddr) ∧
    (s.cfg.Legal → s.win.wf → dist ≠ 0 → dist.toNat ≤ s.regs.out.toNat →
      len.toNat ≤ s.regs.outEnd.toNat - s.regs.out.toNat → s.regs.out.toNat + len.toNat ≤ s.cfg.winBytes →
      (3 * s.cfg.chunk ≤ s.regs.outEnd.toNat - s.regs.out.toNat → 0 < len.toNat →
        s.regs.out.toNat + len.toNat + s.cfg.chunk ≤ s.cfg.winBytes) →
      ∃ t, exec (.copy len dist) s = .next t ∧
        t = { s with regs := { s.regs with out := t.regs.out, result := t.regs.out, seq := s.regs.seq + 1 },
                     win := t.win, draws := t.draws, response := some .ok } ∧
        t.regs.out.toNat = s.regs.out.toNat + len.toNat ∧
        (∀ i < len.toNat, t.win.read (s.regs.out.toNat + i) =
          s.win.read (s.regs.out.toNat - dist.toNat + i % dist.toNat)) ∧
        (∀ x, x < s.regs.out.toNat ∨ s.regs.out.toNat + len.toNat + s.cfg.chunk ≤ x → t.win.read x = s.win.read x) ∧
        (s.regs.outEnd.toNat - s.regs.out.toNat < 3 * s.cfg.chunk ∨ len = 0 →
          t.draws = s.draws ∧ ∀ x, s.regs.out.toNat + len.toNat ≤ x → t.win.read x = s.win.read x) ∧
        (3 * s.cfg.chunk ≤ s.regs.outEnd.toNat - s.regs.out.toNat → 0 < len.toNat →
          ∀ k < s.cfg.chunk, ∃ d, (s.regs.out.toNat + len.toNat + k, d) ∈ t.win.free))

/-- 43_copy_engine.md section 2 (equivalence and determinism): what COPY and COPYS produce does not depend on `CHUNK`:
two machines that differ in it agree on every byte outside the slack and on every register. -/
def Obligations.CopiesDoNotDependOnTheChunkWidth : Prop :=
  ∀ (s : State) (c : Nat) (len : Word) (dist : Field24) (t t' : State), s.win.wf →
    (exec (.copys len dist) s = .next t → exec (.copys len dist) { s with cfg := { s.cfg with chunk := c } } = .next t' →
      t' = { t with cfg := t'.cfg }) ∧
    (exec (.copy len dist) s = .next t → exec (.copy len dist) { s with cfg := { s.cfg with chunk := c } } = .next t' →
      t.response = some .ok → t'.response = some .ok → t'.regs = t.regs ∧ t'.head = t.head ∧ t'.prev = t.prev ∧
        ∀ x, x < s.regs.out.toNat + len.toNat ∨ s.regs.out.toNat + len.toNat + max c s.cfg.chunk ≤ x →
          t'.win.read x = t.win.read x)

/-- 43_copy_engine.md section 2 (R166 to R172, equivalence): for every chunk width and every `(out, dist, len, left)` that
passes the checks, the reference chunked algorithm leaves in `[out, out+len)` what the byte-serial copy leaves, nothing
below `out` changed, and nothing changed past the slack: past the copy itself in the safe variant and in the byte-wise
regime. -/
def Obligations.ChunkedAlgorithmEqualsTheSerialCopy : Prop :=
  ∀ (c out dist len left : Nat) (safe : Bool) (w : Window), w.wf → c = 16 ∨ c = 32 → 1 ≤ dist → dist ≤ out →
    len ≤ left →
    (∀ i < len, (chunkCopy c out dist len left safe w).read (out + i) = (serialCopy dist len out w).read (out + i)) ∧
    (∀ x < out, (chunkCopy c out dist len left safe w).read x = w.read x) ∧
    (∀ x, out + len + c ≤ x → (chunkCopy c out dist len left safe w).read x = w.read x) ∧
    (safe = true ∨ left < 3 * c → ∀ x, out + len ≤ x → (chunkCopy c out dist len left safe w).read x = w.read x)
end

