-- ==== Sys2Proof/Laws/Memory.lean ====
section
/-! SUPPORT. Laws of the memories: read after write, the canonical form and the bounds are kept, equal reads mean equal
memories. -/
namespace Sys2Proof.Machine

section Lists
variable {α : Type} {k j : Nat} {v : α} {l : List (Nat × α)}

theorem keysRise_tail {c : Nat × α} (h : keysRise (c :: l)) : keysRise l := (List.pairwise_cons.mp h).2

theorem keysRise_head {c : Nat × α} (h : keysRise (c :: l)) : ∀ d ∈ l, c.1 < d.1 := (List.pairwise_cons.mp h).1

theorem lookup_eq_none_of_lt (h : ∀ d ∈ l, k < d.1) : lookup k l = none := by
  cases l with
  | nil => rfl
  | cons c cs =>
    have := h c (by simp)
    simp [lookup, this, Nat.ne_of_gt this]

theorem lookup_mem (h : lookup k l = some v) : (k, v) ∈ l := by
  induction l with
  | nil => simp [lookup] at h
  | cons c cs ih =>
    simp only [lookup] at h
    split at h
    · obtain rfl := Option.some.inj h; subst k; simp
    · split at h
      · simp at h
      · exact List.mem_cons_of_mem _ (ih h)

theorem lookup_of_mem (hr : keysRise l) (h : (k, v) ∈ l) : lookup k l = some v := by
  induction l with
  | nil => simp at h
  | cons c cs ih =>
    rcases List.mem_cons.mp h with h | h
    · subst h; simp [lookup]
    · have := keysRise_head hr _ h
      simp only at this
      simp [lookup, Nat.ne_of_lt this, Nat.not_lt_of_lt this, ih (keysRise_tail hr) h]

theorem mem_insertAt {d : Nat × α} (h : d ∈ insertAt k v l) : d = (k, v) ∨ d ∈ l := by
  induction l with
  | nil => simpa [insertAt] using h
  | cons c cs ih =>
    simp only [insertAt] at h
    split at h
    · simp at h ⊢; tauto
    · split at h
      · simp at h ⊢; tauto
      · simp at h ⊢; rcases h with h | h
        · tauto
        · have := ih h; tauto

theorem mem_eraseAt {d : Nat × α} (h : d ∈ eraseAt k l) : d ∈ l := by
  induction l with
  | nil => simp [eraseAt] at h
  | cons c cs ih =>
    simp only [eraseAt] at h
    split at h
    · simp [h]
    · split at h
      · exact h
      · simp at h ⊢; rcases h with h | h
        · tauto
        · have := ih h; tauto

theorem insertAt_keysRise (hr : keysRise l) : keysRise (insertAt k v l) := by
  induction l with
  | nil => simp [insertAt, keysRise]
  | cons c cs ih =>
    simp only [insertAt]
    split
    · next h => exact List.pairwise_cons.mpr ⟨fun d hd => h ▸ keysRise_head hr d hd, keysRise_tail hr⟩
    · split
      · next h =>
        refine List.pairwise_cons.mpr ⟨fun d hd => ?_, hr⟩
        rcases List.mem_cons.mp hd with hd | hd
        · exact hd ▸ h
        · exact Nat.lt_trans h (keysRise_head hr d hd)
      · next h1 h2 =>
        refine List.pairwise_cons.mpr ⟨fun d hd => ?_, ih (keysRise_tail hr)⟩
        rcases mem_insertAt hd with hd | hd
        · subst hd; simp only; omega
        · exact keysRise_head hr d hd

theorem eraseAt_keysRise (hr : keysRise l) : keysRise (eraseAt k l) := by
  induction l with
  | nil => simp [eraseAt]
  | cons c cs ih =>
    simp only [eraseAt]
    split
    · exact keysRise_tail hr
    · split
      · exact hr
      · exact List.pairwise_cons.mpr ⟨fun d hd => keysRise_head hr d (mem_eraseAt hd), ih (keysRise_tail hr)⟩

theorem lookup_insertAt : lookup j (insertAt k v l) = if j = k then some v else lookup j l := by
  induction l with
  | nil =>
    simp only [insertAt, lookup]
    split_ifs <;> first | rfl | omega
  | cons c cs ih =>
    simp only [insertAt]
    by_cases h1 : c.1 = k
    · simp only [h1, if_true, lookup]; split_ifs <;> first | rfl | omega
    · by_cases h2 : k < c.1
      · simp only [h1, h2, if_true, if_false, lookup]; split_ifs <;> first | rfl | omega
      · simp only [h1, h2, if_false, lookup, ih]; split_ifs <;> first | rfl | omega

theorem lookup_eraseAt (hr : keysRise l) : lookup j (eraseAt k l) = if j = k then none else lookup j l := by
  induction l with
  | nil => simp [eraseAt, lookup]
  | cons c cs ih =>
    have hh := keysRise_head hr
    simp only [eraseAt]
    split_ifs with h1 h2 h3 h4
    · exact lookup_eq_none_of_lt (fun d hd => by have := hh d hd; omega)
    · simp only [lookup]
      split_ifs
      · omega
      · exact lookup_eq_none_of_lt (fun d hd => by have := hh d hd; omega)
      · rfl
    · exact lookup_eq_none_of_lt (fun d hd => by
        rcases List.mem_cons.mp hd with hd | hd
        · subst hd; omega
        · have := hh d hd; omega)
    · rfl
    · simp only [lookup, ih (keysRise_tail hr)]; split_ifs <;> first | rfl | omega
    · simp only [lookup, ih (keysRise_tail hr)]; split_ifs <;> rfl

/-- Two lists with rising keys that look up the same are the same list. -/
theorem eq_of_lookup_eq {l l' : List (Nat × α)} (hr : keysRise l) (hr' : keysRise l')
    (h : ∀ j, lookup j l = lookup j l') : l = l' := by
  induction l generalizing l' with
  | nil =>
    cases l' with
    | nil => rfl
    | cons c cs => have := h c.1; simp [lookup] at this
  | cons c cs ih =>
    cases l' with
    | nil => have := h c.1; simp [lookup] at this
    | cons d ds =>
      have hc := h c.1
      have hd := h d.1
      simp only [lookup] at hc hd
      have hcd : c = d := by
        rcases Nat.lt_trichotomy c.1 d.1 with hlt | heq | hgt
        · simp [hlt, Nat.ne_of_gt hlt] at hc
        · simp [heq] at hc; exact Prod.ext heq hc
        · simp [hgt, Nat.ne_of_gt hgt] at hd
      subst hcd
      congr 1
      refine ih (keysRise_tail hr) (keysRise_tail hr') (fun j => ?_)
      have hj := h j
      simp only [lookup] at hj
      rcases Nat.lt_trichotomy c.1 j with hlt | heq | hgt
      · simpa [Nat.ne_of_lt hlt, Nat.not_lt_of_lt hlt] using hj
      · subst heq
        rw [lookup_eq_none_of_lt (keysRise_head hr), lookup_eq_none_of_lt (keysRise_head hr')]
      · rw [lookup_eq_none_of_lt (fun d hd => Nat.lt_trans hgt (keysRise_head hr d hd)),
          lookup_eq_none_of_lt (fun d hd => Nat.lt_trans hgt (keysRise_head hr' d hd))]

end Lists

section Memories
variable {n : Nat} {m m' : List (Nat × BitVec n)} {a b size : Nat} {v : BitVec n}

@[simp] theorem Memory.read_nil : Memory.read ([] : List (Nat × BitVec n)) a = 0#n := rfl

theorem Memory.wf_nil : Memory.wf ([] : List (Nat × BitVec n)) := by simp [Memory.wf, keysRise]

theorem Memory.read_write (hr : keysRise m) :
    Memory.read (Memory.write m a v) b = if b = a then v else Memory.read m b := by
  unfold Memory.read Memory.write
  split_ifs with hv hb hb
  · simp [lookup_eraseAt hr, hb, hv]
  · simp [lookup_eraseAt hr, hb]
  · simp [lookup_insertAt, hb]
  · simp [lookup_insertAt, hb]

theorem Memory.write_keysRise (hr : keysRise m) : keysRise (Memory.write m a v) := by
  unfold Memory.write
  split
  · exact eraseAt_keysRise hr
  · exact insertAt_keysRise hr

theorem Memory.write_wf (h : Memory.wf m) : Memory.wf (Memory.write m a v) := by
  refine ⟨Memory.write_keysRise h.1, fun c hc => ?_⟩
  unfold Memory.write at hc
  split at hc
  · exact h.2 c (mem_eraseAt hc)
  · next hv =>
    rcases mem_insertAt hc with rfl | hc
    · exact hv
    · exact h.2 c hc

theorem Memory.write_within (h : Memory.within size m) (ha : a < size) : Memory.within size (Memory.write m a v) := by
  intro c hc
  unfold Memory.write at hc
  split at hc
  · exact h c (mem_eraseAt hc)
  · rcases mem_insertAt hc with rfl | hc
    · exact ha
    · exact h c hc

theorem Memory.erase_wf (h : Memory.wf m) : Memory.wf (eraseAt a m) :=
  ⟨eraseAt_keysRise h.1, fun c hc => h.2 c (mem_eraseAt hc)⟩

/-- Equal memories are equal data. -/
theorem Memory.eq_of_read_eq (h : Memory.wf m) (h' : Memory.wf m') (hr : ∀ b, Memory.read m b = Memory.read m' b) :
    m = m' := by
  have key : ∀ {x y : List (Nat × BitVec n)}, Memory.wf x → (∀ b, Memory.read x b = Memory.read y b) →
      ∀ j v, lookup j x = some v → lookup j y = some v := by
    intro x y hx hxy j v hj
    have h1 := hxy j
    simp only [Memory.read, hj, Option.getD_some] at h1
    cases hy : lookup j y with
    | none => rw [hy] at h1; exact absurd h1 (hx.2 _ (lookup_mem hj))
    | some u => rw [hy] at h1; simp at h1; rw [h1]
  refine eq_of_lookup_eq h.1 h'.1 (fun j => ?_)
  cases hj : lookup j m with
  | some u => exact (key h hr j u hj).symm
  | none =>
    cases hj' : lookup j m' with
    | none => rfl
    | some u => rw [key h' (fun b => (hr b).symm) j u hj'] at hj; exact absurd hj (by simp)

theorem Memory.load_keeps (l : List (Nat × BitVec n)) (h : Memory.wf m) (hw : Memory.within size m) :
    Memory.wf (l.foldl (fun m c => if c.1 < size then Memory.write m c.1 c.2 else m) m) ∧
      Memory.within size (l.foldl (fun m c => if c.1 < size then Memory.write m c.1 c.2 else m) m) := by
  induction l generalizing m with
  | nil => exact ⟨h, hw⟩
  | cons c cs ih =>
    simp only [List.foldl_cons]
    split
    · next hc => exact ih (Memory.write_wf h) (Memory.write_within hw hc)
    · exact ih h hw

theorem Memory.load_wf (l : List (Nat × BitVec n)) : Memory.wf (Memory.load size l) :=
  (Memory.load_keeps l Memory.wf_nil (by simp [Memory.within])).1

theorem Memory.load_within (l : List (Nat × BitVec n)) : Memory.within size (Memory.load size l) :=
  (Memory.load_keeps l Memory.wf_nil (by simp [Memory.within])).2

theorem Memory.read_eq_zero_of_within (h : Memory.within size m) (ha : size ≤ a) : Memory.read m a = 0#n := by
  unfold Memory.read
  cases hl : lookup a m with
  | none => rfl
  | some v => exact absurd (h _ (lookup_mem hl)) (by simpa using ha)

theorem Memory.read_foldl (l : List (Nat × BitVec n)) (h : keysRise m) (hw : Memory.within size l) (hl : keysRise l) (b : Nat) :
    Memory.read (l.foldl (fun m c => if c.1 < size then Memory.write m c.1 c.2 else m) m) b =
      (lookup b l).getD (Memory.read m b) := by
  induction l generalizing m with
  | nil => rfl
  | cons c cs ih =>
    have hc : c.1 < size := hw c (by simp)
    have hn := lookup_eq_none_of_lt (keysRise_head hl)
    simp only [List.foldl_cons, hc, if_true]
    rw [ih (Memory.write_keysRise h) (fun d hd => hw d (List.mem_cons_of_mem _ hd)) (keysRise_tail hl),
      Memory.read_write h]
    simp only [lookup]
    by_cases hb : b = c.1
    · subst hb; simp [hn]
    · have hb' : c.1 ≠ b := fun e => hb e.symm
      simp only [hb, hb', if_false]
      split_ifs with hlt
      · rw [lookup_eq_none_of_lt (fun d hd => Nat.lt_trans hlt (keysRise_head hl d hd))]
      · rfl

/-- A launch can leave every contents that exists: a canonical memory of the size is its own image. -/
theorem Memory.load_self (h : Memory.wf m) (hw : Memory.within size m) : Memory.load size m = m := by
  refine Memory.eq_of_read_eq (Memory.load_wf m) h (fun b => ?_)
  have : keysRise ([] : List (Nat × BitVec n)) := by simp [keysRise]
  unfold Memory.load
  rw [Memory.read_foldl m this hw h.1]
  rfl

end Memories

section Windows
variable {w : Window} {a b n k size : Nat} {v : Byte}

theorem Window.read_write (h : w.wf) : (w.write a v).read b = if b = a then v else w.read b := by
  unfold Window.read Window.write
  simp only [lookup_eraseAt h.2.1]
  by_cases hb : b = a
  · simp [hb, Memory.read_write h.1.1]
  · simp [hb, Memory.read_write h.1.1]

theorem Window.lookup_cells_write (h : w.wf) (hb : b ≠ a) :
    lookup b (w.write a v).cells = lookup b w.cells := by
  unfold Window.write Memory.write
  split
  · simp [lookup_eraseAt h.1.1, hb]
  · simp [lookup_insertAt, hb]

theorem Window.write_wf (h : w.wf) : (w.write a v).wf := by
  refine ⟨Memory.write_wf h.1, eraseAt_keysRise h.2.1, fun f hf => ?_⟩
  have hl := lookup_of_mem (eraseAt_keysRise h.2.1) (show (f.1, f.2) ∈ eraseAt a w.free from hf)
  rw [lookup_eraseAt h.2.1] at hl
  split at hl
  · simp at hl
  · next hne =>
    rw [Window.lookup_cells_write h hne]
    exact h.2.2 f (mem_eraseAt hf)

theorem Window.write_within (h : Window.within size w) (ha : a < size) : Window.within size (w.write a v) :=
  ⟨Memory.write_within h.1 ha, fun f hf => h.2 f (mem_eraseAt hf)⟩

/-- One byte left unspecified. -/
theorem Window.free_wf (h : w.wf) : Window.wf { cells := eraseAt a w.cells, free := insertAt a k w.free } := by
  refine ⟨Memory.erase_wf h.1, insertAt_keysRise h.2.1, fun f hf => ?_⟩
  rw [lookup_eraseAt h.1.1]
  split
  · rfl
  · next hne =>
    rcases mem_insertAt hf with rfl | hf
    · exact absurd rfl hne
    · exact h.2.2 f hf

theorem Window.read_free (h : w.wf) : Window.read { cells := eraseAt a w.cells, free := insertAt a k w.free } b =
    if b = a then Config.slackByte k else w.read b := by
  unfold Window.read
  simp only [lookup_insertAt]
  by_cases hb : b = a
  · simp [hb]
  · simp [hb, Memory.read, lookup_eraseAt h.1.1]

theorem Window.unspecify_wf (h : w.wf) : (w.unspecify k a n).wf := by
  induction n generalizing w a k with
  | zero => exact h
  | succ n ih => exact ih (Window.free_wf h)

theorem Window.unspecify_within (h : Window.within size w) (ha : a + n ≤ size) :
    Window.within size (w.unspecify k a n) := by
  induction n generalizing w a k with
  | zero => exact h
  | succ n ih =>
    refine ih ⟨fun c hc => h.1 c (mem_eraseAt hc), fun f hf => ?_⟩ (by omega)
    rcases mem_insertAt hf with rfl | hf
    · simp only; omega
    · exact h.2 f hf

/-- What `unspecify` does to every byte: a free value inside the range, nothing outside. -/
theorem Window.read_unspecify (h : w.wf) : (w.unspecify k a n).read b =
    if a ≤ b ∧ b < a + n then Config.slackByte (k + (b - a)) else w.read b := by
  induction n generalizing w a k with
  | zero => simp only [Window.unspecify]; rw [if_neg]; omega
  | succ n ih =>
    simp only [Window.unspecify]
    rw [ih (Window.free_wf h), Window.read_free h]
    split_ifs with h1 h2 h3 h4
    · congr 1; omega
    · omega
    · subst h3; simp
    · omega
    · omega
    · rfl

theorem Window.read_zero_of_within (h : Window.within size w) (ha : size ≤ a) : w.read a = 0#8 := by
  unfold Window.read
  cases hl : lookup a w.free with
  | none => exact Memory.read_eq_zero_of_within h.1 ha
  | some k => exact absurd (h.2 _ (lookup_mem hl)) (by simpa using ha)

end Windows

end Sys2Proof.Machine
end

