-- ==== Sys2Proof/Laws/CopyEngine.lean ====
section
/-! SUPPORT. Laws of the byte-serial copy and of the lane stores the reference algorithm is built on. -/
namespace Sys2Proof.Machine
variable {w : Window} {dist len out a b size : Nat}

theorem serialCopy_wf (h : w.wf) : (serialCopy dist len out w).wf := by
  induction len generalizing out w with
  | zero => exact h
  | succ n ih => exact ih (Window.write_wf h)

theorem serialCopy_within (h : Window.within size w) (ho : out + len ≤ size) :
    Window.within size (serialCopy dist len out w) := by
  induction len generalizing out w with
  | zero => exact h
  | succ n ih => exact ih (Window.write_within h (by omega)) (by omega)

/-- The bytes outside `[out, out+len)` are not written. -/
theorem read_serialCopy_outside (h : w.wf) (hb : b < out ∨ out + len ≤ b) :
    (serialCopy dist len out w).read b = w.read b := by
  induction len generalizing out w with
  | zero => rfl
  | succ n ih =>
    simp only [serialCopy]
    rw [ih (Window.write_wf h) (by omega), Window.read_write h, if_neg (by omega)]

/-- Byte `out + i` is the byte `dist` behind it, as the copy has left that one. -/
theorem read_serialCopy_recur (h : w.wf) (hd : 1 ≤ dist) (hdo : dist ≤ out) {i : Nat} (hi : i < len) :
    (serialCopy dist len out w).read (out + i) = (serialCopy dist len out w).read (out + i - dist) := by
  induction len generalizing out w i with
  | zero => omega
  | succ n ih =>
    simp only [serialCopy]
    cases i with
    | zero =>
      rw [read_serialCopy_outside (Window.write_wf h) (by omega),
        read_serialCopy_outside (Window.write_wf h) (by omega), Window.read_write h, Window.read_write h,
        if_pos (by omega), if_neg (by omega)]
      simp
    | succ i =>
      have := ih (out := out + 1) (Window.write_wf h (a := out) (v := w.read (out - dist))) (by omega) (i := i) (by omega)
      rwa [show out + 1 + i = out + (i + 1) by omega] at this

theorem storeLanes_wf (l : List Byte) (h : w.wf) : (storeLanes w a l).wf := by
  induction l generalizing w a with
  | nil => exact h
  | cons c cs ih => exact ih (Window.write_wf h)

/-- Lane `i` goes to address `a + i` (43_copy_engine.md R176). -/
theorem read_storeLanes (l : List Byte) (h : w.wf) : (storeLanes w a l).read b =
    if a ≤ b ∧ b < a + l.length then l.getD (b - a) 0 else w.read b := by
  induction l generalizing w a with
  | nil => simp only [storeLanes, List.length_nil]; rw [if_neg]; omega
  | cons c cs ih =>
    simp only [storeLanes, List.length_cons]
    rw [ih (Window.write_wf h), Window.read_write h]
    by_cases h1 : b = a
    · subst h1; simp
    · split_ifs with h2 h3 h3
      · rw [show b - a = (b - (a + 1)) + 1 by omega, List.getD_cons_succ]
      · omega
      · omega
      · rfl

theorem length_loadChunk (n : Nat) : (loadChunk w a n).length = n := by simp [loadChunk]

theorem getD_loadChunk {n i : Nat} (hi : i < n) : (loadChunk w a n).getD i 0 = w.read (a + i) := by
  simp [loadChunk, List.getD, hi]

/-! The ways a copy's pseudocode goes (43_copy_engine.md R163, R164), once the checks it shares have passed. -/

section Bodies
variable {s : State}

theorem left_eq : s.left = s.regs.outEnd.toNat - s.regs.out.toNat := rfl

theorem chunkedRegime_iff : s.chunkedRegime len = true ↔ 3 * s.cfg.chunk ≤ s.left ∧ 0 < len := by
  simp [State.chunkedRegime]

theorem copysBody_done (h1 : dist ≠ 0) (h2 : dist ≤ s.regs.out.toNat) (h3 : len ≤ s.left)
    (h4 : s.regs.out.toNat + len ≤ s.cfg.winBytes) : copysBody len dist s =
      doneWith (BitVec.ofNat 32 (s.regs.out.toNat + len))
        ({ s with win := serialCopy dist len s.regs.out.toNat s.win }.setOut (s.regs.out.toNat + len)) := by
  unfold copysBody
  simp only
  rw [if_neg h1, if_neg (by omega), if_neg (by omega), if_neg (by omega)]

theorem copyBody_serial (h1 : dist ≠ 0) (h2 : dist ≤ s.regs.out.toNat) (h3 : len ≤ s.left)
    (h4 : s.regs.out.toNat + len ≤ s.cfg.winBytes) (h5 : ¬ s.chunkedRegime len = true) : copyBody len dist s =
      doneWith (BitVec.ofNat 32 (s.regs.out.toNat + len))
        ({ s with win := serialCopy dist len s.regs.out.toNat s.win }.setOut (s.regs.out.toNat + len)) := by
  unfold copyBody
  simp only
  rw [if_neg h1, if_neg (by omega), if_neg (by omega), if_neg (by omega), if_neg h5]

theorem copyBody_chunked (h1 : dist ≠ 0) (h2 : dist ≤ s.regs.out.toNat) (h3 : len ≤ s.left)
    (h4 : s.regs.out.toNat + len + s.cfg.chunk ≤ s.cfg.winBytes) (h5 : s.chunkedRegime len = true) : copyBody len dist s =
      doneWith (BitVec.ofNat 32 (s.regs.out.toNat + len))
        ({ s with
            win := (serialCopy dist len s.regs.out.toNat s.win).unspecify s.draws (s.regs.out.toNat + len) s.cfg.chunk
            draws := s.draws + s.cfg.chunk }.setOut (s.regs.out.toNat + len)) := by
  unfold copyBody
  simp only
  rw [if_neg h1, if_neg (by omega), if_neg (by omega), if_neg (by omega), if_pos h5, if_neg (by omega)]

end Bodies


end Sys2Proof.Machine
end

