-- ==== Sys2Proof/Laws/Flags.lean ====
section
/-! SUPPORT. What each update of STATUS does to each of its fields (10_state.md R25): one lemma per field per update. -/
namespace Sys2Proof.Machine
variable (st : Word) (c : FaultCode) (b : Bool) (r : StopReason)

@[simp] theorem fault_setFault : Status.fault (Status.setFault c st) = true := by
  simp [Status.fault, Status.setFault]
@[simp] theorem fcode_setFault : Status.fcode (Status.setFault c st) = c.number := by
  unfold Status.fcode Status.setFault
  ext i hi
  interval_cases i <;> cases c <;> simp [FaultCode.number]
@[simp] theorem found_setFault : Status.found (Status.setFault c st) = Status.found st := by
  cases c <;> simp [Status.found, Status.setFault, FaultCode.number]
@[simp] theorem stopr_setFault : Status.stopr (Status.setFault c st) = Status.stopr st := by
  unfold Status.stopr Status.setFault
  ext i hi
  interval_cases i <;> cases c <;> simp [FaultCode.number]
@[simp] theorem reserved_setFault : Status.reserved (Status.setFault c st) = Status.reserved st := by
  unfold Status.reserved Status.setFault
  ext i hi
  interval_cases i <;> cases c <;> simp [FaultCode.number]

@[simp] theorem fault_setFound : Status.fault (Status.setFound b st) = Status.fault st := by
  cases b <;> simp [Status.fault, Status.setFound]
@[simp] theorem fcode_setFound : Status.fcode (Status.setFound b st) = Status.fcode st := by
  unfold Status.fcode Status.setFound
  ext i hi
  interval_cases i <;> cases b <;> simp
@[simp] theorem found_setFound : Status.found (Status.setFound b st) = b := by
  cases b <;> simp [Status.found, Status.setFound]
@[simp] theorem stopr_setFound : Status.stopr (Status.setFound b st) = Status.stopr st := by
  unfold Status.stopr Status.setFound
  ext i hi
  interval_cases i <;> cases b <;> simp
@[simp] theorem reserved_setFound : Status.reserved (Status.setFound b st) = Status.reserved st := by
  unfold Status.reserved Status.setFound
  ext i hi
  interval_cases i <;> cases b <;> simp

@[simp] theorem fault_setStopr : Status.fault (Status.setStopr r st) = Status.fault st := by
  cases r <;> simp [Status.fault, Status.setStopr, StopReason.number]
@[simp] theorem fcode_setStopr : Status.fcode (Status.setStopr r st) = Status.fcode st := by
  unfold Status.fcode Status.setStopr
  ext i hi
  interval_cases i <;> cases r <;> simp [StopReason.number]
@[simp] theorem found_setStopr : Status.found (Status.setStopr r st) = Status.found st := by
  cases r <;> simp [Status.found, Status.setStopr, StopReason.number]
@[simp] theorem stopr_setStopr : Status.stopr (Status.setStopr r st) = r.number := by
  unfold Status.stopr Status.setStopr
  ext i hi
  interval_cases i <;> cases r <;> simp [StopReason.number]
@[simp] theorem reserved_setStopr : Status.reserved (Status.setStopr r st) = Status.reserved st := by
  unfold Status.reserved Status.setStopr
  ext i hi
  interval_cases i <;> cases r <;> simp [StopReason.number]

/-! The two updates commands make. -/

theorem recordFault_first (h : Status.fault st = false) : Status.recordFault c st = Status.setFault c st := by
  simp [Status.recordFault, h]
theorem recordFault_later (h : Status.fault st = true) : Status.recordFault c st = st := by
  simp [Status.recordFault, h]
@[simp] theorem fault_recordFault : Status.fault (Status.recordFault c st) = true := by
  unfold Status.recordFault; split <;> simp_all
@[simp] theorem found_recordFault : Status.found (Status.recordFault c st) = Status.found st := by
  unfold Status.recordFault; split <;> simp
@[simp] theorem stopr_recordFault : Status.stopr (Status.recordFault c st) = Status.stopr st := by
  unfold Status.recordFault; split <;> simp
@[simp] theorem reserved_recordFault : Status.reserved (Status.recordFault c st) = Status.reserved st := by
  unfold Status.recordFault; split <;> simp

@[simp] theorem fault_recordSearch : Status.fault (Status.recordSearch b r st) = Status.fault st := by
  simp [Status.recordSearch]
@[simp] theorem fcode_recordSearch : Status.fcode (Status.recordSearch b r st) = Status.fcode st := by
  simp [Status.recordSearch]
@[simp] theorem found_recordSearch : Status.found (Status.recordSearch b r st) = b := by simp [Status.recordSearch]
@[simp] theorem stopr_recordSearch : Status.stopr (Status.recordSearch b r st) = r.number := by
  simp [Status.recordSearch]
@[simp] theorem reserved_recordSearch : Status.reserved (Status.recordSearch b r st) = Status.reserved st := by
  simp [Status.recordSearch]

end Sys2Proof.Machine
end

