-- ==== Sys2Proof/Laws/HashIndex.lean ====
section
/-! SUPPORT. Laws of the hash-index updater: what a cleared and a rebased table read as, what one insertion and a run of
them can do, and that all of it keeps the canonical form and the bounds. -/
namespace Sys2Proof.Machine

@[simp] theorem read_cleared (i : Nat) : Memory.read Table.cleared i = 0#32 := rfl
theorem cleared_wf : Memory.wf Table.cleared := Memory.wf_nil
theorem cleared_within (size : Nat) : Memory.within size Table.cleared := by simp [Memory.within, Table.cleared]

theorem hashIndex_le (s : State) (p : Nat) : s.hashIndex p ≤ s.hmask := Nat.and_le_right
theorem prevIndex_le (s : State) (p : Nat) : s.prevIndex p ≤ s.wmask := Nat.and_le_right
theorem prevIndex_eq_mod (s : State) (p : Nat) : s.prevIndex p = p % s.wsize := by
  simp [State.prevIndex, State.wmask, State.wsize, Nat.and_two_pow_sub_one_eq_mod]
theorem wsize_pos (s : State) : 0 < s.wsize := Nat.two_pow_pos _

section Rebase
variable {wsize mask size : Nat} {t : Table}

theorem mem_rebase {d : Nat × Word} (h : d ∈ Table.rebase wsize mask t) : d.2 ≠ 0 ∧ ∃ m, (d.1, m) ∈ t := by
  induction t with
  | nil => simp [Table.rebase] at h
  | cons c cs ih =>
    simp only [Table.rebase] at h
    split at h
    · obtain ⟨h1, m, hm⟩ := ih h; exact ⟨h1, m, List.mem_cons_of_mem _ hm⟩
    · next hne =>
      rcases List.mem_cons.mp h with rfl | h
      · exact ⟨hne, c.2, by simp⟩
      · obtain ⟨h1, m, hm⟩ := ih h; exact ⟨h1, m, List.mem_cons_of_mem _ hm⟩

theorem mem_rebase_lt {k : Nat} (h : ∀ d ∈ t, k < d.1) : ∀ d ∈ Table.rebase wsize mask t, k < d.1 := by
  intro d hd
  obtain ⟨-, m, hm⟩ := mem_rebase hd
  exact h (d.1, m) hm

theorem rebase_wf (h : keysRise t) : Memory.wf (Table.rebase wsize mask t) := by
  refine ⟨?_, fun c hc => (mem_rebase hc).1⟩
  induction t with
  | nil => simp [Table.rebase, keysRise]
  | cons c cs ih =>
    simp only [Table.rebase]
    split
    · exact ih (keysRise_tail h)
    · exact List.pairwise_cons.mpr ⟨mem_rebase_lt (fun d hd => keysRise_head h d hd), ih (keysRise_tail h)⟩

theorem rebase_within (h : Memory.within size t) : Memory.within size (Table.rebase wsize mask t) := by
  intro c hc
  obtain ⟨-, m, hm⟩ := mem_rebase hc
  exact h (c.1, m) hm

theorem slidEntry_nil (hw : 0 < wsize) (i : Nat) : slidEntry wsize mask i 0 = 0 := by
  have : ¬ wsize = 0 := by omega
  simp [slidEntry, rebasedEntry, this]

/-- What every entry reads as after a slide (41_hash_index.md R125). -/
theorem read_rebase (hw : 0 < wsize) (h : keysRise t) (i : Nat) :
    Memory.read (Table.rebase wsize mask t) i = slidEntry wsize mask i (Memory.read t i) := by
  induction t with
  | nil => exact (slidEntry_nil hw i).symm
  | cons c cs ih =>
    have ih := ih (keysRise_tail h)
    simp only [Table.rebase]
    rcases Nat.lt_trichotomy c.1 i with hlt | heq | hgt
    · have e1 : ∀ (v : Word) (l : Table), Memory.read ((c.1, v) :: l) i = Memory.read l i := by
        intro v l; simp [Memory.read, lookup, Nat.ne_of_lt hlt, Nat.not_lt_of_lt hlt]
      rw [show Memory.read (c :: cs) i = Memory.read cs i from e1 c.2 cs]
      split
      · exact ih
      · rw [e1]; exact ih
    · subst heq
      have e1 : ∀ (v : Word) (l : Table), Memory.read ((c.1, v) :: l) c.1 = v := by
        intro v l; simp [Memory.read, lookup]
      rw [show Memory.read (c :: cs) c.1 = c.2 from e1 c.2 cs]
      split
      · next hz =>
        simp only [Memory.read, lookup_eq_none_of_lt (mem_rebase_lt (keysRise_head h)), Option.getD_none,
          Memory.unlisted]
        exact hz.symm
      · exact e1 _ _
    · have e1 : ∀ (l : Table), (∀ d ∈ l, i < d.1) → Memory.read l i = 0 := by
        intro l hl; simp [Memory.read, lookup_eq_none_of_lt hl, Memory.unlisted]
      have hcs : ∀ d ∈ cs, i < d.1 := fun d hd => Nat.lt_trans hgt (keysRise_head h d hd)
      rw [e1 (c :: cs) (by simpa using ⟨hgt, fun a b hd => hcs (a, b) hd⟩), slidEntry_nil hw]
      split
      · exact e1 _ (mem_rebase_lt hcs)
      · refine e1 _ (fun d hd => ?_)
        rcases List.mem_cons.mp hd with rfl | hd
        · exact hgt
        · exact mem_rebase_lt hcs d hd

end Rebase

section Insert
variable {s : State} {p n : Nat} {t t' : IndexRun}

/-- One insertion, said once: it passes exactly where the order check does, and then it has made these writes. -/
theorem insertOne_eq_some : insertOne s p t = some t' ↔
    (Memory.read t.head (s.hashIndex p) = 0 ∨ (Memory.read t.head (s.hashIndex p)).toNat < p) ∧
      t' = { head := Memory.write t.head (s.hashIndex p) (BitVec.ofNat 32 p)
             prev := Memory.write t.prev (s.prevIndex p) (Memory.read t.head (s.hashIndex p))
             old := Memory.read t.head (s.hashIndex p) } := by
  unfold insertOne
  simp only
  split
  · next h => exact ⟨fun h' => by simp at h', fun h' => h'.1.elim (fun e => absurd e h.1) (fun e => absurd h.2 (by omega))⟩
  · next h =>
    have : Memory.read t.head (s.hashIndex p) = 0 ∨ (Memory.read t.head (s.hashIndex p)).toNat < p := by
      by_contra hc; exact h (by simpa [not_or] using hc)
    exact ⟨fun e => ⟨this, (Option.some.inj e).symm⟩, fun e => by rw [e.2]⟩

theorem insertRun_zero : insertRun s 0 p t = some t := rfl

theorem insertRun_succ : insertRun s (n + 1) p t = (insertOne s p t).bind (insertRun s n (p + 1)) := by
  simp only [insertRun]; cases insertOne s p t <;> rfl

/-- A run is the run of its first positions and then its last one. -/
theorem insertRun_succ_last : insertRun s (n + 1) p t = (insertRun s n p t).bind (insertOne s (p + n)) := by
  induction n generalizing p t with
  | zero => rw [insertRun_succ]; simp only [insertRun_zero, Option.bind_some, Nat.add_zero]; cases insertOne s p t <;> rfl
  | succ n ih =>
    rw [insertRun_succ, insertRun_succ]
    cases insertOne s p t with
    | none => rfl
    | some t1 => simp only [Option.bind_some]; rw [ih, show p + 1 + n = p + (n + 1) by omega]

/-- A property of the two tables that every insertion of a position of the run keeps, the run keeps. -/
theorem insertRun_keeps (P : IndexRun → Prop) (hk : ∀ k, p ≤ k → k < p + n → ∀ x y, P x → insertOne s k x = some y → P y)
    (hP : P t) (h : insertRun s n p t = some t') : P t' := by
  induction n generalizing t' with
  | zero => rw [insertRun_zero] at h; exact Option.some.inj h ▸ hP
  | succ n ih =>
    rw [insertRun_succ_last, Option.bind_eq_some_iff] at h
    obtain ⟨x, hx, hy⟩ := h
    exact hk (p + n) (by omega) (by omega) x t' (ih (fun k h1 h2 => hk k h1 (by omega)) hx) hy

/-- A run that passes has passed at every point on the way. -/
theorem insertRun_prefix {k m : Nat} (h : insertRun s (k + m) p t = some t') : ∃ u, insertRun s k p t = some u := by
  induction m generalizing t' with
  | zero => exact ⟨t', h⟩
  | succ m ih =>
    rw [show k + (m + 1) = (k + m) + 1 by omega, insertRun_succ_last, Option.bind_eq_some_iff] at h
    obtain ⟨x, hx, -⟩ := h
    exact ih hx

/-- A run of at least one position does not read the previous head it is given. -/
theorem insertRun_old {h d : Table} {o o' : Word} (hn : 0 < n) : insertRun s n p ⟨h, d, o⟩ = insertRun s n p ⟨h, d, o'⟩ := by
  cases n with
  | zero => omega
  | succ n => rw [insertRun_succ, insertRun_succ]; rfl

theorem validEnd_eq : s.validEnd = s.regs.strstart.toNat + s.regs.lookahead.toNat := rfl

/-! The four ways the pseudocode of an insertion goes (41_hash_index.md R127). -/

theorem insertBody_query : insertBody p 0 s = doneWith (Memory.read s.prev (s.prevIndex p)) s := if_pos rfl

theorem insertBody_outside (h0 : 0 < n) (h : s.cfg.winBytes < p + n - 1 + 4) : insertBody p n s = .fault .errAddr := by
  unfold insertBody; rw [if_neg (by omega), if_pos (by omega)]

theorem insertBody_short (h0 : 0 < n) (h : p + n - 1 + 4 ≤ s.cfg.winBytes)
    (hv : s.validEnd < p + n - 1 + s.regs.minMatch.toNat) : insertBody p n s = .signal .needInput := by
  unfold insertBody; rw [if_neg (by omega), if_neg (by omega), if_pos (by omega)]

theorem insertBody_run (h0 : 0 < n) (h : p + n - 1 + 4 ≤ s.cfg.winBytes)
    (hv : p + n - 1 + s.regs.minMatch.toNat ≤ s.validEnd) : insertBody p n s =
      match insertRun s n p { head := s.head, prev := s.prev, old := 0 } with
      | none => .fault .errOrder
      | some t => doneWith t.old { s with head := t.head, prev := t.prev } := by
  unfold insertBody; split_ifs <;> first | omega | rfl

end Insert

end Sys2Proof.Machine
end

