-- ==== Sys2Proof/Laws/MatchFinder.lean ====
section
/-! SUPPORT. Laws of the match finder: the compare counts the agreeing prefix, and what a search can answer. -/
namespace Sys2Proof.Machine

section Compare
variable {w : Window} {n a b i : Nat}

theorem matchLenUpTo_le : matchLenUpTo w n a b ≤ n := by
  induction n generalizing a b with
  | zero => simp [matchLenUpTo]
  | succ n ih => simp only [matchLenUpTo]; split <;> [exact Nat.succ_le_succ ih; omega]

theorem matchLenUpTo_agree (h : i < matchLenUpTo w n a b) : w.read (a + i) = w.read (b + i) := by
  induction n generalizing a b i with
  | zero => simp [matchLenUpTo] at h
  | succ n ih =>
    simp only [matchLenUpTo] at h
    split at h
    · next he =>
      cases i with
      | zero => exact he
      | succ i => have := ih (a := a + 1) (b := b + 1) (i := i) (by omega)
                  rwa [show a + 1 + i = a + (i + 1) by omega, show b + 1 + i = b + (i + 1) by omega] at this
    · omega

theorem matchLenUpTo_differ (h : matchLenUpTo w n a b < n) :
    w.read (a + matchLenUpTo w n a b) ≠ w.read (b + matchLenUpTo w n a b) := by
  induction n generalizing a b with
  | zero => omega
  | succ n ih =>
    simp only [matchLenUpTo] at h ⊢
    split
    · next he =>
      rw [if_pos he] at h
      have := ih (a := a + 1) (b := b + 1) (by omega)
      rwa [show a + 1 + matchLenUpTo w n (a + 1) (b + 1) = a + (matchLenUpTo w n (a + 1) (b + 1) + 1) by omega,
        show b + 1 + matchLenUpTo w n (a + 1) (b + 1) = b + (matchLenUpTo w n (a + 1) (b + 1) + 1) by omega] at this
    · next he => exact he

theorem matchLen_le : matchLen w a b ≤ Config.maxMatch := matchLenUpTo_le
theorem matchLen_agree (h : i < matchLen w a b) : w.read (a + i) = w.read (b + i) := matchLenUpTo_agree h
theorem matchLen_differ (h : matchLen w a b < Config.maxMatch) :
    w.read (a + matchLen w a b) ≠ w.read (b + matchLen w a b) := matchLenUpTo_differ h

/-- The length is the one number that agreement below it and a difference at it name. -/
theorem matchLen_eq_iff : matchLen w a b = n ↔ n ≤ Config.maxMatch ∧ (∀ i < n, w.read (a + i) = w.read (b + i)) ∧
    (n < Config.maxMatch → w.read (a + n) ≠ w.read (b + n)) := by
  constructor
  · rintro rfl; exact ⟨matchLen_le, fun i h => matchLen_agree h, matchLen_differ⟩
  · rintro ⟨h1, h2, h3⟩
    rcases Nat.lt_trichotomy (matchLen w a b) n with h | h | h
    · exact absurd (h2 _ h) (matchLen_differ (by omega))
    · exact h
    · exact absurd (matchLen_agree h) (h3 (by have := matchLen_le (w := w) (a := a) (b := b); omega))

end Compare

section Search
variable {q : SearchSetup} {n cur bound best ms : Nat} {found : Bool} {r : Search}

/-- One iteration of R144's loop, said once: what it can answer where budget is left. -/
theorem searchLoop_succ : searchLoop q (n + 1) cur bound best ms found = some r →
    (cur ≤ q.limit ∧ r = Search.stopped best ms found .limit) ∨
    (q.limit < cur ∧ cur < bound ∧
      ((best < matchLen q.win q.ss cur ∧ q.nice ≤ matchLen q.win q.ss cur ∧
          r = (Search.stopped (matchLen q.win q.ss cur) cur true .nice).afterExamining cur) ∨
       (best < matchLen q.win q.ss cur ∧ matchLen q.win q.ss cur < q.nice ∧
          ∃ r', searchLoop q n (q.link cur) cur (matchLen q.win q.ss cur) cur true = some r' ∧
            r = r'.afterExamining cur) ∨
       (matchLen q.win q.ss cur ≤ best ∧ q.low = true ∧
          r = (Search.stopped best ms found .noImprove).afterExamining cur) ∨
       (matchLen q.win q.ss cur ≤ best ∧ q.low = false ∧
          ∃ r', searchLoop q n (q.link cur) cur best ms found = some r' ∧ r = r'.afterExamining cur))) := by
  intro h
  simp only [searchLoop] at h
  split at h
  · next h1 => exact .inl ⟨h1, (Option.some.inj h).symm⟩
  · next h1 =>
    split at h
    · simp at h
    · next h2 =>
      refine .inr ⟨by omega, by omega, ?_⟩
      split at h
      · next h3 =>
        split at h
        · next h4 => exact .inl ⟨h3, h4, (Option.some.inj h).symm⟩
        · next h4 =>
          obtain ⟨r', hr, he⟩ := Option.map_eq_some_iff.mp h
          exact .inr (.inl ⟨h3, by omega, r', hr, he.symm⟩)
      · next h3 =>
        split at h
        · next h4 => exact .inr (.inr (.inl ⟨by omega, h4, (Option.some.inj h).symm⟩))
        · next h4 =>
          obtain ⟨r', hr, he⟩ := Option.map_eq_some_iff.mp h
          exact .inr (.inr (.inr ⟨by omega, by simpa using h4, r', hr, he.symm⟩))

theorem searchLoop_zero : searchLoop q 0 cur bound best ms found = some r →
    r = Search.stopped best ms found (if cur ≤ q.limit then .limit else .budget) := by
  intro h; exact (Option.some.inj h).symm

/-- A search never loses length. -/
theorem searchLoop_best_le (h : searchLoop q n cur bound best ms found = some r) : best ≤ r.best := by
  induction n generalizing cur bound best ms found r with
  | zero => rw [searchLoop_zero h]; simp [Search.stopped]
  | succ n ih =>
    rcases searchLoop_succ h with ⟨-, rfl⟩ | ⟨-, -, ⟨h1, -, rfl⟩ | ⟨h1, -, r', hr, rfl⟩ | ⟨-, -, rfl⟩ | ⟨-, -, r', hr, rfl⟩⟩
    · simp [Search.stopped]
    · simp [Search.stopped, Search.afterExamining]; omega
    · have := ih hr; simp [Search.afterExamining]; omega
    · simp [Search.stopped, Search.afterExamining]
    · have := ih hr; simpa [Search.afterExamining] using this

/-- The positions examined fall strictly, lie between limit and bound, and cost one unit of budget each. -/
theorem searchLoop_examined (h : searchLoop q n cur bound best ms found = some r) :
    r.examined.Pairwise (· > ·) ∧ (∀ c ∈ r.examined, q.limit < c ∧ c < bound) ∧ r.examined.length ≤ n := by
  induction n generalizing cur bound best ms found r with
  | zero => rw [searchLoop_zero h]; simp [Search.stopped]
  | succ n ih =>
    have step : ∀ r' : Search, q.limit < cur → cur < bound →
        (r'.examined.Pairwise (· > ·) ∧ (∀ c ∈ r'.examined, q.limit < c ∧ c < cur) ∧ r'.examined.length ≤ n) →
        (r'.afterExamining cur).examined.Pairwise (· > ·) ∧
          (∀ c ∈ (r'.afterExamining cur).examined, q.limit < c ∧ c < bound) ∧
          (r'.afterExamining cur).examined.length ≤ n + 1 := by
      rintro r' h1 h2 ⟨h3, h4, h5⟩
      refine ⟨List.pairwise_cons.mpr ⟨fun c hc => (h4 c hc).2, h3⟩, fun c hc => ?_, by
        simp [Search.afterExamining]; omega⟩
      rcases List.mem_cons.mp hc with rfl | hc
      · exact ⟨h1, h2⟩
      · have := h4 c hc; omega
    rcases searchLoop_succ h with ⟨-, rfl⟩ | ⟨h1, h2, ⟨-, -, rfl⟩ | ⟨-, -, r', hr, rfl⟩ | ⟨-, -, rfl⟩ | ⟨-, -, r', hr, rfl⟩⟩
    · simp [Search.stopped]
    · exact step _ h1 h2 (by simp [Search.stopped])
    · exact step _ h1 h2 (ih hr)
    · exact step _ h1 h2 (by simp [Search.stopped])
    · exact step _ h1 h2 (ih hr)

/-- Either nothing was accepted and nothing changed, or the match start is a position examined, its length is the best
and is more than the best before. -/
theorem searchLoop_accepts (h : searchLoop q n cur bound best ms found = some r) :
    (r.best = best ∧ r.matchStart = ms ∧ r.found = found) ∨
      (best < r.best ∧ r.found = true ∧ r.matchStart ∈ r.examined ∧ r.best = matchLen q.win q.ss r.matchStart) := by
  induction n generalizing cur bound best ms found r with
  | zero => rw [searchLoop_zero h]; simp [Search.stopped]
  | succ n ih =>
    rcases searchLoop_succ h with ⟨-, rfl⟩ | ⟨h1, h2, ⟨h3, -, rfl⟩ | ⟨h3, -, r', hr, rfl⟩ | ⟨-, -, rfl⟩ | ⟨-, -, r', hr, rfl⟩⟩
    · simp [Search.stopped]
    · right; simp [Search.stopped, Search.afterExamining, h3]
    · right
      rcases ih hr with ⟨e1, e2, e3⟩ | ⟨e1, e2, e3, e4⟩
      · simp [Search.afterExamining, e1, e2, e3, h3]
      · refine ⟨by simp [Search.afterExamining]; omega, e2, ?_, e4⟩
        simp [Search.afterExamining, e3]
    · left; simp [Search.stopped, Search.afterExamining]
    · rcases ih hr with ⟨e1, e2, e3⟩ | ⟨e1, e2, e3, e4⟩
      · left; simp [Search.afterExamining, e1, e2, e3]
      · right; exact ⟨e1, e2, by simp [Search.afterExamining, e3], e4⟩

/-- The search is a search over its own positions: nothing examined is longer than the best. -/
theorem searchLoop_examined_le_best (h : searchLoop q n cur bound best ms found = some r) :
    ∀ c ∈ r.examined, matchLen q.win q.ss c ≤ r.best := by
  induction n generalizing cur bound best ms found r with
  | zero => rw [searchLoop_zero h]; simp [Search.stopped]
  | succ n ih =>
    rcases searchLoop_succ h with ⟨-, rfl⟩ | ⟨h1, h2, ⟨h3, -, rfl⟩ | ⟨h3, -, r', hr, rfl⟩ | ⟨h3, -, rfl⟩ | ⟨h3, -, r', hr, rfl⟩⟩
    · simp [Search.stopped]
    · simp [Search.stopped, Search.afterExamining]
    · have := searchLoop_best_le hr; simpa [Search.afterExamining] using ⟨this, ih hr⟩
    · simpa [Search.stopped, Search.afterExamining] using h3
    · have := searchLoop_best_le hr
      simp only [Search.afterExamining, List.mem_cons, forall_eq_or_imp]
      exact ⟨by omega, ih hr⟩

/-- A chain whose links descend ends a search without `ERR_CHAIN` (R153, item 8). -/
theorem searchLoop_isSome (hl : ∀ p, q.limit < p → p < bound → q.link p < p) (hc : cur < bound ∨ cur ≤ q.limit) :
    (searchLoop q n cur bound best ms found).isSome := by
  induction n generalizing cur bound best ms found with
  | zero => simp [searchLoop]
  | succ n ih =>
    simp only [searchLoop]
    split
    · rfl
    · next h1 =>
      have hb : cur < bound := by omega
      rw [if_neg (by omega)]
      have go : ∀ best ms found, (searchLoop q n (q.link cur) cur best ms found).isSome := fun _ _ _ =>
        ih (fun p hp hpc => hl p hp (by omega)) (.inl (hl cur (by omega) hb))
      split
      · split
        · rfl
        · rw [Option.isSome_map]; exact go _ _ _
      · split
        · rfl
        · rw [Option.isSome_map]; exact go _ _ _

end Search

/-! The three ways LMATCH's pseudocode goes (42_match_finder.md R144). -/

section Lmatch
variable {s : State} {cur : Nat} {r : Search}

theorem lmatchBody_outside (h : s.cfg.winBytes < s.regs.strstart.toNat + 258) : lmatchBody cur s = .fault .errAddr := by
  unfold lmatchBody; exact if_pos h

theorem lmatchBody_chain (h : s.regs.strstart.toNat + 258 ≤ s.cfg.winBytes) (hs : s.search cur = none) :
    lmatchBody cur s = .fault .errChain := by
  unfold lmatchBody
  rw [if_neg (show ¬ s.cfg.winBytes < s.regs.strstart.toNat + Config.maxMatch by unfold Config.maxMatch; omega), hs]

theorem lmatchBody_done (h : s.regs.strstart.toNat + 258 ≤ s.cfg.winBytes) (hs : s.search cur = some r) :
    lmatchBody cur s = doneWith (BitVec.ofNat 32 (min r.best s.regs.lookahead.toNat)) (s.recordSearch r) := by
  unfold lmatchBody
  rw [if_neg (show ¬ s.cfg.winBytes < s.regs.strstart.toNat + Config.maxMatch by unfold Config.maxMatch; omega), hs]

end Lmatch

end Sys2Proof.Machine
end

