-- ==== Sys2Proof/Laws/PerInstr.lean ====
section
/-! SUPPORT. Statements about every command, made per command: the fields an instruction is encoded with are well formed
by the prose of 30_encoding.md R84 and R85, whatever its operands are. -/
namespace Sys2Proof.Laws.FieldsWellFormed

/-- The fields of the instruction pass every check of WellFormed.lean. -/
def Statement (i : Instr) : Prop := i.command.wellFormed = true

theorem nop : Statement .nop := rfl
theorem setr (reg : Field24) (value : Word) : Statement (.setr reg value) := rfl
theorem getr (reg : Field24) : Statement (.getr reg) := rfl
theorem stb (addr : Word) (byte : Byte) : Statement (.stb addr byte) := by
  have h : (byte.setWidth 24).extractLsb' 8 16 = 0#16 := by ext i hi; simp [BitVec.getLsbD_of_ge]
  simp [Statement, Instr.command, Command.wellFormed, Command.opcodeAssigned, Command.noOperandsZero, Command.getrAZero,
    Command.oneOperandBZero, Command.stbHighZero, h]
theorem ldb (addr : Word) : Statement (.ldb addr) := rfl
theorem ldh (index : Word) : Statement (.ldh index) := rfl
theorem ldp (index : Word) : Statement (.ldp index) := rfl
theorem clear : Statement .clear := rfl
theorem slide : Statement .slide := rfl
theorem insert (str : Word) : Statement (.insert str) := rfl
theorem insertn (str : Word) (count : Field24) : Statement (.insertn str count) := rfl
theorem lmatch (cur : Word) : Statement (.lmatch cur) := rfl
theorem cmp258 (addr0 : Word) (addr1 : Field24) : Statement (.cmp258 addr0 addr1) := rfl
theorem copy (len : Word) (dist : Field24) : Statement (.copy len dist) := rfl
theorem copys (len : Word) (dist : Field24) : Statement (.copys len dist) := rfl
theorem reset : Statement .reset := rfl

end Sys2Proof.Laws.FieldsWellFormed
end

