-- ==== Sys2Proof/Laws/State.lean ====
section
/-! SUPPORT. One lemma per field of State per named update, and per register per update, true by unfolding once. -/
namespace Sys2Proof.Machine

section setResult
variable (s : State) (v : Word)

@[simp] theorem setResult_cfg : (s.setResult v).cfg = s.cfg := rfl
@[simp] theorem setResult_win : (s.setResult v).win = s.win := rfl
@[simp] theorem setResult_head : (s.setResult v).head = s.head := rfl
@[simp] theorem setResult_prev : (s.setResult v).prev = s.prev := rfl
@[simp] theorem setResult_response : (s.setResult v).response = s.response := rfl
@[simp] theorem setResult_draws : (s.setResult v).draws = s.draws := rfl
@[simp] theorem setResult_port : (s.setResult v).port = s.port := rfl
@[simp] theorem setResult_status : (s.setResult v).regs.status = s.regs.status := rfl
@[simp] theorem setResult_result : (s.setResult v).regs.result = v := rfl
@[simp] theorem setResult_seq : (s.setResult v).regs.seq = s.regs.seq := rfl
@[simp] theorem setResult_wbits : (s.setResult v).regs.wbits = s.regs.wbits := rfl
@[simp] theorem setResult_hbits : (s.setResult v).regs.hbits = s.regs.hbits := rfl
@[simp] theorem setResult_level : (s.setResult v).regs.level = s.regs.level := rfl
@[simp] theorem setResult_triggerLevel : (s.setResult v).regs.triggerLevel = s.regs.triggerLevel := rfl
@[simp] theorem setResult_earlyLevel : (s.setResult v).regs.earlyLevel = s.regs.earlyLevel := rfl
@[simp] theorem setResult_maxChain : (s.setResult v).regs.maxChain = s.regs.maxChain := rfl
@[simp] theorem setResult_goodMatch : (s.setResult v).regs.goodMatch = s.regs.goodMatch := rfl
@[simp] theorem setResult_niceMatch : (s.setResult v).regs.niceMatch = s.regs.niceMatch := rfl
@[simp] theorem setResult_minMatch : (s.setResult v).regs.minMatch = s.regs.minMatch := rfl
@[simp] theorem setResult_strstart : (s.setResult v).regs.strstart = s.regs.strstart := rfl
@[simp] theorem setResult_lookahead : (s.setResult v).regs.lookahead = s.regs.lookahead := rfl
@[simp] theorem setResult_prevLength : (s.setResult v).regs.prevLength = s.regs.prevLength := rfl
@[simp] theorem setResult_matchStart : (s.setResult v).regs.matchStart = s.regs.matchStart := rfl
@[simp] theorem setResult_out : (s.setResult v).regs.out = s.regs.out := rfl
@[simp] theorem setResult_outEnd : (s.setResult v).regs.outEnd = s.regs.outEnd := rfl

end setResult

section setOut
variable (s : State) (n : Nat)

@[simp] theorem setOut_cfg : (s.setOut n).cfg = s.cfg := rfl
@[simp] theorem setOut_win : (s.setOut n).win = s.win := rfl
@[simp] theorem setOut_head : (s.setOut n).head = s.head := rfl
@[simp] theorem setOut_prev : (s.setOut n).prev = s.prev := rfl
@[simp] theorem setOut_response : (s.setOut n).response = s.response := rfl
@[simp] theorem setOut_draws : (s.setOut n).draws = s.draws := rfl
@[simp] theorem setOut_port : (s.setOut n).port = s.port := rfl
@[simp] theorem setOut_status : (s.setOut n).regs.status = s.regs.status := rfl
@[simp] theorem setOut_result : (s.setOut n).regs.result = s.regs.result := rfl
@[simp] theorem setOut_seq : (s.setOut n).regs.seq = s.regs.seq := rfl
@[simp] theorem setOut_wbits : (s.setOut n).regs.wbits = s.regs.wbits := rfl
@[simp] theorem setOut_hbits : (s.setOut n).regs.hbits = s.regs.hbits := rfl
@[simp] theorem setOut_level : (s.setOut n).regs.level = s.regs.level := rfl
@[simp] theorem setOut_triggerLevel : (s.setOut n).regs.triggerLevel = s.regs.triggerLevel := rfl
@[simp] theorem setOut_earlyLevel : (s.setOut n).regs.earlyLevel = s.regs.earlyLevel := rfl
@[simp] theorem setOut_maxChain : (s.setOut n).regs.maxChain = s.regs.maxChain := rfl
@[simp] theorem setOut_goodMatch : (s.setOut n).regs.goodMatch = s.regs.goodMatch := rfl
@[simp] theorem setOut_niceMatch : (s.setOut n).regs.niceMatch = s.regs.niceMatch := rfl
@[simp] theorem setOut_minMatch : (s.setOut n).regs.minMatch = s.regs.minMatch := rfl
@[simp] theorem setOut_strstart : (s.setOut n).regs.strstart = s.regs.strstart := rfl
@[simp] theorem setOut_lookahead : (s.setOut n).regs.lookahead = s.regs.lookahead := rfl
@[simp] theorem setOut_prevLength : (s.setOut n).regs.prevLength = s.regs.prevLength := rfl
@[simp] theorem setOut_matchStart : (s.setOut n).regs.matchStart = s.regs.matchStart := rfl
@[simp] theorem setOut_out : (s.setOut n).regs.out = BitVec.ofNat 32 n := rfl
@[simp] theorem setOut_outEnd : (s.setOut n).regs.outEnd = s.regs.outEnd := rfl

end setOut

section recordSearch
variable (s : State) (r : Search)

@[simp] theorem recordSearch_cfg : (s.recordSearch r).cfg = s.cfg := rfl
@[simp] theorem recordSearch_win : (s.recordSearch r).win = s.win := rfl
@[simp] theorem recordSearch_head : (s.recordSearch r).head = s.head := rfl
@[simp] theorem recordSearch_prev : (s.recordSearch r).prev = s.prev := rfl
@[simp] theorem recordSearch_response : (s.recordSearch r).response = s.response := rfl
@[simp] theorem recordSearch_draws : (s.recordSearch r).draws = s.draws := rfl
@[simp] theorem recordSearch_port : (s.recordSearch r).port = s.port := rfl
@[simp] theorem recordSearch_status : (s.recordSearch r).regs.status = Status.recordSearch r.found r.stop s.regs.status := rfl
@[simp] theorem recordSearch_result : (s.recordSearch r).regs.result = s.regs.result := rfl
@[simp] theorem recordSearch_seq : (s.recordSearch r).regs.seq = s.regs.seq := rfl
@[simp] theorem recordSearch_wbits : (s.recordSearch r).regs.wbits = s.regs.wbits := rfl
@[simp] theorem recordSearch_hbits : (s.recordSearch r).regs.hbits = s.regs.hbits := rfl
@[simp] theorem recordSearch_level : (s.recordSearch r).regs.level = s.regs.level := rfl
@[simp] theorem recordSearch_triggerLevel : (s.recordSearch r).regs.triggerLevel = s.regs.triggerLevel := rfl
@[simp] theorem recordSearch_earlyLevel : (s.recordSearch r).regs.earlyLevel = s.regs.earlyLevel := rfl
@[simp] theorem recordSearch_maxChain : (s.recordSearch r).regs.maxChain = s.regs.maxChain := rfl
@[simp] theorem recordSearch_goodMatch : (s.recordSearch r).regs.goodMatch = s.regs.goodMatch := rfl
@[simp] theorem recordSearch_niceMatch : (s.recordSearch r).regs.niceMatch = s.regs.niceMatch := rfl
@[simp] theorem recordSearch_minMatch : (s.recordSearch r).regs.minMatch = s.regs.minMatch := rfl
@[simp] theorem recordSearch_strstart : (s.recordSearch r).regs.strstart = s.regs.strstart := rfl
@[simp] theorem recordSearch_lookahead : (s.recordSearch r).regs.lookahead = s.regs.lookahead := rfl
@[simp] theorem recordSearch_prevLength : (s.recordSearch r).regs.prevLength = s.regs.prevLength := rfl
@[simp] theorem recordSearch_matchStart : (s.recordSearch r).regs.matchStart = BitVec.ofNat 32 r.matchStart := rfl
@[simp] theorem recordSearch_out : (s.recordSearch r).regs.out = s.regs.out := rfl
@[simp] theorem recordSearch_outEnd : (s.recordSearch r).regs.outEnd = s.regs.outEnd := rfl

end recordSearch

section respond
variable (s : State) (c : Code)

@[simp] theorem respond_cfg : (respond c s).cfg = s.cfg := rfl
@[simp] theorem respond_win : (respond c s).win = s.win := rfl
@[simp] theorem respond_head : (respond c s).head = s.head := rfl
@[simp] theorem respond_prev : (respond c s).prev = s.prev := rfl
@[simp] theorem respond_response : (respond c s).response = some c := rfl
@[simp] theorem respond_draws : (respond c s).draws = s.draws := rfl
@[simp] theorem respond_port : (respond c s).port = s.port := rfl
@[simp] theorem respond_status : (respond c s).regs.status = s.regs.status := rfl
@[simp] theorem respond_result : (respond c s).regs.result = s.regs.result := rfl
@[simp] theorem respond_seq : (respond c s).regs.seq = s.regs.seq + 1 := rfl
@[simp] theorem respond_wbits : (respond c s).regs.wbits = s.regs.wbits := rfl
@[simp] theorem respond_hbits : (respond c s).regs.hbits = s.regs.hbits := rfl
@[simp] theorem respond_level : (respond c s).regs.level = s.regs.level := rfl
@[simp] theorem respond_triggerLevel : (respond c s).regs.triggerLevel = s.regs.triggerLevel := rfl
@[simp] theorem respond_earlyLevel : (respond c s).regs.earlyLevel = s.regs.earlyLevel := rfl
@[simp] theorem respond_maxChain : (respond c s).regs.maxChain = s.regs.maxChain := rfl
@[simp] theorem respond_goodMatch : (respond c s).regs.goodMatch = s.regs.goodMatch := rfl
@[simp] theorem respond_niceMatch : (respond c s).regs.niceMatch = s.regs.niceMatch := rfl
@[simp] theorem respond_minMatch : (respond c s).regs.minMatch = s.regs.minMatch := rfl
@[simp] theorem respond_strstart : (respond c s).regs.strstart = s.regs.strstart := rfl
@[simp] theorem respond_lookahead : (respond c s).regs.lookahead = s.regs.lookahead := rfl
@[simp] theorem respond_prevLength : (respond c s).regs.prevLength = s.regs.prevLength := rfl
@[simp] theorem respond_matchStart : (respond c s).regs.matchStart = s.regs.matchStart := rfl
@[simp] theorem respond_out : (respond c s).regs.out = s.regs.out := rfl
@[simp] theorem respond_outEnd : (respond c s).regs.outEnd = s.regs.outEnd := rfl

end respond

section takeSignal
variable (s : State) (c : Signal)

@[simp] theorem takeSignal_cfg : (takeSignal c s).cfg = s.cfg := rfl
@[simp] theorem takeSignal_win : (takeSignal c s).win = s.win := rfl
@[simp] theorem takeSignal_head : (takeSignal c s).head = s.head := rfl
@[simp] theorem takeSignal_prev : (takeSignal c s).prev = s.prev := rfl
@[simp] theorem takeSignal_response : (takeSignal c s).response = some (.signal c) := rfl
@[simp] theorem takeSignal_draws : (takeSignal c s).draws = s.draws := rfl
@[simp] theorem takeSignal_port : (takeSignal c s).port = s.port := rfl
@[simp] theorem takeSignal_status : (takeSignal c s).regs.status = s.regs.status := rfl
@[simp] theorem takeSignal_result : (takeSignal c s).regs.result = s.regs.result := rfl
@[simp] theorem takeSignal_seq : (takeSignal c s).regs.seq = s.regs.seq + 1 := rfl
@[simp] theorem takeSignal_wbits : (takeSignal c s).regs.wbits = s.regs.wbits := rfl
@[simp] theorem takeSignal_hbits : (takeSignal c s).regs.hbits = s.regs.hbits := rfl
@[simp] theorem takeSignal_level : (takeSignal c s).regs.level = s.regs.level := rfl
@[simp] theorem takeSignal_triggerLevel : (takeSignal c s).regs.triggerLevel = s.regs.triggerLevel := rfl
@[simp] theorem takeSignal_earlyLevel : (takeSignal c s).regs.earlyLevel = s.regs.earlyLevel := rfl
@[simp] theorem takeSignal_maxChain : (takeSignal c s).regs.maxChain = s.regs.maxChain := rfl
@[simp] theorem takeSignal_goodMatch : (takeSignal c s).regs.goodMatch = s.regs.goodMatch := rfl
@[simp] theorem takeSignal_niceMatch : (takeSignal c s).regs.niceMatch = s.regs.niceMatch := rfl
@[simp] theorem takeSignal_minMatch : (takeSignal c s).regs.minMatch = s.regs.minMatch := rfl
@[simp] theorem takeSignal_strstart : (takeSignal c s).regs.strstart = s.regs.strstart := rfl
@[simp] theorem takeSignal_lookahead : (takeSignal c s).regs.lookahead = s.regs.lookahead := rfl
@[simp] theorem takeSignal_prevLength : (takeSignal c s).regs.prevLength = s.regs.prevLength := rfl
@[simp] theorem takeSignal_matchStart : (takeSignal c s).regs.matchStart = s.regs.matchStart := rfl
@[simp] theorem takeSignal_out : (takeSignal c s).regs.out = s.regs.out := rfl
@[simp] theorem takeSignal_outEnd : (takeSignal c s).regs.outEnd = s.regs.outEnd := rfl

end takeSignal

section takeFault
variable (s : State) (c : FaultCode)

@[simp] theorem takeFault_cfg : (takeFault c s).cfg = s.cfg := rfl
@[simp] theorem takeFault_win : (takeFault c s).win = s.win := rfl
@[simp] theorem takeFault_head : (takeFault c s).head = s.head := rfl
@[simp] theorem takeFault_prev : (takeFault c s).prev = s.prev := rfl
@[simp] theorem takeFault_response : (takeFault c s).response = some (.fault c) := rfl
@[simp] theorem takeFault_draws : (takeFault c s).draws = s.draws := rfl
@[simp] theorem takeFault_port : (takeFault c s).port = s.port := rfl
@[simp] theorem takeFault_status : (takeFault c s).regs.status = Status.recordFault c s.regs.status := rfl
@[simp] theorem takeFault_result : (takeFault c s).regs.result = s.regs.result := rfl
@[simp] theorem takeFault_seq : (takeFault c s).regs.seq = s.regs.seq + 1 := rfl
@[simp] theorem takeFault_wbits : (takeFault c s).regs.wbits = s.regs.wbits := rfl
@[simp] theorem takeFault_hbits : (takeFault c s).regs.hbits = s.regs.hbits := rfl
@[simp] theorem takeFault_level : (takeFault c s).regs.level = s.regs.level := rfl
@[simp] theorem takeFault_triggerLevel : (takeFault c s).regs.triggerLevel = s.regs.triggerLevel := rfl
@[simp] theorem takeFault_earlyLevel : (takeFault c s).regs.earlyLevel = s.regs.earlyLevel := rfl
@[simp] theorem takeFault_maxChain : (takeFault c s).regs.maxChain = s.regs.maxChain := rfl
@[simp] theorem takeFault_goodMatch : (takeFault c s).regs.goodMatch = s.regs.goodMatch := rfl
@[simp] theorem takeFault_niceMatch : (takeFault c s).regs.niceMatch = s.regs.niceMatch := rfl
@[simp] theorem takeFault_minMatch : (takeFault c s).regs.minMatch = s.regs.minMatch := rfl
@[simp] theorem takeFault_strstart : (takeFault c s).regs.strstart = s.regs.strstart := rfl
@[simp] theorem takeFault_lookahead : (takeFault c s).regs.lookahead = s.regs.lookahead := rfl
@[simp] theorem takeFault_prevLength : (takeFault c s).regs.prevLength = s.regs.prevLength := rfl
@[simp] theorem takeFault_matchStart : (takeFault c s).regs.matchStart = s.regs.matchStart := rfl
@[simp] theorem takeFault_out : (takeFault c s).regs.out = s.regs.out := rfl
@[simp] theorem takeFault_outEnd : (takeFault c s).regs.outEnd = s.regs.outEnd := rfl

end takeFault

section present
variable (s : State) (w : CommandWord)

@[simp] theorem present_cfg : (s.present w).cfg = s.cfg := rfl
@[simp] theorem present_win : (s.present w).win = s.win := rfl
@[simp] theorem present_head : (s.present w).head = s.head := rfl
@[simp] theorem present_prev : (s.present w).prev = s.prev := rfl
@[simp] theorem present_response : (s.present w).response = s.response := rfl
@[simp] theorem present_draws : (s.present w).draws = s.draws := rfl
@[simp] theorem present_port : (s.present w).port = .command w :: s.port := rfl
@[simp] theorem present_regs : (s.present w).regs = s.regs := rfl

end present

section writeReg
variable (s : State) (r : Reg) (v : Word)

@[simp] theorem writeReg_cfg : (s.writeReg r v).cfg = s.cfg := by cases r <;> rfl
@[simp] theorem writeReg_win : (s.writeReg r v).win = s.win := by cases r <;> rfl
@[simp] theorem writeReg_head : (s.writeReg r v).head = s.head := by cases r <;> rfl
@[simp] theorem writeReg_prev : (s.writeReg r v).prev = s.prev := by cases r <;> rfl
@[simp] theorem writeReg_response : (s.writeReg r v).response = s.response := by cases r <;> rfl
@[simp] theorem writeReg_draws : (s.writeReg r v).draws = s.draws := by cases r <;> rfl
@[simp] theorem writeReg_port : (s.writeReg r v).port = s.port := by cases r <;> rfl

/-- A writable register reads back the value written. -/
theorem readReg_writeReg_same (h : r.readOnly = false) : (s.writeReg r v).readReg r = v := by
  cases r <;> first | rfl | simp [Reg.readOnly] at h

/-- Every other register is as it was. -/
theorem readReg_writeReg_other {q : Reg} (h : q ≠ r) : (s.writeReg r v).readReg q = s.readReg q := by
  cases r <;> cases q <;> first | rfl | exact absurd rfl h

/-- A read-only register is not written this way. -/
theorem writeReg_readOnly (h : r.readOnly = true) : s.writeReg r v = s := by
  cases r <;> first | rfl | simp [Reg.readOnly] at h

end writeReg

section resetRegisters
variable (s : State)

@[simp] theorem resetRegisters_cfg : s.resetRegisters.cfg = s.cfg := rfl
@[simp] theorem resetRegisters_win : s.resetRegisters.win = s.win := rfl
@[simp] theorem resetRegisters_head : s.resetRegisters.head = s.head := rfl
@[simp] theorem resetRegisters_prev : s.resetRegisters.prev = s.prev := rfl
@[simp] theorem resetRegisters_response : s.resetRegisters.response = s.response := rfl
@[simp] theorem resetRegisters_draws : s.resetRegisters.draws = s.draws := rfl
@[simp] theorem resetRegisters_port : s.resetRegisters.port = s.port := rfl
@[simp] theorem resetRegisters_regs : s.resetRegisters.regs = Regs.reset s.cfg := rfl

end resetRegisters

section hardwareReset
variable (s : State) (image : Image)

@[simp] theorem hardwareReset_cfg : (hardwareReset image s).cfg = s.cfg := rfl
@[simp] theorem hardwareReset_regs : (hardwareReset image s).regs = Regs.reset s.cfg := rfl
@[simp] theorem hardwareReset_response : (hardwareReset image s).response = none := rfl
@[simp] theorem hardwareReset_port : (hardwareReset image s).port = s.port := rfl
@[simp] theorem hardwareReset_draws : (hardwareReset image s).draws = s.draws := rfl

end hardwareReset

/-! ## The register map -/

theorem ofNumber_number (r : Reg) : Reg.ofNumber r.number = some r := by cases r <;> decide

theorem number_of_ofNumber {n : Field24} {r : Reg} (h : Reg.ofNumber n = some r) : r.number = n := by
  have := List.find?_some h
  simpa using this

/-! ## Ending a command -/

@[simp] theorem finish_done (s t : State) : finish s (.done t) = respond .ok t := rfl
@[simp] theorem finish_signal (s : State) (c : Signal) : finish s (.signal c) = takeSignal c s := rfl
@[simp] theorem finish_fault (s : State) (c : FaultCode) : finish s (.fault c) = takeFault c s := rfl

/-- What an exec arm answers, said once: the RESET command's state, or the ending of some completion. -/
theorem exec_eq (i : Instr) (s : State) :
    exec i s = .next (if i = .reset then { s.resetRegisters with response := some .ok } else
      match i with
      | .nop => finish s (.done s)
      | .setr reg value => finish s (setrBody reg value s)
      | .getr reg => finish s (getrBody reg s)
      | .stb addr byte => finish s (stbBody addr byte s)
      | .ldb addr => finish s (ldbBody addr s)
      | .ldh index => finish s (ldhBody index s)
      | .ldp index => finish s (ldpBody index s)
      | .clear => finish s (.done { s with head := Table.cleared, prev := Table.cleared })
      | .slide => finish s (.done { s with
          head := Table.rebase s.wsize s.hmask s.head, prev := Table.rebase s.wsize s.wmask s.prev })
      | .insert str => finish s (insertBody str.toNat 1 s)
      | .insertn str count => finish s (insertBody str.toNat count.toNat s)
      | .lmatch cur => finish s (lmatchBody cur.toNat s)
      | .cmp258 a b => finish s (cmp258Body a.toNat b.toNat s)
      | .copy len dist => finish s (copyBody len.toNat dist.toNat s)
      | .copys len dist => finish s (copysBody len.toNat dist.toNat s)
      | .reset => s) := by
  cases i <;> rfl

/-! ## The step -/

theorem step_idle {s : State} (h : s.port = []) : step s = .next s := by simp [step, nextEvent, h]

theorem step_command {s : State} {w : CommandWord} {rest : List HostEvent} {i : Instr} (h : s.port = .command w :: rest)
    (hd : decode w = .ok i) : step s = exec i { s with port := rest } := by simp [step, nextEvent, h, hd]

theorem step_illegal {s : State} {w : CommandWord} {rest : List HostEvent} {e : DecodeError}
    (h : s.port = .command w :: rest) (hd : decode w = .error e) :
    step s = .next (takeFault .errOpcode { s with port := rest }) := by simp [step, nextEvent, h, hd, illegalWord]

theorem step_hardwareReset {s : State} {image : Image} {rest : List HostEvent}
    (h : s.port = .hardwareReset image :: rest) : step s = .next (hardwareReset image { s with port := rest }) := by
  simp [step, nextEvent, h]

end Sys2Proof.Machine
end

