-- ==== Sys2Proof/Tests/Slice0.lean ====
section
/-! SUPPORT. Tests: expected values come from 95_test_vectors.md and the worked examples of spec/ (each comment names its
source), with `HASHFN_REF` where a hash index is named; and for every obligation with hypotheses a witness that meets
them. -/
open Sys2Proof Sys2Proof.Machine
namespace Sys2Proof.Tests

/-! ## Helpers -/

/-- What `f` says of the next state, if there is one. -/
def of {α : Type} (o : Host.Outcome State Fault Refusal) (f : State → α) : Option α :=
  match o with
  | .next t => some (f t)
  | _ => none

/-- The response as the spec writes it: `CODE, RESULT`. -/
def answer (o : Host.Outcome State Fault Refusal) : Option (Option Code × Word) := of o (fun t => (t.response, t.regs.result))

/-- The default implementation with the reference hash, which the spec's vectors use. -/
def vectorConfig : Config := { Config.default with hash := .reference }

/-- A launch of it. -/
def launch : State := { State.reset with cfg := vectorConfig, regs := Regs.reset vectorConfig }

/-- Bytes at consecutive addresses. -/
def bytesAt : Nat → List Byte → Memory
  | _, [] => []
  | a, b :: bs => (a, b) :: bytesAt (a + 1) bs

/-- `"#abcdeQabcxyQabcdeZ"` (95_test_vectors.md 2.3). -/
def scenarioWindow : Window :=
  { cells := bytesAt 0 [35, 97, 98, 99, 100, 101, 81, 97, 98, 99, 120, 121, 81, 97, 98, 99, 100, 101, 90], free := [] }

/-- Scenario A of 95_test_vectors.md 2.3, after CLEAR. -/
def scenarioA : State :=
  { launch with
    win := scenarioWindow
    regs := { Regs.reset vectorConfig with
      level := 6, triggerLevel := 5, earlyLevel := 5, maxChain := 128, goodMatch := 8, niceMatch := 128, strstart := 13,
      lookahead := 6, prevLength := 2 } }

/-- The tables V-I1 leaves. -/
def headAfterRun : Table :=
  [(0x0A2A, 10), (0x1AD1, 7), (0x2F1D, 11), (0x59A6, 12), (0x5B1D, 5), (0x7CFC, 2), (0xB456, 4), (0xB67C, 9), (0xD27D, 8),
   (0xDF26, 3)]
def prevAfterRun : Table := [(7, 1), (12, 6)]

/-- The state A* of 95_test_vectors.md 2.3 (`RESULT` is 7). -/
def stateA : State :=
  { scenarioA with
    head := [(0x0A2A, 10), (0x1AD1, 13), (0x2F1D, 11), (0x59A6, 12), (0x5B1D, 5), (0x7CFC, 2), (0xB456, 4), (0xB67C, 9),
      (0xD27D, 8), (0xDF26, 3)]
    prev := [(7, 1), (12, 6), (13, 7)]
    regs := { scenarioA.regs with result := 7 } }

/-- `"ab"` just below `OUT` (95_test_vectors.md 2.7). -/
def copyState (out outEnd : Word) : State :=
  { launch with
    win := { cells := bytesAt (out.toNat - 2) [97, 98], free := [] }
    regs := { Regs.reset vectorConfig with out := out, outEnd := outEnd } }

/-- `n` window bytes from `a`. -/
def windowBytes (t : State) (a n : Nat) : List Byte := (List.range n).map (fun i => t.win.read (a + i))

/-! ## WellFormed: an ill-formed command for each check (30_encoding.md R84, R85) -/

theorem test_illformed_opcode : (Command.mk 0x07 0 0).opcodeAssigned = false ∧ (Command.mk 0x07 0 0).wellFormed = false := by decide
theorem test_illformed_no_operands : (Command.mk 0x00 0 1).noOperandsZero = false ∧ (Command.mk 0x7F 1 0).wellFormed = false := by decide
theorem test_illformed_getr : (Command.mk 0x02 1 1).getrAZero = false ∧ (Command.mk 0x02 1 1).wellFormed = false := by decide
theorem test_illformed_one_operand : (Command.mk 0x12 1 0).oneOperandBZero = false ∧ (Command.mk 0x12 1 0).wellFormed = false := by decide
theorem test_illformed_stb : (Command.mk 0x03 0x100 0).stbHighZero = false ∧ (Command.mk 0x03 0x100 0).wellFormed = false := by decide
theorem test_wellformed_stb : (Command.mk 0x03 0xFF 0).wellFormed = true := by decide

/-! ## Decoding: one word per constructor, from 95_test_vectors.md 2.1 (V-E1 to V-E22) -/

theorem test_decode_nop : decode 0x0000000000000000#64 = .ok .nop := by decide
theorem test_decode_setr : decode 0x010000080000000F#64 = .ok (.setr 0x08 15) := by decide
theorem test_decode_getr : decode 0x0200001B00000000#64 = .ok (.getr 0x1B) := by decide
theorem test_decode_stb : decode 0x0300006100000100#64 = .ok (.stb 256 97) := by decide
theorem test_decode_ldb : decode 0x0400000000000008#64 = .ok (.ldb 8) := by decide
theorem test_decode_ldh : decode 0x0500000000001AD1#64 = .ok (.ldh 0x1AD1) := by decide
theorem test_decode_ldp : decode 0x0600000000000007#64 = .ok (.ldp 7) := by decide
theorem test_decode_clear : decode 0x1000000000000000#64 = .ok .clear := by decide
theorem test_decode_slide : decode 0x1100000000000000#64 = .ok .slide := by decide
theorem test_decode_insert : decode 0x120000000000000D#64 = .ok (.insert 13) := by decide
theorem test_decode_insertn : decode 0x1300000C00000001#64 = .ok (.insertn 1 12) := by decide
theorem test_decode_query : decode 0x130000000000000D#64 = .ok (pseudoQuery 13) := by decide
theorem test_decode_lmatch : decode 0x2000000000000007#64 = .ok (.lmatch 7) := by decide
theorem test_decode_cmp258 : decode 0x210003E800000000#64 = .ok (.cmp258 0 1000) := by decide
theorem test_decode_copy : decode 0x3000000200000007#64 = .ok (.copy 7 2) := by decide
theorem test_decode_copys : decode 0x310000010000000A#64 = .ok (.copys 10 1) := by decide
theorem test_decode_reset : decode 0x7F00000000000000#64 = .ok .reset := by decide
theorem test_reject_unassigned : decode 0x0700000000000000#64 = .error (.unassignedOpcode 0x07) ∧
    decode 0xFF00000000000000#64 = .error (.unassignedOpcode 0xFF) := by decide
theorem test_reject_reserved : decode 0x0000000000000001#64 = .error (.reservedField 0x00) ∧
    decode 0x0300010000000000#64 = .error (.reservedField 0x03) ∧
    decode 0x1200000100000000#64 = .error (.reservedField 0x12) := by decide

/-- 30_encoding.md R91. -/
theorem test_encode : encode (.setr 0x08 15) = 0x010000080000000F#64 ∧ encode (.stb 256 97) = 0x0300006100000100#64 ∧
    encode (.cmp258 0 1000) = 0x210003E800000000#64 ∧ encode (.copys 7 2) = 0x3100000200000007#64 := by decide

/-- 95_test_vectors.md, P1 steps 9 and 10, and P2 steps 3 and 4: the pseudo-instructions STS and LIT. -/
theorem test_pseudo : (pseudoSts 0 [35, 97]).map encode = [0x0300002300000000#64, 0x0300006100000001#64] ∧
    (pseudoLit 256 97).map encode = [0x0300006100000100#64, 0x0100002000000101#64] := by decide

/-- 30_encoding.md R89: the written form. -/
theorem test_assembly : assembly (.setr 0x08 15) = "SETR WBITS, 15" ∧ assembly (.copy 7 2) = "COPY 7, 2" := by decide

/-- The table's numbering of bits is the word's own; the step runs the word that is presented. -/
theorem test_table_word : decodeTableWord 64 0x1300000C00000001 = some (.insertn 1 12) ∧ decodeTableWord 64 0x0700000000000000 = none := by decide

/-! ## One step each -/

/-- 40_host_access.md R101: only `SEQ` changes. -/
theorem test_nop : of (exec .nop stateA) (fun t => (t.response, t.regs.seq)) = some (some .ok, 1) := by decide
/-- 40_host_access.md R102, example. -/
theorem test_setr_illegal : of (exec (.setr 0x10 5) stateA) (fun t => (t.response, t.regs.minMatch, t.regs.status)) =
    some (some (.fault .errValue), 3, 0xA1) := by decide
/-- V-X4, and P3's `SETR WBITS, 3`. -/
theorem test_setr : answer (exec (.setr 0x01 0) launch) = some (some (.fault .errReg), 0) ∧
    of (exec (.setr 0x08 3) launch) (fun t => (t.regs.wbits, t.regs.hbits)) = some (3, 16) := by decide
/-- V-X1. -/
theorem test_getr : answer (exec (.getr 0x00) launch) = some (some .ok, 0x4C5A4D46) ∧
    answer (exec (.getr 0x05) launch) = some (some .ok, 65794) := by decide
/-- V-X4. -/
theorem test_getr_unassigned : answer (exec (.getr 0x22) launch) = some (some (.fault .errReg), 0) := by decide
/-- V-X2. -/
theorem test_stb : of (exec (.stb 256 97) stateA) (fun t => (t.response, t.regs.result, t.win.read 256, t.win.read 255)) =
    some (some .ok, 7, 97, 0) := by decide
/-- 40_host_access.md R104: the last byte of `WIN`, and one past it. -/
theorem test_stb_bounds : of (exec (.stb 65793 1) launch) (fun t => t.win.read 65793) = some 1 ∧
    answer (exec (.stb 65794 1) launch) = some (some (.fault .errAddr), 0) := by decide
/-- 95_test_vectors.md P3, command 35 (`LDB 8`); P4, command 8. -/
theorem test_ldb : answer (exec (.ldb 8) stateA) = some (some .ok, 98) ∧
    answer (exec (.ldb 65794) stateA) = some (some (.fault .errAddr), 7) := by decide
/-- V-I2, V-X5. -/
theorem test_ldh : answer (exec (.ldh 0x1AD1) stateA) = some (some .ok, 13) ∧
    answer (exec (.ldh 65536) launch) = some (some (.fault .errAddr), 0) := by decide
/-- V-I2, V-X5. -/
theorem test_ldp : answer (exec (.ldp 13) stateA) = some (some .ok, 7) ∧
    answer (exec (.ldp 32768) launch) = some (some (.fault .errAddr), 0) := by decide
/-- 41_hash_index.md R124. -/
theorem test_clear : of (exec .clear stateA) (fun t => (t.head, t.prev, t.regs.result)) = some ([], [], 7) := by decide
/-- 41_hash_index.md R125, example: with `WBITS = 3` an entry 13 becomes 5, an entry 8 becomes 0, an entry 7 becomes 0. -/
theorem test_slide : of (exec .slide { stateA with regs := { stateA.regs with wbits := 3 } })
    (fun t => (t.head, Memory.read t.prev 7, Memory.read t.prev 13)) =
    some ([(0x0A2A, 2), (0x1AD1, 5), (0x2F1D, 3), (0x59A6, 4), (0xB67C, 1)], 0, 7) := by decide
/-- V-I2. -/
theorem test_insert : of (exec (.insert 13) { scenarioA with head := headAfterRun, prev := prevAfterRun })
    (fun t => (t.regs.result, t.head, t.prev)) = some (7, stateA.head, stateA.prev) := by decide
/-- V-I4, V-I8, V-I9. -/
theorem test_insert_refused : of (exec (.insert 13) stateA) (fun t => (t.response, t.regs.status, t.regs.result)) =
      some (some (.fault .errOrder), 0xD1, 7) ∧
    of (exec (.insert 17) stateA) (fun t => (t.response, t.regs.status)) = some (some (.signal .needInput), 0) ∧
    answer (exec (.insert 65791) stateA) = some (some (.fault .errAddr), 7) := by decide
/-- V-I1. -/
theorem test_insertn : of (exec (.insertn 1 12) scenarioA) (fun t => (t.regs.result, t.head, t.prev)) =
    some (6, headAfterRun, prevAfterRun) := by decide
/-- V-I3, V-I6: the whole INSERTN is undone. -/
theorem test_insertn_corners : answer (exec (.insertn 7 0) stateA) = some (some .ok, 1) ∧
    of (exec (.insertn 14 2) { stateA with head := Memory.write stateA.head 0xDF26 15, prev := Memory.write stateA.prev 15 3 })
      (fun t => (t.response, Memory.read t.head 0x7CFC, Memory.read t.prev 14)) =
      some (some (.fault .errOrder), 2, 0) := by decide
/-- V-M1: `STATUS` is `0x1100` (P1, command 35). -/
theorem test_lmatch : of (exec (.lmatch 7) stateA) (fun t => (t.response, t.regs.result, t.regs.matchStart, t.regs.status)) =
    some (some .ok, 5, 1, 0x1100) := by decide
/-- V-M5, V-M6, V-M10. -/
theorem test_lmatch_stops :
    of (exec (.lmatch 7) { stateA with regs := { stateA.regs with lookahead := 4 } })
      (fun t => (t.regs.result, t.regs.matchStart, t.regs.status)) = some (4, 1, 0x3100) ∧
    of (exec (.lmatch 7) { stateA with regs := { stateA.regs with level := 1, triggerLevel := 0, prevLength := 3 } })
      (fun t => (t.regs.result, t.regs.matchStart, t.regs.status)) = some (3, 0, 0x4000) ∧
    answer (exec (.lmatch 13) stateA) = some (some (.fault .errChain), 7) := by decide
/-- V-C1, V-C3 with `k = 7`, both ways. -/
theorem test_cmp258 : answer (exec (.cmp258 0 0) stateA) = some (some .ok, 258) ∧
    answer (exec (.cmp258 0 1000) { launch with win := { cells := [(1007, 1)], free := [] } }) = some (some .ok, 7) ∧
    answer (exec (.cmp258 1000 0) { launch with win := { cells := [(1007, 1)], free := [] } }) = some (some .ok, 7) := by decide +kernel
/-- V-C5, V-C4. -/
theorem test_cmp258_bounds : answer (exec (.cmp258 65537 0) launch) = some (some (.fault .errAddr), 0) ∧
    answer (exec (.cmp258 0 65537) launch) = some (some (.fault .errAddr), 0) ∧
    of (exec (.cmp258 65536 0) launch) (fun t => t.response) = some (some .ok) := by decide
/-- V-K2: `"ababababa"`, `OUT = 265`, and exactly `WIN[265..280]` unspecified. -/
theorem test_copy_chunked : of (exec (.copy 7 2) (copyState 258 306))
    (fun t => (t.regs.result, t.regs.out, windowBytes t 256 9, t.win.free.map (fun f => f.1))) =
    some (265, 265, [97, 98, 97, 98, 97, 98, 97, 98, 97],
      [265, 266, 267, 268, 269, 270, 271, 272, 273, 274, 275, 276, 277, 278, 279, 280]) := by decide
/-- V-K1, V-K7, V-K8, V-K11, V-K14. -/
theorem test_copy_corners :
    of (exec (.copy 7 2) (copyState 258 278)) (fun t => (t.regs.result, t.win.free, t.draws)) = some (265, [], 0) ∧
    of (exec (.copy 5 2) (copyState 258 262)) (fun t => (t.response, t.regs.out, t.regs.status)) =
      some (some (.signal .needOutput), 258, 0) ∧
    answer (exec (.copy 3 0) (copyState 258 300)) = some (some (.fault .errValue), 0) ∧
    answer (exec (.copy 50 2) (copyState 65734 65794)) = some (some (.fault .errAddr), 0) ∧
    answer (exec (.copy 1 1) launch) = some (some (.fault .errAddr), 0) := by decide
/-- V-K3. -/
theorem test_copys : of (exec (.copys 7 2) (copyState 258 306))
    (fun t => (t.regs.result, windowBytes t 256 10, t.win.free)) =
    some (265, [97, 98, 97, 98, 97, 98, 97, 98, 97, 0], []) := by decide
/-- V-K11, V-K12. -/
theorem test_copys_corners : answer (exec (.copys 50 2) (copyState 65734 65794)) = some (some .ok, 65784) ∧
    answer (exec (.copys 1 2) (copyState 300 200)) = some (some (.signal .needOutput), 0) ∧
    answer (exec (.copys 0 2) (copyState 300 200)) = some (some .ok, 300) := by decide
/-- P4, command 18; 40_host_access.md R108: the memories stay, `SEQ` is 0. -/
theorem test_reset : of (exec .reset { stateA with regs := { stateA.regs with status := 0x81, seq := 17 } })
    (fun t => (t.response, t.regs, t.head, t.win)) =
    some (some .ok, Regs.reset vectorConfig, stateA.head, stateA.win) := by decide

/-- P4, commands 2 and 4: the first fault is recorded, a later one is not. -/
theorem test_illegal_word :
    of (step (launch.withFetchWord 64 0x0700000000000000)) (fun t => (t.response, t.regs.status, t.regs.seq)) =
      some (some (.fault .errOpcode), 0x81, 1) ∧
    (takeFault .errValue { launch with regs := { launch.regs with status := 0x81 } }).regs.status = 0x81 := by decide
/-- 95_test_vectors.md P1, command 33, through the port. -/
theorem test_step : answer (step (stateA.withFetchWord 64 0x2000000000000007)) = some (some .ok, 5) := by decide
/-- 70_reset_and_hazards.md R220: a hardware reset with a chosen image. -/
theorem test_hardware_reset :
    of (step { stateA with port := [.hardwareReset { win := [(5, 1), (70000, 1)], head := [(1, 9)], prev := [] }] })
      (fun t => (t.regs, t.win, t.head)) =
    some (Regs.reset vectorConfig, { cells := [(5, 1)], free := [] }, [(1, 9)]) := by decide
/-- 30_encoding.md R88: the response of V-I4 as 36 bits. -/
theorem test_response_word : of (exec (.insert 13) stateA) (fun t => t.responseWord) = some (some 0xD00000007#36) := by decide

/-- V-H1 to V-H8. -/
theorem test_hash :
    hashReference 0x61626364 = 0xE87C ∧ hashReference 0x61626300 = 0x1AD1 ∧ hashReference 0x61626378 = 0x44D2 ∧
      hashReference 0 = 0 ∧ hashReference 0xFFFFFFFF = 0x61C8 ∧ hashReference 0xFFFFFF00 = 0xC886 ∧
      hashReference 0x61626364 &&& 0xFF = 0x7C := by decide
/-- Scenario B (4-byte hash) and scenario A at position 1. -/
theorem test_hash_index : stateA.hashIndex 1 = 0x1AD1 ∧
    State.hashIndex { stateA with regs := { stateA.regs with level := 5 } } 1 = 0xE87C := by decide
/-- 42_match_finder.md R153: the positions V-M1 examines, and its lengths. -/
theorem test_search : (stateA.search 7).map (fun r => (r.examined, r.best, r.stop)) = some ([7, 1], 5, .limit) ∧
    matchLen stateA.win 13 7 = 3 := by decide
/-- S6 at one point of each rule of the reference algorithm: `dist` 2 (broadcast), 3 (unrolling), 16 (one chunk). -/
theorem test_chunk_copy :
    ∀ dist ∈ [2, 3, 16], (List.range 20).map (fun i => (chunkCopy 16 32 dist 20 64 true scenarioWindow).read (32 + i)) =
      (List.range 20).map (fun i => scenarioWindow.read (32 - dist + i % dist)) := by decide

/-! ## Witnesses: concrete states and operands that meet the hypotheses of each obligation, clause by clause, at the
boundary values where a clause has a range. A statement without hypotheses has none. -/

/-- A state with one word presented. -/
def presenting (w : CommandWord) : State := stateA.present w

/-- A state with other register values than A*'s. -/
def stateB (f : Regs → Regs) : State := { stateA with regs := f stateA.regs }

theorem witness_DecodeAndEncodeAreInverse : decode 0x1300000C00000001#64 = .ok (.insertn 1 12) := by decide

theorem witness_DecodedWordFitsItsTableRowOnly : decode 0x1300000C00000001#64 = .ok (.insertn 1 12) ∧
    decode 0x0700000000000000#64 = .error (.unassignedOpcode 0x07) ∧
    (⟨"NOP", 0x0000000000000000#64, 0xFFFFFFFFFFFFFFFF#64⟩ : OpcodeRow) ∈ opcodeTable := by decide

theorem witness_NonzeroReservedFieldRaisesErrOpcode :
    (∀ c ∈ [(⟨0x7F, 0, 1⟩ : Command), ⟨0x00, 1, 0⟩, ⟨0x02, 0, 1⟩, ⟨0x20, 1, 0⟩, ⟨0x04, 0xFFFFFF, 0⟩, ⟨0x03, 0x100, 0⟩],
      (presenting c.word).port = .command (Command.word ⟨c.opc, c.b, c.a⟩) :: [] ∧
      ((c.opc ∈ [0x00#8, 0x10#8, 0x11#8, 0x7F#8] ∧ (c.a ≠ 0 ∨ c.b ≠ 0)) ∨ (c.opc = 0x02#8 ∧ c.a ≠ 0) ∨
        (c.opc ∈ [0x04#8, 0x05#8, 0x06#8, 0x12#8, 0x20#8] ∧ c.b ≠ 0) ∨ (c.opc = 0x03#8 ∧ 0xFF < c.b.toNat))) := by decide

theorem witness_UnassignedOpcodeRaisesErrOpcode :
    ∀ o ∈ [0x07#8, 0x0F#8, 0x14#8, 0x1F#8, 0x22#8, 0x2F#8, 0x32#8, 0x7E#8, 0x80#8, 0xFF#8],
      (presenting (Command.word ⟨o, 0, 0⟩)).port = .command (Command.word ⟨o, 0, 0⟩) :: [] ∧
      ((0x07 ≤ o.toNat ∧ o.toNat ≤ 0x0F) ∨ (0x14 ≤ o.toNat ∧ o.toNat ≤ 0x1F) ∨ (0x22 ≤ o.toNat ∧ o.toNat ≤ 0x2F) ∨
        (0x32 ≤ o.toNat ∧ o.toNat ≤ 0x7E) ∨ 0x80 ≤ o.toNat) := by decide

theorem witness_StepRunsTheDecodedCommand :
    (presenting 0x2000000000000007#64).port = .command 0x2000000000000007#64 :: [] ∧
      decode 0x2000000000000007#64 = .ok (.lmatch 7) := by decide

theorem witness_IdleStepHoldsTheState : State.reset.port = [] := by decide

theorem witness_HardwareResetLaunchesWithAnyContents :
    let image : Image := { win := [(0, 1), (65793, 2)], head := [(65535, 9)], prev := [(32767, 7)] }
    let s : State := { stateA with port := [.hardwareReset image] }
    s.cfg.Legal ∧ s.port = .hardwareReset image :: [] ∧ Memory.wf image.win ∧ Memory.within s.cfg.winBytes image.win ∧
      Memory.wf image.head ∧ Memory.within (2 ^ s.cfg.hbitsMax) image.head ∧ Memory.wf image.prev ∧
      Memory.within (2 ^ s.cfg.wbitsMax) image.prev := by decide

/-- A launch whose memories hold something, of an implementation at the edges of 00_scope.md R6. -/
theorem witness_Launch :
    let c : Config := { wbitsMax := 1, hbitsMax := 24, chunk := 32, winBytes := 262, idValue := 0, hash := .reference }
    State.Launch { State.reset with cfg := c, regs := Regs.reset c, head := [(5, 77)] } := by
  refine ⟨?_, rfl, ?_, rfl⟩ <;> decide

/-- The invariant holds of a state that is no launch, and a step leads on from it. -/
theorem witness_EveryStepKeepsTheInvariant : (presenting 0x1200000000000010#64).Inv ∧
    answer (step (presenting 0x1200000000000010#64)) = some (some .ok, 0) := by decide

theorem witness_ParameterRegistersNeverChange : stateA.cfg.Legal ∧
    of (step (presenting 0x0000000000000000#64)) (fun t => t.cfg) = some stateA.cfg := by decide

theorem witness_SeqCountsEveryCommand : of (exec .nop stateA) (fun t => t.regs.seq) = some 1 ∧
    of (exec .reset stateA) (fun t => t.regs.seq) = some 0 ∧
    (presenting 0x0700000000000000#64).port = .command 0x0700000000000000#64 :: [] ∧
    decode 0x0700000000000000#64 = .error (.unassignedOpcode 0x07) := by decide

theorem witness_ResultChangesOnlyByItsProducers :
    of (exec (.lmatch 7) stateA) (fun t => t.regs.result) = some 5 ∧ stateA.regs.result = 7 := by decide

theorem witness_FaultsArePreciseAndSticky :
    of (exec (.insert 13) stateA) (fun t => t.response) = some (some (.fault .errOrder)) ∧
    Status.fault (stateB (fun r => { r with status := 0x81 })).regs.status = true ∧ Instr.insert 13 ≠ .reset ∧
    (presenting 0x0700000000000000#64).port = .command 0x0700000000000000#64 :: [] ∧
    decode 0x0700000000000000#64 = .error (.unassignedOpcode 0x07) ∧ Instr.lmatch 7 ≠ .getr 0x01 := by decide

/-- V-I8 and V-K8; and 60_exceptions.md R193's host loop: with four more bytes the same INSERT completes. -/
theorem witness_SignalsArePrecise :
    of (exec (.insert 17) stateA) (fun t => t.response) = some (some (.signal .needInput)) ∧
    of (exec (.insert 17) (stateB (fun r => { r with lookahead := 10, seq := 1 }))) (fun t => t.response) = some (some .ok) ∧
    of (exec (.copy 5 2) (copyState 258 262)) (fun t => t.response) = some (some (.signal .needOutput)) := by decide

theorem witness_EveryCommandReturnsOneResponse :
    of (exec (.insert 17) stateA) (fun t => t.response) = some (some (.signal .needInput)) ∧
    of (exec .clear stateA) (fun t => t.response) = some (some .ok) ∧
    (presenting 0x0700000000000000#64).port = .command 0x0700000000000000#64 :: [] ∧
    decode 0x0700000000000000#64 = .error (.unassignedOpcode 0x07) := by decide

/-- Both cases of the statement: an LMATCH that ends with a fault, and another command that ends with `OK`. -/
theorem witness_SearchFlagsAreWrittenByLmatchOnly :
    of (exec (.lmatch 13) stateA) (fun t => t.response) = some (some (.fault .errChain)) ∧
    of (exec .nop stateA) (fun t => t.response) = some (some .ok) := by decide

theorem witness_CommandsEndOnlyWithTheCodesOfTheirRow :
    of (exec (.copys 1 1) launch) (fun t => t.response) = some (some (.fault .errAddr)) := by decide

/-- What each `RejectedWord` asks of the port. -/
theorem witness_RejectedWord :
    (presenting (Command.word ⟨0x00, 1, 0⟩)).port = .command (Command.word ⟨0x00, 1, 0⟩) :: [] := by decide

/-- Unassigned, read-only, the illegal values next to the legal ones, and the legal ones. -/
theorem witness_SetrWritesOneRegisterOrFaults : (∀ r ∈ Reg.all, Reg.number r ≠ 0x06) ∧ Reg.number .winbytes = 0x05 ∧
    ¬ (1 ≤ (0 : Word).toNat ∧ (0 : Word).toNat ≤ launch.cfg.wbitsMax) ∧ ¬ (16 : Word).toNat ≤ launch.cfg.wbitsMax ∧
    1 ≤ (1 : Word).toNat ∧ (15 : Word).toNat ≤ launch.cfg.wbitsMax ∧ ¬ (17 : Word).toNat ≤ launch.cfg.hbitsMax ∧
    (16 : Word).toNat ≤ launch.cfg.hbitsMax ∧ ¬ ((2 : Word) = 3 ∨ (2 : Word) = 4) ∧ ¬ ((5 : Word) = 3 ∨ (5 : Word) = 4) ∧
    Reg.outEnd ∉ [Reg.id, .status, .result, .seq, .chunk, .winbytes] := by decide

/-- Every number of the map reads; its neighbours do not. -/
theorem witness_GetrReadsTheNumberedRegister : (0x21, stateA.regs.outEnd) ∈ registerReadings stateA ∧
    (registerReadings stateA).all (fun p => !([(0x06 : Field24), 0x07, 0x11, 0x17, 0x1C, 0x1F, 0x22, 0xFFFFFF].contains p.1)) = true := by decide

/-- The last byte of `WIN` and the first address outside it, with a byte that a fast COPY left unspecified. -/
theorem witness_StbStoresOneByte :
    let s : State := { launch with win := { cells := [], free := [(65793, 4)] } }
    s.win.wf ∧ (65793 : Word).toNat < s.cfg.winBytes ∧ s.cfg.winBytes ≤ (65794 : Word).toNat ∧ 0xFF < (0x100 : Field24).toNat := by decide

theorem witness_LdbLoadsOneByte : (65793 : Word).toNat < launch.cfg.winBytes ∧ launch.cfg.winBytes ≤ (65794 : Word).toNat := by decide
theorem witness_LdhLoadsAHeadEntry : (65535 : Word).toNat < 2 ^ launch.cfg.hbitsMax ∧ 2 ^ launch.cfg.hbitsMax ≤ (65536 : Word).toNat := by decide
theorem witness_LdpLoadsAPrevEntry : (32767 : Word).toNat < 2 ^ launch.cfg.wbitsMax ∧ 2 ^ launch.cfg.wbitsMax ≤ (32768 : Word).toNat := by decide
theorem witness_ResetCommandResetsTheRegistersOnly : stateA.cfg.Legal ∧ Instr.clear ≠ .reset ∧
    Status.fault (stateB (fun r => { r with status := 0x81 })).regs.status = true := by decide

/-- Levels 5 and 6 at trigger level 5; positions 1 and 7 agree in three bytes and not in four. -/
theorem witness_HashOperandIsTheFirstBytesMostSignificantFirst :
    (stateB (fun r => { r with level := 5 })).regs.level.toNat ≤ stateA.regs.triggerLevel.toNat ∧
    stateA.regs.triggerLevel.toNat < stateA.regs.level.toNat ∧
    stateA.win.read 7 = stateA.win.read 1 ∧ stateA.win.read 8 = stateA.win.read 2 ∧ stateA.win.read 9 = stateA.win.read 3 ∧
    stateA.win.read 10 ≠ stateA.win.read 4 := by decide

/-- Two states that differ in everything else; positions 1 and 13 hold the same four bytes. -/
theorem witness_HashIndexDependsOnItsInputsOnly :
    let s' := stateB (fun r => { r with wbits := 3, minMatch := 4, seq := 9 })
    stateA.cfg.hash = s'.cfg.hash ∧ stateA.regs.level = s'.regs.level ∧ stateA.regs.triggerLevel = s'.regs.triggerLevel ∧
      stateA.regs.hbits = s'.regs.hbits ∧ ∀ i < 4, stateA.win.read (1 + i) = s'.win.read (13 + i) := by decide

/-- A position at `wsize` exactly and one above it, with a link below it. -/
theorem witness_SlideRebasesTheTables :
    let s := stateB (fun r => { r with wbits := 3 })
    keysRise s.head ∧ keysRise s.prev ∧ s.wsize ≤ 8 ∧ s.wsize ≤ 15 ∧ (Memory.read s.prev (s.prevIndex 15)).toNat < 15 := by decide

/-- The last address that fits, the last position with enough valid bytes, an empty bucket, a lower one and a higher one. -/
theorem witness_InsertFilesOnePosition :
    stateA.cfg.winBytes < (65791 : Word).toNat + 4 ∧ (65790 : Word).toNat + 4 ≤ stateA.cfg.winBytes ∧
    stateA.regs.strstart.toNat + stateA.regs.lookahead.toNat < (17 : Word).toNat + stateA.regs.minMatch.toNat ∧
    (16 : Word).toNat + stateA.regs.minMatch.toNat ≤ stateA.regs.strstart.toNat + stateA.regs.lookahead.toNat ∧
    Memory.read stateA.head (stateA.hashIndex 16) = 0 ∧ (Memory.read stateA.head (stateA.hashIndex 14)).toNat < 14 ∧
    Memory.read stateA.head (stateA.hashIndex 13) ≠ 0 ∧ 13 ≤ (Memory.read stateA.head (stateA.hashIndex 13)).toNat ∧
    keysRise stateA.head ∧ keysRise stateA.prev := by decide

/-- V-I9, V-I8, V-I7 and a run over position 13, which is filed already. -/
theorem witness_InsertnChecksInOrderThenCompletes :
    0 < (3 : Field24).toNat ∧ stateA.cfg.Legal ∧ keysRise stateA.head ∧
    stateA.cfg.winBytes < (65789 : Word).toNat + (3 : Field24).toNat - 1 + 4 ∧
    (65788 : Word).toNat + (3 : Field24).toNat - 1 + 4 ≤ stateA.cfg.winBytes ∧
    stateA.regs.strstart.toNat + stateA.regs.lookahead.toNat < (15 : Word).toNat + (3 : Field24).toNat - 1 + stateA.regs.minMatch.toNat ∧
    (14 : Word).toNat + (3 : Field24).toNat - 1 + stateA.regs.minMatch.toNat ≤ stateA.regs.strstart.toNat + stateA.regs.lookahead.toNat ∧
    (∀ k < 3, Memory.read stateA.head (stateA.hashIndex (14 + k)) = 0 ∨
      (Memory.read stateA.head (stateA.hashIndex (14 + k))).toNat < 14 + k) ∧
    (Memory.read stateA.head (stateA.hashIndex (12 + 1)) ≠ 0 ∧ 12 + 1 ≤ (Memory.read stateA.head (stateA.hashIndex (12 + 1))).toNat) := by decide

theorem witness_BulkInsertionEqualsSingleInsertions : scenarioA.cfg.Legal ∧ 0 < (12 : Field24).toNat ∧
    of (exec (.insertn 1 12) scenarioA) (fun t => t.response) = some (some .ok) := by decide

/-- V-I2: entry 13 changes; and it is no position 0. -/
theorem witness_InsertionsRecordStrictlyEarlierPositions :
    let s : State := { scenarioA with head := headAfterRun, prev := prevAfterRun }
    keysRise s.head ∧ keysRise s.prev ∧ (13 : Word) ≠ 0 ∧
      of (exec (.insertn 13 1) s) (fun t => (Memory.read t.prev 13, t.response)) = some (7, some .ok) ∧
      Memory.read s.prev 13 = 0 ∧ of (exec (.insert 13) s) (fun t => t.response) = some (some .ok) := by decide

/-- A table whose listed entries are below a bound reads below it everywhere. -/
theorem read_lt_of_listed {n : Nat} (t : Table) (h0 : 0 < n) (h : ∀ c ∈ t, c.2.toNat < n) (i : Nat) : (Memory.read t i).toNat < n := by
  induction t with
  | nil => exact h0
  | cons c cs ih =>
    have ih := ih (fun d hd => h d (List.mem_cons_of_mem _ hd))
    have hc := h c (by simp)
    unfold Memory.read at ih ⊢
    simp only [lookup]
    split_ifs
    · exact hc
    · exact h0
    · exact ih

theorem witness_CommandsKeepTableEntriesInsideTheWindow : stateA.cfg.Legal ∧ keysRise stateA.head ∧ keysRise stateA.prev ∧
    stateA.EntriesInWindow :=
  ⟨by decide, by decide, by decide, read_lt_of_listed _ (by decide) (by decide), read_lt_of_listed _ (by decide) (by decide)⟩

theorem stateA_descends : stateA.ChainDescends := by
  have h : ∀ p < 13, 0 < p → (Memory.read stateA.prev (stateA.prevIndex p)).toNat < p := by decide
  intro p h1 h2
  exact h p h2 (Nat.lt_of_le_of_lt (Nat.zero_le _) h1)

theorem witness_LiveChainIsShorterThanTheWindow : stateA.ChainDescends ∧ 7 < stateA.regs.strstart.toNat :=
  ⟨stateA_descends, by decide⟩

/-- The last extent that fits and the first that does not (V-C4, V-C5), and equal addresses. -/
theorem witness_Cmp258CountsTheAgreeingPrefix : (65536 : Word).toNat + 258 ≤ launch.cfg.winBytes ∧
    (65536 : Field24).toNat + 258 ≤ launch.cfg.winBytes ∧ launch.cfg.winBytes < (65537 : Word).toNat + 258 ∧
    launch.cfg.winBytes < (65537 : Field24).toNat + 258 ∧ (65536 : Word).toNat = (65536 : Field24).toNat := by decide

theorem witness_CheapRejectionLosesNoMatch : 3 ≤ 3 ∧ stateA.win.read (13 + 3) ≠ stateA.win.read (7 + 3) := by decide

/-- V-M16 and its neighbour; V-M10; V-M1. -/
theorem witness_LmatchCompletesOnADescendingChain :
    stateA.cfg.winBytes < (stateB (fun r => { r with strstart := 65537 })).regs.strstart.toNat + 258 ∧
    (stateB (fun r => { r with strstart := 65536 })).regs.strstart.toNat + 258 ≤ stateA.cfg.winBytes ∧
    (stateA.searchLimit < (13 : Word).toNat ∧ 0 < stateA.searchBudget ∧ stateA.regs.strstart.toNat ≤ (13 : Word).toNat) ∧
    stateA.ChainDescends ∧ (12 : Word).toNat < stateA.regs.strstart.toNat ∧ (0 : Word).toNat ≤ stateA.searchLimit :=
  ⟨by decide, by decide, by decide, stateA_descends, by decide, by decide⟩

/-- V-M1 (two positions, then LIMIT), V-M10 (a bad entry point), and the same search with a budget of one, with an early-exit
length of 3 (V-M2) and, from a known length of 3, at a low level (V-M6). -/
theorem witness_LmatchWalksTheChainAsTheRuleSays :
    (stateA.regs.strstart.toNat + 258 ≤ stateA.cfg.winBytes ∧
      ¬ stateA.regs.goodMatch.toNat ≤ stateA.regs.prevLength.toNat ∧ stateA.regs.maxChain.toNat = 128 ∧
      stateA.regs.strstart.toNat - 2 ^ stateA.regs.wbits.toNat = 0 ∧
      min stateA.regs.niceMatch.toNat stateA.regs.lookahead.toNat = 6 ∧
      (∀ k < 2, 0 < stateA.chainAt 7 k ∧ stateA.chainAt 7 k < stateA.chainBound 7 k ∧ k < 128 ∧
        (stateA.bestAfter 7 k < stateA.chainLen 7 k ∧ stateA.chainLen 7 k < 6 ∨
          stateA.chainLen 7 k ≤ stateA.bestAfter 7 k ∧ stateA.regs.earlyLevel.toNat ≤ stateA.regs.level.toNat)) ∧
      stateA.chainAt 7 2 ≤ 0 ∧ stateA.regs.prevLength.toNat < stateA.chainLen 7 1 ∧
      stateA.chainLen 7 1 = stateA.bestAfter 7 2 ∧ ∀ j < 1, stateA.chainLen 7 j < stateA.bestAfter 7 2) ∧
    (0 < stateA.chainAt 13 0 ∧ stateA.chainBound 13 0 ≤ stateA.chainAt 13 0) ∧
    ((stateB (fun r => { r with maxChain := 1 })).regs.maxChain.toNat = 1 ∧ 0 < stateA.chainAt 7 1) ∧
    (stateA.chainAt 7 0 < stateA.chainBound 7 0 ∧ stateA.bestAfter 7 0 < stateA.chainLen 7 0 ∧
      min (stateB (fun r => { r with niceMatch := 3 })).regs.niceMatch.toNat stateA.regs.lookahead.toNat ≤ stateA.chainLen 7 0) ∧
    (let s := stateB (fun r => { r with level := 1, triggerLevel := 0, prevLength := 3 })
     s.chainLen 7 0 ≤ s.bestAfter 7 0 ∧ s.regs.level.toNat < s.regs.earlyLevel.toNat) := by decide

theorem witness_EmptyChainYieldsTheKnownLength : stateA.regs.strstart.toNat + 258 ≤ stateA.cfg.winBytes := by decide

/-- V-M11 and V-M12. -/
theorem witness_ZeroBudgetExaminesNothing : stateA.regs.strstart.toNat + 258 ≤ stateA.cfg.winBytes ∧
    (stateB (fun r => { r with maxChain := 0 })).regs.maxChain = 0 ∧
    (let s := stateB (fun r => { r with maxChain := 1, prevLength := 8 })
     s.regs.maxChain = 1 ∧ s.regs.goodMatch.toNat ≤ s.regs.prevLength.toNat) := by decide

/-- V-M2 (a first candidate as long as `nice`) and V-M6 (one as long as the known length at a low level). -/
theorem witness_FirstCandidateCanEndTheSearch :
    (let s := stateB (fun r => { r with niceMatch := 3 })
     s.regs.strstart.toNat + 258 ≤ s.cfg.winBytes ∧ 0 < s.searchBudget ∧ s.searchLimit < (7 : Word).toNat ∧
       (7 : Word).toNat < s.regs.strstart.toNat ∧ s.regs.prevLength.toNat < matchLen s.win s.regs.strstart.toNat (7 : Word).toNat ∧
       min s.regs.niceMatch.toNat s.regs.lookahead.toNat ≤ matchLen s.win s.regs.strstart.toNat (7 : Word).toNat) ∧
    (let s := stateB (fun r => { r with level := 1, triggerLevel := 0, prevLength := 3 })
     s.regs.strstart.toNat + 258 ≤ s.cfg.winBytes ∧ 0 < s.searchBudget ∧ s.searchLimit < (7 : Word).toNat ∧
       (7 : Word).toNat < s.regs.strstart.toNat ∧ matchLen s.win s.regs.strstart.toNat (7 : Word).toNat ≤ s.regs.prevLength.toNat ∧
       s.regs.level.toNat < s.regs.earlyLevel.toNat) := by decide

/-- V-M1 (found) and V-M14 (not found). -/
theorem witness_LmatchReportsOnlyTrueMatches :
    of (exec (.lmatch 7) stateA) (fun t => (t.response, Status.found t.regs.status)) = some (some .ok, true) ∧
    of (exec (.lmatch 7) (stateB (fun r => { r with prevLength := 5 }))) (fun t => (t.response, Status.found t.regs.status)) =
      some (some .ok, false) ∧ stateA.regs.prevLength.toNat ≤ 258 := by decide

theorem witness_SearchExaminesFallingLivePositions : (stateA.search 7).isSome = true := by decide

/-- V-M1 (beats the known length) and V-M14 (does not). -/
theorem witness_LmatchAtTheLimitFindsTheLongest :
    of (exec (.lmatch 7) stateA) (fun t => (t.response, Status.stopr t.regs.status)) = some (some .ok, 1) ∧
    of (exec (.lmatch 7) (stateB (fun r => { r with prevLength := 5 }))) (fun t => (t.response, Status.stopr t.regs.status)) =
      some (some .ok, 1) ∧
    stateA.regs.earlyLevel.toNat ≤ stateA.regs.level.toNat ∧ 7 ∈ stateA.liveChain 13 7 ∧ 1 ∈ stateA.liveChain 13 7 := by decide

/-- Two states that differ in what LMATCH does not read. -/
theorem witness_LmatchDependsOnlyOnWhatItReads :
    let s' : State := { stateA with
      cfg := { stateA.cfg with chunk := 32, idValue := 0, hash := .implementation 1 }
      regs := { stateA.regs with seq := 5, minMatch := 4, out := 3, triggerLevel := 9 }
      win := { stateA.win with cells := stateA.win.cells ++ [(5000, 1)] }
      head := [], prev := [(2, 1), (7, 1), (12, 6)] }
    (stateA.search 7).map (fun r => r.examined) = some [7, 1] ∧
    (∀ i < 258, s'.win.read (13 + i) = stateA.win.read (13 + i)) ∧
    (∀ c ∈ [7, 1], Memory.read s'.prev (stateA.prevIndex c) = Memory.read stateA.prev (stateA.prevIndex c) ∧
      ∀ i < 258, s'.win.read (c + i) = stateA.win.read (c + i)) ∧
    stateA.regs.strstart.toNat + 258 ≤ stateA.cfg.winBytes ∧ s'.regs.wbits = stateA.regs.wbits ∧
    s'.regs.status = stateA.regs.status := by decide +kernel

/-- A window that differs at `STRSTART + LOOKAHEAD`, with the known length below the lookahead and with it above. -/
theorem witness_LmatchIgnoresBytesBeyondTheLookahead :
    let w' : Window := { stateA.win with cells := stateA.win.cells ++ [(19, 1)] }
    (∀ a < stateA.regs.strstart.toNat + stateA.regs.lookahead.toNat, w'.read a = stateA.win.read a) ∧
    of (exec (.lmatch 7) stateA) (fun t => t.response) = some (some .ok) ∧
    of (exec (.lmatch 7) { stateA with win := w' }) (fun t => t.response) = some (some .ok) ∧
    stateA.regs.prevLength.toNat < stateA.regs.lookahead.toNat ∧
    of (exec (.lmatch 7) { stateB (fun r => { r with prevLength := 6 }) with win := w' }) (fun t => t.response) =
      some (some .ok) := by decide

/-- The clauses of the two copies that turn a command away: V-K8, V-K9, V-K7, a destination one past the end of `WIN`, and
slack one past it with 3 chunks left exactly. -/
theorem witness_CopyReplicatesThePatternUpToSlack_checks :
    (2 : Field24) ≠ 0 ∧ (copyState 258 300).regs.out.toNat < (259 : Field24).toNat ∧
    (258 : Field24).toNat ≤ (copyState 258 300).regs.out.toNat ∧
    (copyState 258 262).regs.outEnd.toNat - (copyState 258 262).regs.out.toNat < (5 : Word).toNat ∧
    (4 : Word).toNat ≤ (copyState 258 262).regs.outEnd.toNat - (copyState 258 262).regs.out.toNat ∧
    launch.cfg.winBytes < (copyState 65774 65800).regs.out.toNat + (21 : Word).toNat ∧
    (let s := copyState 65746 65794
     3 * s.cfg.chunk ≤ s.regs.outEnd.toNat - s.regs.out.toNat ∧ 0 < (33 : Word).toNat ∧
       (33 : Word).toNat ≤ s.regs.outEnd.toNat - s.regs.out.toNat ∧
       s.cfg.winBytes < s.regs.out.toNat + (33 : Word).toNat + s.cfg.chunk) := by decide

/-- V-K10: the copy that reaches the last byte of `WIN`. -/
theorem witness_CopysReplicatesThePatternExactly :
    let s := copyState 65774 65794
    s.cfg.Legal ∧ s.win.wf ∧ (2 : Field24) ≠ 0 ∧ (2 : Field24).toNat ≤ s.regs.out.toNat ∧
      (20 : Word).toNat ≤ s.regs.outEnd.toNat - s.regs.out.toNat ∧ s.regs.out.toNat + (20 : Word).toNat ≤ s.cfg.winBytes ∧
      0 < (20 : Word).toNat := by decide

/-- V-K10 (the byte-wise regime), V-K6 (nothing copied), and the chunked regime with slack that just fits. -/
theorem witness_CopyReplicatesThePatternUpToSlack :
    (let s := copyState 65774 65794
     s.cfg.Legal ∧ s.win.wf ∧ (2 : Field24) ≠ 0 ∧ (2 : Field24).toNat ≤ s.regs.out.toNat ∧
       (20 : Word).toNat ≤ s.regs.outEnd.toNat - s.regs.out.toNat ∧ s.regs.out.toNat + (20 : Word).toNat ≤ s.cfg.winBytes ∧
       ¬ 3 * s.cfg.chunk ≤ s.regs.outEnd.toNat - s.regs.out.toNat) ∧
    (let s := copyState 258 306
     3 * s.cfg.chunk ≤ s.regs.outEnd.toNat - s.regs.out.toNat ∧ ¬ 0 < (0 : Word).toNat) ∧
    (let s := copyState 65746 65794
     s.win.wf ∧ 3 * s.cfg.chunk ≤ s.regs.outEnd.toNat - s.regs.out.toNat ∧ 0 < (32 : Word).toNat ∧
       (32 : Word).toNat ≤ s.regs.outEnd.toNat - s.regs.out.toNat ∧
       s.regs.out.toNat + (32 : Word).toNat + s.cfg.chunk ≤ s.cfg.winBytes) := by decide

theorem witness_CopiesDoNotDependOnTheChunkWidth :
    let s := copyState 258 306
    let s' : State := { s with cfg := { s.cfg with chunk := 32 } }
    s.win.wf ∧ of (exec (.copys 7 2) s) (fun t => t.response) = some (some .ok) ∧
      of (exec (.copys 7 2) s') (fun t => t.response) = some (some .ok) ∧
      of (exec (.copy 7 2) s) (fun t => t.response) = some (some .ok) ∧
      of (exec (.copy 7 2) s') (fun t => t.response) = some (some .ok) := by decide

theorem witness_ChunkedAlgorithmEqualsTheSerialCopy : scenarioWindow.wf ∧ (16 = 16 ∨ 16 = 32) ∧ 1 ≤ 3 ∧ 3 ≤ 19 ∧ 48 ≤ 48 := by decide

end Sys2Proof.Tests
end

section
/-! What a command's own pseudocode can end with, said once per command; the ending of every command and of every step
in terms of it; and the parameter registers (10_state.md R24). -/
namespace Sys2Proof.Machine

/-! ## What each command's pseudocode makes where it completes -/

section Bodies
variable {s t : State}

theorem doneWith_eq_done {v : Word} (h : doneWith v s = .done t) : t = s.setResult v :=
  (Completion.done.inj h).symm

theorem setrBody_eq_done {reg : Field24} {value : Word} (h : setrBody reg value s = .done t) :
    ∃ r, Reg.ofNumber reg = some r ∧ r.readOnly = false ∧ r.legalValue s.cfg value = true ∧ t = s.writeReg r value := by
  unfold setrBody at h
  split at h
  · cases h
  next r hr =>
    split at h
    · cases h
    next hro =>
      split at h
      next hv => exact ⟨r, hr, by simpa using hro, hv, (Completion.done.inj h).symm⟩
      · cases h

theorem getrBody_eq_done {reg : Field24} (h : getrBody reg s = .done t) :
    ∃ r, Reg.ofNumber reg = some r ∧ t = s.setResult (s.readReg r) := by
  unfold getrBody at h
  split at h
  · cases h
  next r hr => exact ⟨r, hr, doneWith_eq_done h⟩

theorem stbBody_eq_done {addr : Word} {byte : Byte} (h : stbBody addr byte s = .done t) :
    addr.toNat < s.cfg.winBytes ∧ t = { s with win := s.win.write addr.toNat byte } := by
  unfold stbBody at h
  split at h
  · cases h
  next ha => exact ⟨Nat.lt_of_not_le ha, (Completion.done.inj h).symm⟩

theorem ldbBody_eq_done {addr : Word} (h : ldbBody addr s = .done t) :
    addr.toNat < s.cfg.winBytes ∧ t = s.setResult ((s.win.read addr.toNat).setWidth 32) := by
  unfold ldbBody at h
  split at h
  · cases h
  next ha => exact ⟨Nat.lt_of_not_le ha, doneWith_eq_done h⟩

theorem ldhBody_eq_done {index : Word} (h : ldhBody index s = .done t) :
    index.toNat < 2 ^ s.cfg.hbitsMax ∧ t = s.setResult (Memory.read s.head index.toNat) := by
  unfold ldhBody at h
  split at h
  · cases h
  next hi => exact ⟨Nat.lt_of_not_le hi, doneWith_eq_done h⟩

theorem ldpBody_eq_done {index : Word} (h : ldpBody index s = .done t) :
    index.toNat < 2 ^ s.cfg.wbitsMax ∧ t = s.setResult (Memory.read s.prev index.toNat) := by
  unfold ldpBody at h
  split at h
  · cases h
  next hi => exact ⟨Nat.lt_of_not_le hi, doneWith_eq_done h⟩

/-- A completed insertion or query writes the two tables and `RESULT` only. -/
theorem insertBody_eq_done {str count : Nat} (h : insertBody str count s = .done t) :
    ∃ (head prev : Table) (v : Word), t = { s with head := head, prev := prev }.setResult v := by
  unfold insertBody at h
  split at h
  · exact ⟨s.head, s.prev, _, doneWith_eq_done h⟩
  split at h
  · cases h
  split at h
  · cases h
  split at h
  · cases h
  next u _ => exact ⟨u.head, u.prev, u.old, doneWith_eq_done h⟩

theorem lmatchBody_eq_done {cur : Nat} (h : lmatchBody cur s = .done t) :
    ∃ r, s.search cur = some r ∧
      t = (s.recordSearch r).setResult (BitVec.ofNat 32 (min r.best s.regs.lookahead.toNat)) := by
  unfold lmatchBody at h
  split at h
  · cases h
  split at h
  · cases h
  next r hr => exact ⟨r, hr, doneWith_eq_done h⟩

theorem cmp258Body_eq_done {a b : Nat} (h : cmp258Body a b s = .done t) :
    t = s.setResult (BitVec.ofNat 32 (matchLen s.win a b)) := by
  unfold cmp258Body at h
  split at h
  · cases h
  · exact doneWith_eq_done h

/-- A completed COPY writes the window, the counter of free draws, `OUT` and `RESULT` only. -/
theorem copyBody_eq_done {len dist : Nat} (h : copyBody len dist s = .done t) :
    ∃ (win : Window) (draws : Nat), t = ({ s with win := win, draws := draws }.setOut (s.regs.out.toNat + len)).setResult
      (BitVec.ofNat 32 (s.regs.out.toNat + len)) := by
  unfold copyBody at h
  dsimp only at h
  split at h
  · cases h
  split at h
  · cases h
  split at h
  · cases h
  split at h
  · cases h
  split at h
  · split at h
    · cases h
    · exact ⟨_, _, doneWith_eq_done h⟩
  · exact ⟨_, s.draws, doneWith_eq_done h⟩

/-- A completed COPYS writes the window, `OUT` and `RESULT` only. -/
theorem copysBody_eq_done {len dist : Nat} (h : copysBody len dist s = .done t) :
    t = ({ s with win := serialCopy dist len s.regs.out.toNat s.win }.setOut (s.regs.out.toNat + len)).setResult
      (BitVec.ofNat 32 (s.regs.out.toNat + len)) := by
  unfold copysBody at h
  dsimp only at h
  split at h
  · cases h
  split at h
  · cases h
  split at h
  · cases h
  split at h
  · cases h
  · exact doneWith_eq_done h

end Bodies

/-! ## Every command but RESET ends with its pseudocode -/

/-- A command's own pseudocode. RESET has none that `finish` could end, since it counts nothing (10_state.md R26). -/
def commandBody (i : Instr) (s : State) : Completion :=
  match i with
  | .nop | .reset => .done s
  | .setr reg value => setrBody reg value s
  | .getr reg => getrBody reg s
  | .stb addr byte => stbBody addr byte s
  | .ldb addr => ldbBody addr s
  | .ldh index => ldhBody index s
  | .ldp index => ldpBody index s
  | .clear => .done { s with head := Table.cleared, prev := Table.cleared }
  | .slide => .done { s with
      head := Table.rebase s.wsize s.hmask s.head, prev := Table.rebase s.wsize s.wmask s.prev }
  | .insert str => insertBody str.toNat 1 s
  | .insertn str count => insertBody str.toNat count.toNat s
  | .lmatch cur => lmatchBody cur.toNat s
  | .cmp258 a b => cmp258Body a.toNat b.toNat s
  | .copy len dist => copyBody len.toNat dist.toNat s
  | .copys len dist => copysBody len.toNat dist.toNat s

section Commands
variable {i : Instr} {s t : State}

theorem exec_eq_finish (hi : i ≠ .reset) : exec i s = .next (finish s (commandBody i s)) := by
  cases i with
  | reset => exact absurd rfl hi
  | _ => rfl

theorem exec_reset : exec .reset s = .next { s.resetRegisters with response := some .ok } := rfl

/-- What a fault takes the state to is what 60_exceptions.md R194 says it leaves. -/
theorem faultLeaves_takeFault (c : FaultCode) (s : State) : FaultLeaves c s (takeFault c s) := by
  refine ⟨rfl, fun h => ?_, fun h => ?_⟩
  · simp [recordFault_first _ _ h]
  · simp [recordFault_later _ _ h]

theorem endsWithFault_of_body {c : FaultCode} (hi : i ≠ .reset) (hb : commandBody i s = .fault c) :
    EndsWithFault i s c :=
  ⟨takeFault c s, by rw [exec_eq_finish hi, hb, finish_fault], faultLeaves_takeFault c s⟩

theorem endsWithResult_of_body {v : Word} (hi : i ≠ .reset) (hb : commandBody i s = doneWith v s) :
    EndsWithResult i s v := by
  unfold EndsWithResult
  rw [exec_eq_finish hi, hb]
  rfl

/-! ## GETR and SETR of a register by its number -/

theorem getr_endsWithResult (s : State) (r : Reg) : EndsWithResult (.getr r.number) s (s.readReg r) := by
  refine endsWithResult_of_body (by simp) ?_
  simp only [commandBody, getrBody, ofNumber_number]

theorem setr_endsWithErrReg_of_readOnly (s : State) {r : Reg} (hr : r.readOnly = true) (v : Word) :
    EndsWithFault (.setr r.number v) s .errReg := by
  refine endsWithFault_of_body (by simp) ?_
  simp only [commandBody, setrBody, ofNumber_number, hr, if_true]

/-! ## No command and no step changes the parameters -/

theorem commandBody_done_cfg (h : commandBody i s = .done t) : t.cfg = s.cfg := by
  cases i with
  | nop | reset | clear | slide => cases h; rfl
  | setr =>
    obtain ⟨r, -, -, -, rfl⟩ := setrBody_eq_done h
    exact writeReg_cfg _ _ _
  | getr =>
    obtain ⟨_, -, rfl⟩ := getrBody_eq_done h
    rfl
  | stb => rw [(stbBody_eq_done h).2]
  | ldb => rw [(ldbBody_eq_done h).2, setResult_cfg]
  | ldh => rw [(ldhBody_eq_done h).2, setResult_cfg]
  | ldp => rw [(ldpBody_eq_done h).2, setResult_cfg]
  | insert | insertn =>
    obtain ⟨_, _, _, rfl⟩ := insertBody_eq_done h
    rfl
  | lmatch =>
    obtain ⟨_, -, rfl⟩ := lmatchBody_eq_done h
    rfl
  | cmp258 => rw [cmp258Body_eq_done h, setResult_cfg]
  | copy =>
    obtain ⟨_, _, rfl⟩ := copyBody_eq_done h
    rfl
  | copys => rw [copysBody_eq_done h, setResult_cfg, setOut_cfg]

/-- A fault and a signal discard what the pseudocode has made; a completion keeps the parameters where it does. -/
theorem finish_cfg {c : Completion} (h : ∀ u, c = .done u → u.cfg = s.cfg) : (finish s c).cfg = s.cfg := by
  cases c with
  | done u => exact h u rfl
  | signal => exact takeSignal_cfg _ _
  | fault => exact takeFault_cfg _ _

theorem exec_cfg (h : exec i s = .next t) : t.cfg = s.cfg := by
  by_cases hi : i = .reset
  · subst hi
    cases h
    rfl
  · rw [exec_eq_finish hi] at h
    cases h
    exact finish_cfg fun _ hu => commandBody_done_cfg hu

/-- What the four kinds of step answer: nothing presented, a hardware reset, a command, an illegal word. -/
theorem step_cases (h : step s = .next t) :
    (s.port = [] ∧ t = s) ∨
    (∃ image rest, s.port = .hardwareReset image :: rest ∧ t = hardwareReset image { s with port := rest }) ∨
    (∃ w rest i, s.port = .command w :: rest ∧ decode w = .ok i ∧ exec i { s with port := rest } = .next t) ∨
    ∃ w rest e, s.port = .command w :: rest ∧ decode w = .error e ∧ t = takeFault .errOpcode { s with port := rest } := by
  match hp : s.port with
  | [] =>
    rw [step_idle hp] at h
    exact .inl ⟨rfl, (Host.Outcome.next.inj h).symm⟩
  | .hardwareReset image :: rest =>
    rw [step_hardwareReset hp] at h
    exact .inr (.inl ⟨image, rest, rfl, (Host.Outcome.next.inj h).symm⟩)
  | .command w :: rest =>
    match hd : decode w with
    | .ok i =>
      rw [step_command hp hd] at h
      exact .inr (.inr (.inl ⟨w, rest, i, rfl, hd, h⟩))
    | .error e =>
      rw [step_illegal hp hd] at h
      exact .inr (.inr (.inr ⟨w, rest, e, rfl, hd, (Host.Outcome.next.inj h).symm⟩))

theorem step_cfg (h : step s = .next t) : t.cfg = s.cfg := by
  obtain ⟨-, rfl⟩ | ⟨image, rest, -, rfl⟩ | ⟨w, rest, i, -, -, he⟩ | ⟨w, rest, e, -, -, rfl⟩ := step_cases h
  · rfl
  · exact hardwareReset_cfg _ _
  · exact exec_cfg (s := { s with port := rest }) he
  · exact takeFault_cfg _ _

end Commands

/-! ## The registers that read as parameters -/

section ParameterRegisters
variable (s : State)

@[simp] theorem readReg_id : s.readReg .id = s.cfg.idValue := rfl
@[simp] theorem readReg_chunk : s.readReg .chunk = BitVec.ofNat 32 s.cfg.chunk := rfl
@[simp] theorem readReg_winbytes : s.readReg .winbytes = BitVec.ofNat 32 s.cfg.winBytes := rfl

variable {s}

/-- The two numeric parameters fit a register in a legal implementation (00_scope.md R6). -/
theorem toNat_readReg_chunk (h : s.cfg.Legal) : (s.readReg .chunk).toNat = s.cfg.chunk := by
  obtain ⟨-, -, -, -, hchunk, -, -⟩ := h
  rw [readReg_chunk, BitVec.toNat_ofNat]
  omega

theorem toNat_readReg_winbytes (h : s.cfg.Legal) : (s.readReg .winbytes).toNat = s.cfg.winBytes := by
  obtain ⟨-, -, -, -, -, -, hwin⟩ := h
  rw [readReg_winbytes, BitVec.toNat_ofNat]
  omega

end ParameterRegisters

/-- Settles O15: the three registers read as `State.cfg`, which no step changes (`step_cfg`), and SETR refuses them as
read-only. -/
theorem parameterRegistersNeverChange : Obligations.ParameterRegistersNeverChange := by
  unfold Obligations.ParameterRegistersNeverChange
  refine ⟨fun s hs => ⟨getr_endsWithResult s .id, ?_, ?_⟩, fun s v => ⟨?_, ?_, ?_⟩, fun s t hst => ?_⟩
  · exact ⟨_, toNat_readReg_chunk hs, getr_endsWithResult s .chunk⟩
  · exact ⟨_, toNat_readReg_winbytes hs, getr_endsWithResult s .winbytes⟩
  · exact setr_endsWithErrReg_of_readOnly s (r := .id) rfl v
  · exact setr_endsWithErrReg_of_readOnly s (r := .chunk) rfl v
  · exact setr_endsWithErrReg_of_readOnly s (r := .winbytes) rfl v
  · simp [step_cfg hst]

end Sys2Proof.Machine
end

section
/-! The command word as three joined fields (30_encoding.md R81), what the decoder accepts (R83 to R85), and what a
rejected word does. -/
namespace Sys2Proof

/-! ## The three fields of a word -/

theorem Command.toNat_word (c : Command) :
    c.word.toNat = c.opc.toNat <<< 56 ||| c.b.toNat <<< 32 ||| c.a.toNat := by
  have hopc : c.opc.toNat <<< 56 < 2 ^ 64 := by rw [Nat.shiftLeft_eq]; omega
  have hb : c.b.toNat <<< 32 < 2 ^ 64 := by rw [Nat.shiftLeft_eq]; omega
  simp only [Command.word, BitVec.toNat_or, BitVec.toNat_shiftLeft]
  rw [BitVec.toNat_setWidth_of_le (by decide), BitVec.toNat_setWidth_of_le (by decide),
    BitVec.toNat_setWidth_of_le (by decide), Nat.mod_eq_of_lt hopc, Nat.mod_eq_of_lt hb]

/-- The formula of R81 puts the fields side by side. -/
theorem Command.word_eq_append (c : Command) : c.word = c.opc ++ c.b ++ c.a := by
  apply BitVec.eq_of_toNat_eq
  rw [Command.toNat_word, BitVec.toNat_append, BitVec.toNat_append, Nat.shiftLeft_or_distrib, ← Nat.shiftLeft_add]

@[simp] theorem Command.ofWord_word (c : Command) : Command.ofWord c.word = c := by
  have hopc : c.word.extractLsb' 56 8 = c.opc := by
    rw [c.word_eq_append, BitVec.extractLsb'_append_eq_of_le (by decide)]
    exact BitVec.extractLsb'_append_eq_left
  have hb : c.word.extractLsb' 32 24 = c.b := by
    rw [c.word_eq_append, BitVec.extractLsb'_append_eq_of_le (by decide)]
    exact BitVec.extractLsb'_append_eq_right
  have ha : c.word.extractLsb' 0 32 = c.a := by
    rw [c.word_eq_append]
    exact BitVec.extractLsb'_append_eq_right
  rw [Command.ofWord, hopc, hb, ha]

@[simp] theorem Command.word_ofWord (w : CommandWord) : (Command.ofWord w).word = w := by
  rw [Command.word_eq_append]
  dsimp only [Command.ofWord]
  rw [BitVec.extractLsb'_append_extractLsb'_eq_extractLsb' (by rfl),
    BitVec.extractLsb'_append_extractLsb'_eq_extractLsb' (by rfl)]
  exact BitVec.extractLsb'_eq_self

theorem decode_word (c : Command) : decode c.word = c.decode := by rw [decode, Command.ofWord_word]

/-! ## What the decoder accepts -/

theorem checkReserved_eq_ok {opc : BitVec 8} {zero : Bool} {i j : Instr} :
    checkReserved opc zero i = .ok j ↔ zero = true ∧ i = j := by
  cases zero <;> simp [checkReserved]

/-- The `B` field of STB is 16 reserved bits above the byte (30_encoding.md R83). -/
theorem setWidth_byte_eq_append (byte : Byte) : (byte.setWidth 24 : Field24) = 0#16 ++ byte := by
  apply BitVec.eq_of_toNat_eq
  rw [BitVec.toNat_setWidth_of_le (by decide), BitVec.toNat_append, BitVec.toNat_zero, Nat.zero_shiftLeft, Nat.zero_or]

theorem extractLsb'_setWidth_byte (byte : Byte) : (byte.setWidth 24 : Field24).extractLsb' 8 16 = 0#16 := by
  rw [setWidth_byte_eq_append]
  exact BitVec.extractLsb'_append_eq_left

theorem setWidth_extractLsb'_of_high_zero {b : Field24} (h : b.extractLsb' 8 16 = 0#16) :
    (b.extractLsb' 0 8).setWidth 24 = b := by
  rw [setWidth_byte_eq_append, ← h, BitVec.extractLsb'_append_extractLsb'_eq_extractLsb' (by rfl)]
  exact BitVec.extractLsb'_eq_self

/-- An accepted command is made of the fields of the instruction it decodes to. -/
theorem command_of_decode_eq_ok {c : Command} {i : Instr} (h : c.decode = .ok i) : i.command = c := by
  obtain ⟨opc, b, a⟩ := c
  unfold Command.decode at h
  dsimp only at h
  split at h
  -- STB, whose reserved field is a part of `B`; the commands with no reserved field; the unassigned opcodes; the rest
  case h_4 =>
    obtain ⟨hz, rfl⟩ := checkReserved_eq_ok.mp h
    rw [Instr.command, setWidth_extractLsb'_of_high_zero (eq_of_beq hz)]
  case h_2 | h_11 | h_13 | h_14 | h_15 => cases h; rfl
  case h_17 => cases h
  all_goals
    obtain ⟨hz, rfl⟩ := checkReserved_eq_ok.mp h
    simp only [Bool.and_eq_true, beq_iff_eq] at hz
    simp [Instr.command, hz]

/-- The fields of an instruction meet 30_encoding.md R84 and R85. -/
theorem wellFormed_command (i : Instr) : i.command.wellFormed = true := by
  cases i with
  | stb addr byte =>
    have hz : (Instr.stb addr byte).command.stbHighZero = true := by
      simp [Instr.command, Command.stbHighZero, extractLsb'_setWidth_byte]
    rw [Command.wellFormed, hz]
    rfl
  | _ => rfl

end Sys2Proof

namespace Sys2Proof.Machine

/-! ## Rejected words -/

/-- A word that breaks 30_encoding.md R84 or R85 is rejected, because what is accepted is an instruction's fields. -/
theorem decode_word_eq_error {c : Command} (hc : c.wellFormed = false) : ∃ e, decode c.word = .error e := by
  rw [decode_word]
  match hd : c.decode with
  | .error e => exact ⟨e, rfl⟩
  | .ok i =>
    have hi := wellFormed_command i
    rw [command_of_decode_eq_ok hd, hc] at hi
    cases hi

theorem rejectedWord_of_wellFormed_eq_false {c : Command} (hc : c.wellFormed = false) : RejectedWord c.opc c.b c.a := by
  intro s rest hp
  obtain ⟨e, he⟩ := decode_word_eq_error hc
  exact ⟨_, step_illegal hp he, faultLeaves_takeFault _ _⟩

theorem encode_of_decode_eq_ok {w : CommandWord} {i : Instr} (h : decode w = .ok i) : encode i = w := by
  rw [encode, command_of_decode_eq_ok h, Command.word_ofWord]

/-- Each part of 30_encoding.md R84 is one check of `Command.wellFormed`. -/
theorem wellFormed_eq_false_of_reserved {opc : BitVec 8} {b : Field24} {a : Word}
    (h : (opc ∈ [0x00#8, 0x10#8, 0x11#8, 0x7F#8] ∧ (a ≠ 0 ∨ b ≠ 0)) ∨ (opc = 0x02#8 ∧ a ≠ 0) ∨
      (opc ∈ [0x04#8, 0x05#8, 0x06#8, 0x12#8, 0x20#8] ∧ b ≠ 0) ∨ (opc = 0x03#8 ∧ 0xFF < b.toNat)) :
    (Command.mk opc b a).wellFormed = false := by
  obtain ⟨hopc, hab⟩ | ⟨rfl, ha⟩ | ⟨hopc, hb⟩ | ⟨rfl, hb⟩ := h
  · have hz : (Command.mk opc b a).noOperandsZero = false := by
      simpa [Command.noOperandsZero, or_iff_not_imp_left] using And.intro hopc hab
    simp [Command.wellFormed, hz]
  · have hz : (Command.mk 0x02#8 b a).getrAZero = false := by
      simpa [Command.getrAZero] using ha
    simp [Command.wellFormed, hz]
  · have hz : (Command.mk opc b a).oneOperandBZero = false := by
      simpa [Command.oneOperandBZero, or_iff_not_imp_left] using And.intro hopc hb
    simp [Command.wellFormed, hz]
  · have hz : (Command.mk 0x03#8 b a).stbHighZero = false := by
      have hhigh : b.extractLsb' 8 16 ≠ 0#16 := fun h => by
        rw [← setWidth_extractLsb'_of_high_zero h, BitVec.toNat_setWidth_of_le (by decide)] at hb
        omega
      simpa [Command.stbHighZero] using hhigh
    simp [Command.wellFormed, hz]

theorem opcodeAssigned_eq_false {c : Command}
    (h : (0x07 ≤ c.opc.toNat ∧ c.opc.toNat ≤ 0x0F) ∨ (0x14 ≤ c.opc.toNat ∧ c.opc.toNat ≤ 0x1F) ∨
      (0x22 ≤ c.opc.toNat ∧ c.opc.toNat ≤ 0x2F) ∨ (0x32 ≤ c.opc.toNat ∧ c.opc.toNat ≤ 0x7E) ∨ 0x80 ≤ c.opc.toNat) :
    c.opcodeAssigned = false := by
  simp only [Command.opcodeAssigned, Bool.not_eq_false', Bool.or_eq_true, Bool.and_eq_true, decide_eq_true_eq]
  simpa only [or_assoc] using h

/-- Settles O6: the reserved field makes the word ill formed, and an ill-formed word is rejected. -/
theorem nonzeroReservedFieldRaisesErrOpcode : Obligations.NonzeroReservedFieldRaisesErrOpcode := by
  unfold Obligations.NonzeroReservedFieldRaisesErrOpcode
  intro s rest opc b a hp h
  exact rejectedWord_of_wellFormed_eq_false (wellFormed_eq_false_of_reserved h) s rest hp

/-- Settles O7: an opcode outside the table makes the word ill formed, and an accepted word is its instruction's. -/
theorem unassignedOpcodeRaisesErrOpcode : Obligations.UnassignedOpcodeRaisesErrOpcode := by
  unfold Obligations.UnassignedOpcodeRaisesErrOpcode
  refine ⟨fun s rest c hp h => ?_, fun w => ?_⟩
  · have hc : c.wellFormed = false := by simp [Command.wellFormed, opcodeAssigned_eq_false h]
    exact rejectedWord_of_wellFormed_eq_false hc s rest hp
  · match hd : decode w with
    | .ok i => exact .inl ⟨i, rfl, encode_of_decode_eq_ok hd⟩
    | .error e => exact .inr ⟨e, rfl⟩

/-- Settles O1: the formula, and the fields as the ranges of bits it joins. -/
theorem commandWordJoinsItsThreeFields : Obligations.CommandWordJoinsItsThreeFields := by
  unfold Obligations.CommandWordJoinsItsThreeFields
  refine ⟨Command.toNat_word, fun w => ⟨?_, ?_, ?_, Command.word_ofWord w⟩⟩
  · have hw : w.toNat >>> 56 < 2 ^ 8 := by rw [Nat.shiftRight_eq_div_pow]; omega
    rw [Command.ofWord, BitVec.extractLsb'_toNat, Nat.mod_eq_of_lt hw]
  · exact BitVec.extractLsb'_toNat _ _ _
  · exact BitVec.extractLsb'_toNat _ _ _

end Sys2Proof.Machine
end

section
/-! The response of a command: its code, and `RESULT` as it stands after the command (30_encoding.md R88). -/
namespace Sys2Proof.Machine

/-- How a completion answers (60_exceptions.md R191). -/
def Completion.code : Completion → Code
  | .done _ => .ok
  | .signal c => .signal c
  | .fault c => .fault c

section Response
variable {s t : State} {i : Instr}

@[simp] theorem finish_response (s : State) (k : Completion) : (finish s k).response = some k.code := by
  cases k <;> rfl

/-- `RESULT` is as the pseudocode has made it where it completes, and the old one after a signal or a fault. -/
theorem finish_result {k : Completion} (h : ∀ u, k = .done u → u.regs.result = s.regs.result) :
    (finish s k).regs.result = s.regs.result := by
  cases k with
  | done u => exact h u rfl
  | signal => exact takeSignal_result _ _
  | fault => exact takeFault_result _ _

theorem responseWord_of_response {c : Code} (h : t.response = some c) :
    t.responseWord = some (c.number ++ t.regs.result) := by
  rw [State.responseWord, h, Option.map_some]

/-- Every command leaves a response, and one that does not complete leaves the old `RESULT`. -/
theorem exec_response (h : exec i s = .next t) :
    ∃ c, t.response = some c ∧ (c ≠ .ok → t.regs.result = s.regs.result) := by
  by_cases hi : i = .reset
  · subst hi
    cases h
    exact ⟨.ok, rfl, fun hc => absurd rfl hc⟩
  · rw [exec_eq_finish hi] at h
    cases h
    refine ⟨_, finish_response _ _, fun hc => finish_result fun u hu => ?_⟩
    rw [hu] at hc
    exact absurd rfl hc

@[simp] theorem writeReg_result (s : State) (r : Reg) (v : Word) : (s.writeReg r v).regs.result = s.regs.result := by
  cases r <;> rfl

/-- The commands whose pseudocode produces no `RESULT` (10_state.md R27) leave the old one. -/
theorem commandBody_done_result (hi : i.mnemonic ∈ ["NOP", "SETR", "STB", "CLEAR", "SLIDE"])
    (h : commandBody i s = .done t) : t.regs.result = s.regs.result := by
  cases i with
  | nop | clear | slide => cases h; rfl
  | setr =>
    obtain ⟨r, -, -, -, rfl⟩ := setrBody_eq_done h
    exact writeReg_result _ _ _
  | stb => rw [(stbBody_eq_done h).2]
  | _ => simp [Instr.mnemonic] at hi

theorem exec_result_of_mnemonic (h : exec i s = .next t)
    (hi : i.mnemonic ∈ ["NOP", "SETR", "STB", "CLEAR", "SLIDE"]) :
    t.regs.result = s.regs.result := by
  have hne : i ≠ .reset := by
    rintro rfl
    exact absurd hi (by decide)
  rw [exec_eq_finish hne] at h
  cases h
  exact finish_result fun _ hu => commandBody_done_result hi hu

theorem responseWord_takeFault (c : FaultCode) (s : State) :
    (takeFault c s).responseWord = some (c.number ++ s.regs.result) := rfl

/-- The fault codes are the numbers from 8 up (60_exceptions.md R191). -/
theorem exists_eq_fault_iff (c : Code) : (∃ f, c = .fault f) ↔ c.number.getLsbD 3 = true := by
  cases c with
  | ok => simp [Code.number]
  | signal c => cases c <;> simp [Code.number]
  | fault f => cases f <;> simp [Code.number, FaultCode.number]

end Response

/-- Settles O20: the response's code is how the pseudocode ended, and only a completion can have changed `RESULT`. -/
theorem everyCommandReturnsOneResponse : Obligations.EveryCommandReturnsOneResponse := by
  unfold Obligations.EveryCommandReturnsOneResponse
  refine ⟨fun i s t h => ?_, fun s w rest e hp hd => ?_, fun i s t => exec_result_of_mnemonic, by decide,
    exists_eq_fault_iff⟩
  · obtain ⟨c, hc, hresult⟩ := exec_response h
    exact ⟨c, hc, responseWord_of_response hc, hresult⟩
  · exact ⟨_, step_illegal hp hd, responseWord_takeFault _ _⟩

end Sys2Proof.Machine
end

section
/-! The host-access commands (40_host_access.md R101 to R108): the words each accepts and rejects, what it does to
registers and memories, and what it leaves unchanged. -/
namespace Sys2Proof.Machine

/-! ## Words accepted and rejected -/

/-- The fields of an instruction decode to that instruction. -/
theorem decode_encode (i : Instr) : decode (encode i) = .ok i := by
  rw [encode, decode_word]
  cases i with
  | stb addr byte =>
    have hbyte : (byte.setWidth 24 : Field24).extractLsb' 0 8 = byte := by
      rw [setWidth_byte_eq_append]
      exact BitVec.extractLsb'_append_eq_right
    have hhigh := extractLsb'_setWidth_byte byte
    simp [Instr.command, Command.decode, checkReserved, hbyte, hhigh]
  | _ => rfl

theorem rejectedWord_of_noOperands {opc : BitVec 8} {b : Field24} {a : Word}
    (hopc : opc ∈ [0x00#8, 0x10#8, 0x11#8, 0x7F#8]) (h : b ≠ 0 ∨ a ≠ 0) : RejectedWord opc b a :=
  rejectedWord_of_wellFormed_eq_false (c := ⟨opc, b, a⟩) (wellFormed_eq_false_of_reserved (.inl ⟨hopc, h.symm⟩))

theorem rejectedWord_of_oneOperand {opc : BitVec 8} {b : Field24} (a : Word)
    (hopc : opc ∈ [0x04#8, 0x05#8, 0x06#8, 0x12#8, 0x20#8]) (hb : b ≠ 0) : RejectedWord opc b a :=
  rejectedWord_of_wellFormed_eq_false (c := ⟨opc, b, a⟩)
    (wellFormed_eq_false_of_reserved (.inr (.inr (.inl ⟨hopc, hb⟩))))

/-! ## NOP -/

/-- Settles O23: NOP's pseudocode makes no change, so its ending is all it does. -/
theorem nopChangesOnlySeq : Obligations.NopChangesOnlySeq := by
  unfold Obligations.NopChangesOnlySeq
  exact ⟨decode_encode .nop, fun b a => rejectedWord_of_noOperands (by decide), fun s => exec_eq_finish (by simp)⟩

/-! ## The register map: numbers, access classes, legal values -/

theorem Reg.mem_all (r : Reg) : r ∈ Reg.all := by cases r <;> decide

theorem ofNumber_eq_none {n : Field24} (h : ∀ r : Reg, r.number ≠ n) : Reg.ofNumber n = none := by
  match hr : Reg.ofNumber n with
  | none => rfl
  | some r => exact absurd (number_of_ofNumber hr) (h r)

theorem readOnly_iff_mem {r : Reg} : r.readOnly = true ↔ r ∈ [Reg.id, .status, .result, .seq, .chunk, .winbytes] := by
  cases r <;> decide

/-- 10_state.md R36: three registers restrict what SETR may write. -/
theorem legalValue_iff {c : Config} {r : Reg} {v : Word} : r.legalValue c v = true ↔
    (r = .wbits → 1 ≤ v.toNat ∧ v.toNat ≤ c.wbitsMax) ∧ (r = .hbits → 1 ≤ v.toNat ∧ v.toNat ≤ c.hbitsMax) ∧
      (r = .minMatch → v = 3 ∨ v = 4) := by
  cases r with
  | minMatch => simp [Reg.legalValue, BitVec.toNat_eq]
  | _ => simp [Reg.legalValue]

/-! ## SETR -/

section Setr
variable {s : State} {r : Reg} {n : Field24} {v : Word}

theorem readReg_respond_seq (c : Code) (s : State) : (respond c s).readReg .seq = s.readReg .seq + 1 := rfl

theorem readReg_respond_other (c : Code) (s : State) {q : Reg} (hq : q ≠ .seq) :
    (respond c s).readReg q = s.readReg q := by
  cases q with
  | seq => exact absurd rfl hq
  | _ => rfl

/-- SETR's write is a write of registers alone. -/
theorem writeReg_eq_with_regs (s : State) (r : Reg) (v : Word) :
    s.writeReg r v = { s with regs := (s.writeReg r v).regs } := by
  cases r <;> rfl

theorem setr_endsWithErrReg_of_unassigned (h : ∀ r : Reg, r.number ≠ n) : EndsWithFault (.setr n v) s .errReg := by
  refine endsWithFault_of_body (by simp) ?_
  simp only [commandBody, setrBody, ofNumber_eq_none h]

theorem setr_endsWithErrValue (hro : r.readOnly = false) (hv : r.legalValue s.cfg v = false) :
    EndsWithFault (.setr r.number v) s .errValue := by
  refine endsWithFault_of_body (by simp) ?_
  simp [commandBody, setrBody, ofNumber_number, hro, hv]

theorem exec_setr_of_legal (hro : r.readOnly = false) (hv : r.legalValue s.cfg v = true) :
    exec (.setr r.number v) s = .next (respond .ok (s.writeReg r v)) := by
  rw [exec_eq_finish (by simp)]
  simp [commandBody, setrBody, ofNumber_number, hro, hv]

end Setr

/-- Settles O24: the three ways SETR's pseudocode goes; where it completes, the register map's read-after-write laws
say what each register reads as. -/
theorem setrWritesOneRegisterOrFaults : Obligations.SetrWritesOneRegisterOrFaults := by
  unfold Obligations.SetrWritesOneRegisterOrFaults
  refine ⟨fun b a => decode_encode (.setr b a), fun s n v => ⟨setr_endsWithErrReg_of_unassigned, ?_⟩⟩
  rintro r rfl
  refine ⟨fun hr => setr_endsWithErrReg_of_readOnly s (readOnly_iff_mem.mpr hr) v, fun hill => ?_,
    fun hr hw hh hm => ?_⟩
  · have hro : r.readOnly = false := by obtain ⟨rfl, -⟩ | ⟨rfl, -⟩ | ⟨rfl, -⟩ := hill <;> rfl
    refine setr_endsWithErrValue hro (Bool.eq_false_of_not_eq_true fun hv => ?_)
    obtain ⟨hw, hh, hm⟩ := legalValue_iff.mp hv
    obtain ⟨hr, hn⟩ | ⟨hr, hn⟩ | ⟨hr, hn⟩ := hill
    · exact hn (hw hr)
    · exact hn (hh hr)
    · exact hn (hm hr)
  · have hro : r.readOnly = false := by simpa using mt readOnly_iff_mem.mp hr
    have hseq : r ≠ .seq := by
      rintro rfl
      cases hro
    refine ⟨_, exec_setr_of_legal hro (legalValue_iff.mpr ⟨hw, hh, hm⟩),
      congrArg (respond .ok) (writeReg_eq_with_regs s r v), ?_, ?_, fun q hqr hq => ?_⟩
    · rw [readReg_respond_other _ _ hseq, readReg_writeReg_same _ _ _ hro]
    · rw [readReg_respond_seq, readReg_writeReg_other _ _ _ hseq.symm]
    · rw [readReg_respond_other _ _ hq, readReg_writeReg_other _ _ _ hqr]

/-! ## GETR -/

/-- The statement's list of readings is the register map's. -/
theorem registerReadings_eq_map (s : State) :
    registerReadings s = Reg.all.map (fun r => (r.number, s.readReg r)) := rfl

theorem getr_endsWithErrReg_of_unassigned {n : Field24} (s : State) (h : ∀ r : Reg, r.number ≠ n) :
    EndsWithFault (.getr n) s .errReg := by
  refine endsWithFault_of_body (by simp) ?_
  simp only [commandBody, getrBody, ofNumber_eq_none h]

/-- Settles O25: the numbers listed are those of all registers, and GETR of a register's number answers its reading. -/
theorem getrReadsTheNumberedRegister : Obligations.GetrReadsTheNumberedRegister := by
  unfold Obligations.GetrReadsTheNumberedRegister
  refine ⟨fun b => decode_encode (.getr b), fun b a ha => ?_, fun s => ⟨fun p hp => ?_, fun n hn => ?_⟩⟩
  · exact rejectedWord_of_wellFormed_eq_false (c := ⟨0x02, b, a⟩)
      (wellFormed_eq_false_of_reserved (.inr (.inl ⟨rfl, ha⟩)))
  · rw [registerReadings_eq_map] at hp
    obtain ⟨r, -, rfl⟩ := List.mem_map.mp hp
    exact getr_endsWithResult s r
  · refine getr_endsWithErrReg_of_unassigned s fun r => hn (r.number, s.readReg r) ?_
    rw [registerReadings_eq_map]
    exact List.mem_map_of_mem r.mem_all

/-! ## STB -/

/-- A store takes the address off the list of unspecified bytes (40_host_access.md R104). -/
theorem not_mem_free_write {w : Window} (h : w.wf) (a : Nat) (v : Byte) (d : Nat) : (a, d) ∉ (w.write a v).free := by
  obtain ⟨-, hfree, -⟩ := h
  intro hmem
  have hlookup : lookup a (w.write a v).free = some d := lookup_of_mem (eraseAt_keysRise hfree) hmem
  rw [Window.write, lookup_eraseAt hfree, if_pos rfl] at hlookup
  cases hlookup

section Stb
variable {s : State} {addr : Word}

theorem stb_endsWithErrAddr (h : s.cfg.winBytes ≤ addr.toNat) (byte : Byte) :
    EndsWithFault (.stb addr byte) s .errAddr :=
  endsWithFault_of_body (by simp) (if_pos h)

theorem exec_stb_of_lt (h : addr.toNat < s.cfg.winBytes) (byte : Byte) :
    exec (.stb addr byte) s = .next (respond .ok { s with win := s.win.write addr.toNat byte }) := by
  rw [exec_eq_finish (by simp), commandBody, stbBody, if_neg (Nat.not_le_of_lt h), finish_done]

end Stb

/-- Settles O26: STB inside `WIN` is one `Window.write`, whose laws say what every byte reads as. -/
theorem stbStoresOneByte : Obligations.StbStoresOneByte := by
  unfold Obligations.StbStoresOneByte
  refine ⟨fun byte a => decode_encode (.stb a byte), fun b a hb => ?_, fun s addr byte =>
    ⟨fun h => stb_endsWithErrAddr h byte, fun h hwf => ?_⟩⟩
  · exact rejectedWord_of_wellFormed_eq_false (c := ⟨0x03, b, a⟩)
      (wellFormed_eq_false_of_reserved (.inr (.inr (.inr ⟨rfl, hb⟩))))
  · refine ⟨_, exec_stb_of_lt h byte, rfl, ?_, fun x hx => ?_, not_mem_free_write hwf _ _⟩
    · rw [respond_win, Window.read_write hwf, if_pos rfl]
    · rw [respond_win, Window.read_write hwf, if_neg hx]

/-! ## LDB, LDH, LDP: a bounds check, then one read -/

/-- How a command ends whose pseudocode checks an address against a size and answers a value. -/
theorem endsWith_of_boundedRead {i : Instr} {s : State} {size a : Nat} {v : Word} (hi : i ≠ .reset)
    (hb : commandBody i s = if size ≤ a then .fault .errAddr else doneWith v s) :
    (size ≤ a → EndsWithFault i s .errAddr) ∧ (a < size → EndsWithResult i s v) := by
  refine ⟨fun h => endsWithFault_of_body hi ?_, fun h => endsWithResult_of_body hi ?_⟩
  · rw [hb, if_pos h]
  · rw [hb, if_neg (Nat.not_le_of_lt h)]

/-- Settles O27: a bounded read of `WIN`, whose byte keeps its value in the wider word. -/
theorem ldbLoadsOneByte : Obligations.LdbLoadsOneByte := by
  unfold Obligations.LdbLoadsOneByte
  refine ⟨fun a => decode_encode (.ldb a), fun b a => rejectedWord_of_oneOperand a (by decide), fun s addr => ?_⟩
  obtain ⟨hfault, hread⟩ := endsWith_of_boundedRead (i := .ldb addr) (s := s) (by simp) rfl
  exact ⟨hfault, fun h => ⟨_, BitVec.toNat_setWidth_of_le (by decide), hread h⟩⟩

/-- Settles O28: a bounded read of `HEAD`. -/
theorem ldhLoadsAHeadEntry : Obligations.LdhLoadsAHeadEntry := by
  unfold Obligations.LdhLoadsAHeadEntry
  exact ⟨fun a => decode_encode (.ldh a), fun b a => rejectedWord_of_oneOperand a (by decide),
    fun s index => endsWith_of_boundedRead (by simp) rfl⟩

/-- Settles O29: a bounded read of `PREV`. -/
theorem ldpLoadsAPrevEntry : Obligations.LdpLoadsAPrevEntry := by
  unfold Obligations.LdpLoadsAPrevEntry
  exact ⟨fun a => decode_encode (.ldp a), fun b a => rejectedWord_of_oneOperand a (by decide),
    fun s index => endsWith_of_boundedRead (by simp) rfl⟩

/-! ## RESET, and what other commands do to `STATUS` -/

/-- The reset values fit their registers in a legal implementation (00_scope.md R6). -/
theorem registersReadAsReset_of_regs {t : State} (hc : t.cfg.Legal) (h : t.regs = Regs.reset t.cfg) :
    RegistersReadAsReset t := by
  have hchunk := toNat_readReg_chunk hc
  have hwin := toNat_readReg_winbytes hc
  obtain ⟨-, hwbits, -, hhbits, -⟩ := hc
  have hwbits' : (t.readReg .wbits).toNat = t.cfg.wbitsMax := by
    rw [State.readReg, h, Regs.reset, BitVec.toNat_ofNat]
    omega
  have hhbits' : (t.readReg .hbits).toNat = t.cfg.hbitsMax := by
    rw [State.readReg, h, Regs.reset, BitVec.toNat_ofNat]
    omega
  refine ⟨rfl, ?_, ?_, ?_, hchunk, hwin, hwbits', hhbits', ?_, ?_⟩ <;> simp [State.readReg, h, Regs.reset]

/-- RESET answers `{OK, 0}` (40_host_access.md R108). -/
theorem responseWord_resetRegisters (s : State) :
    State.responseWord { s.resetRegisters with response := some .ok } = some 0 := by
  rw [responseWord_of_response rfl]
  exact congrArg some (show 0#4 ++ 0#32 = 0#36 by decide)

section Status
variable {i : Instr} {s t : State}

@[simp] theorem writeReg_status (s : State) (r : Reg) (v : Word) : (s.writeReg r v).regs.status = s.regs.status := by
  cases r <;> rfl

/-- Where a command's pseudocode completes, `STATUS` is the old one, or LMATCH has recorded a search in it
(10_state.md R25). -/
theorem commandBody_done_status (h : commandBody i s = .done t) : t.regs.status = s.regs.status ∨
    ∃ (cur : Word) (r : Search), i = .lmatch cur ∧
      t.regs.status = Status.recordSearch r.found r.stop s.regs.status := by
  cases i with
  | lmatch cur =>
    obtain ⟨r, -, rfl⟩ := lmatchBody_eq_done h
    exact .inr ⟨cur, r, rfl, rfl⟩
  | nop | reset | clear | slide => cases h; exact .inl rfl
  | setr =>
    obtain ⟨r, -, -, -, rfl⟩ := setrBody_eq_done h
    exact .inl (writeReg_status _ _ _)
  | getr =>
    obtain ⟨_, -, rfl⟩ := getrBody_eq_done h
    exact .inl rfl
  | stb => exact .inl (by rw [(stbBody_eq_done h).2])
  | ldb => exact .inl (by rw [(ldbBody_eq_done h).2, setResult_status])
  | ldh => exact .inl (by rw [(ldhBody_eq_done h).2, setResult_status])
  | ldp => exact .inl (by rw [(ldpBody_eq_done h).2, setResult_status])
  | insert | insertn =>
    obtain ⟨_, _, _, rfl⟩ := insertBody_eq_done h
    exact .inl rfl
  | cmp258 => exact .inl (by rw [cmp258Body_eq_done h, setResult_status])
  | copy =>
    obtain ⟨_, _, rfl⟩ := copyBody_eq_done h
    exact .inl rfl
  | copys => exact .inl (by rw [copysBody_eq_done h, setResult_status, setOut_status])

theorem commandBody_done_fault (h : commandBody i s = .done t) :
    Status.fault t.regs.status = Status.fault s.regs.status := by
  obtain hst | ⟨_, r, -, hst⟩ := commandBody_done_status h
  · rw [hst]
  · rw [hst, fault_recordSearch]

/-- `STATUS.FAULT` is sticky (60_exceptions.md R194). -/
theorem exec_fault_sticky (hi : i ≠ .reset) (h : exec i s = .next t) (hs : Status.fault s.regs.status = true) :
    Status.fault t.regs.status = true := by
  rw [exec_eq_finish hi] at h
  cases h
  match hk : commandBody i s with
  | .done u => rw [finish_done, respond_status, commandBody_done_fault hk, hs]
  | .signal c => rw [finish_signal, takeSignal_status, hs]
  | .fault c => rw [finish_fault, takeFault_status, fault_recordFault]

end Status

/-- Settles O30: RESET's state has the reset registers over the old memories, and every other command's ending keeps
`FAULT`. -/
theorem resetCommandResetsTheRegistersOnly : Obligations.ResetCommandResetsTheRegistersOnly := by
  unfold Obligations.ResetCommandResetsTheRegistersOnly
  exact ⟨decode_encode .reset, fun b a => rejectedWord_of_noOperands (by decide),
    fun s hs => ⟨_, exec_reset, rfl, registersReadAsReset_of_regs hs rfl, responseWord_resetRegisters s⟩,
    fun i s t => exec_fault_sticky⟩

end Sys2Proof.Machine
end

section
/-! The hash index (41_hash_index.md): the hash operand and the reference hash of a position (R121, R123), and what
CLEAR, INSERT and the chain query do to the tables (R124, R126, R128). -/
namespace Sys2Proof.Machine

/-! ## The hash operand (R121) -/

section Operand
variable {s : State} {p : Nat}

/-- Four bytes side by side, the first most significant, as a number. -/
theorem toNat_append_bytes (b0 b1 b2 b3 : Byte) :
    (b0 ++ b1 ++ b2 ++ b3 : Word).toNat =
      b0.toNat <<< 24 ||| b1.toNat <<< 16 ||| b2.toNat <<< 8 ||| b3.toNat := by
  simp only [BitVec.toNat_append, Nat.shiftLeft_or_distrib, ← Nat.shiftLeft_add]

/-- Masking the low byte puts a zero byte in its place. -/
theorem append_bytes_and_mask (b0 b1 b2 b3 : Byte) :
    (b0 ++ b1 ++ b2 ++ b3 : Word) &&& 0xFFFFFF00#32 = b0 ++ b1 ++ b2 ++ 0#8 := by
  have hmask : 0xFFFFFF00#32 = BitVec.allOnes 24 ++ 0#8 := by decide
  rw [hmask, BitVec.and_append, BitVec.and_allOnes, BitVec.and_zero]

theorem hashOperand_of_level_le (h : s.regs.level.toNat ≤ s.regs.triggerLevel.toNat) :
    s.hashOperand p = s.win.read p ++ s.win.read (p + 1) ++ s.win.read (p + 2) ++ s.win.read (p + 3) := by
  simp [State.hashOperand, State.lowByteMasked, Nat.not_lt_of_le h]

theorem hashOperand_of_lt_level (h : s.regs.triggerLevel.toNat < s.regs.level.toNat) :
    s.hashOperand p =
      (s.win.read p ++ s.win.read (p + 1) ++ s.win.read (p + 2) ++ s.win.read (p + 3)) &&& 0xFFFFFF00#32 := by
  simp [State.hashOperand, State.lowByteMasked, h]

/-- Above the trigger level three bytes choose the bucket. -/
theorem hashIndex_congr_of_lt_level {p' : Nat} (h : s.regs.triggerLevel.toNat < s.regs.level.toNat)
    (h0 : s.win.read p' = s.win.read p) (h1 : s.win.read (p' + 1) = s.win.read (p + 1))
    (h2 : s.win.read (p' + 2) = s.win.read (p + 2)) : s.hashIndex p' = s.hashIndex p := by
  have hop : s.hashOperand p' = s.hashOperand p := by
    rw [hashOperand_of_lt_level h, hashOperand_of_lt_level h, append_bytes_and_mask, append_bytes_and_mask, h0, h1, h2]
  rw [State.hashIndex, State.hashIndex, hop]

end Operand

/-- Settles O31: the operand is the four bytes joined, and its mask replaces the fourth by zero. -/
theorem hashOperandIsTheFirstBytesMostSignificantFirst :
    Obligations.HashOperandIsTheFirstBytesMostSignificantFirst := by
  unfold Obligations.HashOperandIsTheFirstBytesMostSignificantFirst
  refine fun s p => ⟨fun h => ?_, fun h => ⟨?_, fun p' => hashIndex_congr_of_lt_level h⟩⟩
  · rw [hashOperand_of_level_le h, toNat_append_bytes]
  · rw [hashOperand_of_lt_level h, BitVec.toNat_and, toNat_append_bytes]
    rfl

/-! ## The reference hash (R123) -/

theorem toNat_hashReference (v : Word) :
    (hashReference v).toNat = (v.toNat * 2654435761 % 2 ^ 32) >>> 16 := by
  rw [hashReference, BitVec.toNat_ushiftRight, BitVec.toNat_mul]
  rfl

theorem toNat_hashReference_le (v : Word) : (hashReference v).toNat ≤ 65535 := by
  rw [toNat_hashReference, Nat.shiftRight_eq_div_pow]
  omega

/-- Settles O33: the formula over naturals for every word; the worked values are computed. -/
theorem referenceHashHasItsWorkedValues : Obligations.ReferenceHashHasItsWorkedValues := by
  unfold Obligations.ReferenceHashHasItsWorkedValues
  exact ⟨fun v => ⟨toNat_hashReference v, toNat_hashReference_le v⟩, by decide⟩

/-! ## CLEAR (R124) -/

/-- Settles O34: a cleared table reads as `NIL` at every index, and CLEAR's pseudocode writes nothing but the two. -/
theorem clearEmptiesBothTables : Obligations.ClearEmptiesBothTables := by
  unfold Obligations.ClearEmptiesBothTables
  exact ⟨decode_encode .clear, fun b a => rejectedWord_of_noOperands (by decide),
    fun s => ⟨_, exec_eq_finish (by simp), rfl, read_cleared, read_cleared⟩⟩

/-! ## INSERT (R126) and the query (R128) -/

theorem endsWithSignal_of_body {i : Instr} {s : State} {c : Signal} (hi : i ≠ .reset)
    (hb : commandBody i s = .signal c) : EndsWithSignal i s c :=
  ⟨takeSignal c s, by rw [exec_eq_finish hi, hb, finish_signal], rfl⟩

section Insert
variable {s : State} {p : Nat} {t : IndexRun}

theorem prevIndex_eq_mod_two_pow (s : State) (p : Nat) : s.prevIndex p = p % 2 ^ s.regs.wbits.toNat :=
  prevIndex_eq_mod s p

/-- The order check, said as what it refuses (R129). -/
theorem insertOne_eq_none : insertOne s p t = none ↔
    Memory.read t.head (s.hashIndex p) ≠ 0 ∧ p ≤ (Memory.read t.head (s.hashIndex p)).toNat := by
  simp [insertOne]

theorem insertRun_one : insertRun s 1 p t = insertOne s p t := by
  rw [insertRun_succ]
  exact Option.bind_fun_some _

theorem insertBody_one_order (h : p + 4 ≤ s.cfg.winBytes) (hv : p + s.regs.minMatch.toNat ≤ s.validEnd)
    (hne : Memory.read s.head (s.hashIndex p) ≠ 0) (hle : p ≤ (Memory.read s.head (s.hashIndex p)).toNat) :
    insertBody p 1 s = .fault .errOrder := by
  rw [insertBody_run Nat.one_pos h hv, insertRun_one, insertOne_eq_none.mpr ⟨hne, hle⟩]

theorem insertBody_one_done (h : p + 4 ≤ s.cfg.winBytes) (hv : p + s.regs.minMatch.toNat ≤ s.validEnd)
    (hord : Memory.read s.head (s.hashIndex p) = 0 ∨ (Memory.read s.head (s.hashIndex p)).toNat < p) :
    insertBody p 1 s = doneWith (Memory.read s.head (s.hashIndex p))
      { s with head := Memory.write s.head (s.hashIndex p) (BitVec.ofNat 32 p)
               prev := Memory.write s.prev (s.prevIndex p) (Memory.read s.head (s.hashIndex p)) } := by
  rw [insertBody_run Nat.one_pos h hv, insertRun_one, insertOne_eq_some.mpr ⟨hord, rfl⟩]

theorem exec_insert_done {str : Word} (h : str.toNat + 4 ≤ s.cfg.winBytes)
    (hv : str.toNat + s.regs.minMatch.toNat ≤ s.validEnd)
    (hord : Memory.read s.head (s.hashIndex str.toNat) = 0 ∨
      (Memory.read s.head (s.hashIndex str.toNat)).toNat < str.toNat) :
    exec (.insert str) s = .next (respond .ok (State.setResult (Memory.read s.head (s.hashIndex str.toNat))
      { s with head := Memory.write s.head (s.hashIndex str.toNat) str
               prev := Memory.write s.prev (s.prevIndex str.toNat)
                 (Memory.read s.head (s.hashIndex str.toNat)) })) := by
  rw [exec_eq_finish (by simp), commandBody, insertBody_one_done h hv hord, BitVec.ofNat_toNat, BitVec.setWidth_eq]
  rfl

end Insert

/-- Settles O36: INSERT's body goes the four ways of an insertion of one position, and where it completes the tables'
read-after-write laws say what every entry reads as. -/
theorem insertFilesOnePosition : Obligations.InsertFilesOnePosition := by
  unfold Obligations.InsertFilesOnePosition
  refine ⟨fun a => decode_encode (.insert a), fun b a => rejectedWord_of_oneOperand a (by decide),
    fun s str => ⟨rfl, fun h => ?_, fun h hv => ?_, ?_⟩⟩
  · exact endsWithFault_of_body (by simp) (insertBody_outside Nat.one_pos h)
  · exact endsWithSignal_of_body (by simp) (insertBody_short Nat.one_pos h hv)
  · rintro h hv old rfl
    refine ⟨fun hne hle => ?_, fun hord hhead hprev => ?_⟩
    · exact endsWithFault_of_body (by simp) (insertBody_one_order h hv hne hle)
    · refine ⟨_, exec_insert_done h hv hord, rfl, ?_, fun i hi => ?_, ?_, fun i hi => ?_⟩
      · rw [respond_prev, setResult_prev, Memory.read_write hprev, prevIndex_eq_mod_two_pow, if_pos rfl]
      · rw [respond_prev, setResult_prev, Memory.read_write hprev, prevIndex_eq_mod_two_pow, if_neg hi]
      · rw [respond_head, setResult_head, Memory.read_write hhead, if_pos rfl]
      · rw [respond_head, setResult_head, Memory.read_write hhead, if_neg hi]

/-- Settles O39: a run of no positions is the query, which checks nothing. -/
theorem queryReturnsTheChainLink : Obligations.QueryReturnsTheChainLink := by
  unfold Obligations.QueryReturnsTheChainLink
  refine fun s str => ⟨rfl, ?_⟩
  rw [← prevIndex_eq_mod_two_pow]
  exact endsWithResult_of_body (by simp) insertBody_query

end Sys2Proof.Machine
end

section
/-! The match finder (42_match_finder.md R140 to R152): what CMP258 returns, where LMATCH's loop goes on and where it
ends, and what the command leaves. -/
namespace Sys2Proof.Machine

/-! ## CMP258 (R152) -/

section Compare
variable {w : Window} {s : State} {a b : Nat}

theorem matchLen_comm (w : Window) (a b : Nat) : matchLen w a b = matchLen w b a :=
  matchLen_eq_iff.mpr ⟨matchLen_le, fun _ h => (matchLen_agree h).symm, fun h => (matchLen_differ h).symm⟩

theorem matchLen_self (w : Window) (a : Nat) : matchLen w a a = Config.maxMatch :=
  matchLen_eq_iff.mpr ⟨le_rfl, fun _ _ => rfl, fun h => absurd h (lt_irrefl _)⟩

theorem toNat_ofNat_matchLen (w : Window) (a b : Nat) : (BitVec.ofNat 32 (matchLen w a b)).toNat = matchLen w a b := by
  have hle : matchLen w a b ≤ 258 := matchLen_le
  rw [BitVec.toNat_ofNat, Nat.mod_eq_of_lt (by omega)]

theorem cmp258Body_outside (h : s.cfg.winBytes < a + 258 ∨ s.cfg.winBytes < b + 258) :
    cmp258Body a b s = .fault .errAddr := if_pos h

theorem cmp258Body_done (ha : a + 258 ≤ s.cfg.winBytes) (hb : b + 258 ≤ s.cfg.winBytes) :
    cmp258Body a b s = doneWith (BitVec.ofNat 32 (matchLen s.win a b)) s :=
  if_neg (not_or.mpr ⟨Nat.not_lt.mpr ha, Nat.not_lt.mpr hb⟩)

end Compare

/-- Settles O43: where both extents fit, CMP258 answers the compare's length, which the agreement below it and the
difference at it name. -/
theorem cmp258CountsTheAgreeingPrefix : Obligations.Cmp258CountsTheAgreeingPrefix := by
  unfold Obligations.Cmp258CountsTheAgreeingPrefix
  refine ⟨fun b a => decode_encode (.cmp258 a b), fun s a b => ⟨fun h => ?_, fun ha hb => ?_⟩, matchLen_comm⟩
  · exact endsWithFault_of_body (by simp) (cmp258Body_outside h)
  · refine ⟨_, endsWithResult_of_body (by simp) (cmp258Body_done ha hb), ?_⟩
    rw [toNat_ofNat_matchLen]
    refine ⟨matchLen_le, fun i hi => matchLen_agree hi, matchLen_differ, fun hab => ?_⟩
    rw [hab, matchLen_self]
    rfl

/-! ## One iteration of the loop (R144): where it stops and where it goes on -/

section Loop
variable {q : SearchSetup} {n cur bound best ms : Nat} {found : Bool}

theorem searchLoop_limit (h : cur ≤ q.limit) :
    searchLoop q n cur bound best ms found = some (Search.stopped best ms found .limit) := by
  cases n <;> rw [searchLoop, if_pos h]

theorem searchLoop_budget (h : q.limit < cur) :
    searchLoop q 0 cur bound best ms found = some (Search.stopped best ms found .budget) := by
  rw [searchLoop, if_neg (Nat.not_le.mpr h)]

theorem searchLoop_chain (h : q.limit < cur) (hb : bound ≤ cur) :
    searchLoop q (n + 1) cur bound best ms found = none := by
  rw [searchLoop, if_neg (Nat.not_le.mpr h), if_pos hb]

/-- The candidate is examined and the search ends with it: an improvement of `nice` bytes, or none at a low level. -/
theorem searchLoop_last {stop : StopReason} (h : q.limit < cur) (hb : cur < bound)
    (hstop : best < matchLen q.win q.ss cur ∧ q.nice ≤ matchLen q.win q.ss cur ∧ stop = .nice ∨
      matchLen q.win q.ss cur ≤ best ∧ q.low = true ∧ stop = .noImprove) :
    searchLoop q (n + 1) cur bound best ms found =
      some ((Search.stopped (max best (matchLen q.win q.ss cur)) (if best < matchLen q.win q.ss cur then cur else ms)
        (found || decide (best < matchLen q.win q.ss cur)) stop).afterExamining cur) := by
  rw [searchLoop, if_neg (Nat.not_le.mpr h), if_neg (Nat.not_le.mpr hb)]
  obtain ⟨hlt, hnice, rfl⟩ | ⟨hle, hlow, rfl⟩ := hstop
  · simp [hlt, hnice, hlt.le]
  · simp [hle, hlow, Nat.not_lt.mpr hle]

/-- The candidate is examined and the search goes on to the one it links to. -/
theorem searchLoop_next (h : q.limit < cur) (hb : cur < bound)
    (hgo : best < matchLen q.win q.ss cur ∧ matchLen q.win q.ss cur < q.nice ∨
      matchLen q.win q.ss cur ≤ best ∧ q.low = false) :
    searchLoop q (n + 1) cur bound best ms found =
      (searchLoop q n (q.link cur) cur (max best (matchLen q.win q.ss cur))
        (if best < matchLen q.win q.ss cur then cur else ms)
        (found || decide (best < matchLen q.win q.ss cur))).map (Search.afterExamining cur) := by
  rw [searchLoop, if_neg (Nat.not_le.mpr h), if_neg (Nat.not_le.mpr hb)]
  obtain ⟨hlt, hnice⟩ | ⟨hle, hlow⟩ := hgo
  · simp [hlt, Nat.not_le.mpr hnice, hlt.le]
  · simp [hle, hlow, Nat.not_lt.mpr hle]

end Loop

/-! ## The loop along the chain -/

section Chain
variable {s : State} {cur n v : Nat} {stop : StopReason}

/-- `MATCH_START` once the first `k` positions are examined. -/
def State.matchStartAfter (s : State) (cur : Nat) : Nat → Nat
  | 0 => s.regs.matchStart.toNat
  | k + 1 => if s.bestAfter cur k < s.chainLen cur k then s.chainAt cur k else s.matchStartAfter cur k

/-- Whether one of the first `k` positions has been accepted. -/
def State.foundAfter (s : State) (cur k : Nat) : Bool := decide (s.regs.prevLength.toNat < s.bestAfter cur k)

/-- The first `k` positions on the chain from `cur`, in the order they are examined. -/
def State.examinedAfter (s : State) (cur k : Nat) : List Nat := (List.range k).map (s.chainAt cur)

/-- The search that has examined the first `k` positions and ends there, for the reason `stop`. -/
def State.searchAfter (s : State) (cur k : Nat) (stop : StopReason) : Search :=
  { best := s.bestAfter cur k, matchStart := s.matchStartAfter cur k, found := s.foundAfter cur k, stop := stop,
    examined := s.examinedAfter cur k }

/-- The rest of the search once the first `k` positions are examined. -/
def State.searchFrom (s : State) (cur k : Nat) : Option Search :=
  searchLoop s.searchSetup (s.searchBudget - k) (s.chainAt cur k) (s.chainBound cur k) (s.bestAfter cur k)
    (s.matchStartAfter cur k) (s.foundAfter cur k)

/-- Position number `k` is examined and the search goes on. -/
def State.GoesOnPast (s : State) (cur k : Nat) : Prop :=
  s.searchLimit < s.chainAt cur k ∧ s.chainAt cur k < s.chainBound cur k ∧ k < s.searchBudget ∧
    (s.bestAfter cur k < s.chainLen cur k ∧ s.chainLen cur k < s.searchNice ∨
      s.chainLen cur k ≤ s.bestAfter cur k ∧ s.searchLow = false)

/-- The search has also examined the positions `l`, before what it went on to examine. -/
def Search.afterExaminingAll (l : List Nat) (r : Search) : Search := { r with examined := l ++ r.examined }

theorem bestAfter_lt_iff : s.bestAfter cur n < v ↔ s.regs.prevLength.toNat < v ∧ ∀ j < n, s.chainLen cur j < v := by
  induction n with
  | zero => simp [State.bestAfter]
  | succ n ih => rw [State.bestAfter, max_lt_iff, ih, Nat.forall_lt_succ_right, and_assoc]

theorem prevLength_le_bestAfter : s.regs.prevLength.toNat ≤ s.bestAfter cur n :=
  Nat.le_of_lt_succ (bestAfter_lt_iff.mp (Nat.lt_succ_self _)).1

theorem chainLen_le_bestAfter {k : Nat} (h : k < n) : s.chainLen cur k ≤ s.bestAfter cur n :=
  Nat.le_of_lt_succ ((bestAfter_lt_iff.mp (Nat.lt_succ_self _)).2 k h)

theorem foundAfter_succ :
    s.foundAfter cur (n + 1) = (s.foundAfter cur n || decide (s.bestAfter cur n < s.chainLen cur n)) := by
  have hle := prevLength_le_bestAfter (s := s) (cur := cur) (n := n)
  rw [State.foundAfter, State.foundAfter, State.bestAfter, ← Bool.decide_or]
  exact decide_eq_decide.mpr (by omega)

theorem matchStartAfter_of_not_found (h : s.bestAfter cur n = s.regs.prevLength.toNat) :
    s.matchStartAfter cur n = s.regs.matchStart.toNat := by
  induction n with
  | zero => rfl
  | succ n ih =>
    have hle := prevLength_le_bestAfter (s := s) (cur := cur) (n := n)
    rw [State.bestAfter] at h
    rw [State.matchStartAfter, if_neg (by omega), ih (by omega)]

/-- The first position that attains the best length is the last one accepted. -/
theorem matchStartAfter_of_first {k : Nat} (hk : k < n) (hp : s.regs.prevLength.toNat < s.chainLen cur k)
    (heq : s.chainLen cur k = s.bestAfter cur n) (hfirst : ∀ j < k, s.chainLen cur j < s.bestAfter cur n) :
    s.matchStartAfter cur n = s.chainAt cur k := by
  induction n with
  | zero => exact absurd hk (Nat.not_lt_zero k)
  | succ n ih =>
    rw [State.matchStartAfter]
    rw [State.bestAfter] at heq hfirst
    obtain hkn | rfl := Nat.lt_succ_iff_lt_or_eq.mp hk
    · have hle := chainLen_le_bestAfter (s := s) (cur := cur) hkn
      have hmax : max (s.bestAfter cur n) (s.chainLen cur n) = s.bestAfter cur n := by omega
      rw [hmax] at heq hfirst
      rw [if_neg (by omega), ih hkn heq hfirst]
    · exact if_pos (bestAfter_lt_iff.mpr ⟨hp, heq ▸ hfirst⟩)

theorem chainAt_lt (cur : Word) (k : Nat) : s.chainAt cur.toNat k < 2 ^ 32 := by
  cases k with
  | zero => exact cur.isLt
  | succ k => exact BitVec.isLt _

theorem searchFrom_of_goesOn (h : s.GoesOnPast cur n) :
    s.searchFrom cur n = (s.searchFrom cur (n + 1)).map (Search.afterExamining (s.chainAt cur n)) := by
  obtain ⟨hlimit, hbound, hbudget, hgo⟩ := h
  rw [State.searchFrom, State.searchFrom, foundAfter_succ,
    show s.searchBudget - n = s.searchBudget - (n + 1) + 1 by omega]
  exact searchLoop_next hlimit hbound hgo

theorem examinedAfter_succ : s.examinedAfter cur (n + 1) = s.examinedAfter cur n ++ [s.chainAt cur n] := by
  simp [State.examinedAfter, List.range_succ]

/-- Where the search goes on past its first `n` positions, it is what is left of it then, those positions examined. -/
theorem search_eq_searchFrom (h : ∀ k < n, s.GoesOnPast cur k) :
    s.search cur = (s.searchFrom cur n).map (Search.afterExaminingAll (s.examinedAfter cur n)) := by
  induction n with
  | zero =>
    have hfound : s.foundAfter cur 0 = false := decide_eq_false (lt_irrefl _)
    rw [State.searchFrom, hfound]
    exact (congrFun Option.map_id _).symm
  | succ n ih =>
    rw [Nat.forall_lt_succ_right] at h
    rw [ih h.1, searchFrom_of_goesOn h.2, Option.map_map, examinedAfter_succ]
    congr 1
    funext r
    simp [Search.afterExaminingAll, Search.afterExamining]

/-! The ways a search ends after it has gone on past its first `n` positions (R144, R145). -/

section Ends
variable (h : ∀ k < n, s.GoesOnPast cur k)
include h

theorem search_chain (hlimit : s.searchLimit < s.chainAt cur n) (hbudget : n < s.searchBudget)
    (hbound : s.chainBound cur n ≤ s.chainAt cur n) : s.search cur = none := by
  rw [search_eq_searchFrom h, State.searchFrom, show s.searchBudget - n = s.searchBudget - (n + 1) + 1 by omega,
    searchLoop_chain hlimit hbound, Option.map_none]

theorem search_limit (hlimit : s.chainAt cur n ≤ s.searchLimit) :
    s.search cur = some (s.searchAfter cur n .limit) := by
  rw [search_eq_searchFrom h, State.searchFrom, searchLoop_limit hlimit]
  simp [Search.afterExaminingAll, Search.stopped, State.searchAfter]

theorem search_budget (hlimit : s.searchLimit < s.chainAt cur n) (hbudget : n = s.searchBudget) :
    s.search cur = some (s.searchAfter cur n .budget) := by
  rw [search_eq_searchFrom h, State.searchFrom, ← hbudget, Nat.sub_self, searchLoop_budget hlimit]
  simp [Search.afterExaminingAll, Search.stopped, State.searchAfter]

/-- Position `n` is the last one examined. -/
theorem search_last (hlimit : s.searchLimit < s.chainAt cur n) (hbound : s.chainAt cur n < s.chainBound cur n)
    (hbudget : n < s.searchBudget)
    (hstop : s.bestAfter cur n < s.chainLen cur n ∧ s.searchNice ≤ s.chainLen cur n ∧ stop = .nice ∨
      s.chainLen cur n ≤ s.bestAfter cur n ∧ s.searchLow = true ∧ stop = .noImprove) :
    s.search cur = some (s.searchAfter cur (n + 1) stop) := by
  rw [search_eq_searchFrom h, State.searchFrom, show s.searchBudget - n = s.searchBudget - (n + 1) + 1 by omega,
    searchLoop_last hlimit hbound hstop, Option.map_some, State.searchAfter, foundAfter_succ, examinedAfter_succ]
  rfl

end Ends

end Chain

/-! ## LMATCH (R144) -/

section Lmatch
variable {s : State} {cur : Word} {r : Search}

theorem searchBudget_eq (s : State) : s.searchBudget =
    if s.regs.goodMatch.toNat ≤ s.regs.prevLength.toNat then s.regs.maxChain.toNat / 2 else s.regs.maxChain.toNat := by
  rw [State.searchBudget, Nat.shiftRight_eq_div_pow, pow_one]

theorem searchLimit_eq (s : State) : s.searchLimit = s.regs.strstart.toNat - 2 ^ s.regs.wbits.toNat := by
  unfold State.searchLimit State.wsize
  split <;> omega

theorem searchLow_eq_true_iff : s.searchLow = true ↔ s.regs.level.toNat < s.regs.earlyLevel.toNat := decide_eq_true_iff

theorem searchLow_eq_false_iff : s.searchLow = false ↔ s.regs.earlyLevel.toNat ≤ s.regs.level.toNat :=
  decide_eq_false_iff_not.trans Nat.not_lt

/-- The state LMATCH leaves where its search ends with `r`. -/
def State.afterSearch (s : State) (r : Search) : State :=
  respond .ok ((s.recordSearch r).setResult (BitVec.ofNat 32 (min r.best s.regs.lookahead.toNat)))

theorem exec_lmatch_done (hfit : s.regs.strstart.toNat + 258 ≤ s.cfg.winBytes) (hs : s.search cur.toNat = some r) :
    exec (.lmatch cur) s = .next (s.afterSearch r) := by
  rw [exec_eq_finish (by simp), commandBody, lmatchBody_done hfit hs]
  rfl

@[simp] theorem afterSearch_response (s : State) (r : Search) : (s.afterSearch r).response = some .ok := rfl

@[simp] theorem afterSearch_status (s : State) (r : Search) :
    (s.afterSearch r).regs.status = Status.recordSearch r.found r.stop s.regs.status := rfl

@[simp] theorem afterSearch_matchStart (s : State) (r : Search) :
    (s.afterSearch r).regs.matchStart = BitVec.ofNat 32 r.matchStart := rfl

@[simp] theorem toNat_afterSearch_result (s : State) (r : Search) :
    (s.afterSearch r).regs.result.toNat = min r.best s.regs.lookahead.toNat := by
  have hlt := s.regs.lookahead.isLt
  exact (BitVec.toNat_ofNat _ _).trans (Nat.mod_eq_of_lt (by omega))

/-- A search changes nothing but `RESULT`, `MATCH_START`, `STATUS` and `SEQ`. -/
theorem afterSearch_frame (s : State) (r : Search) : s.afterSearch r =
    { s with regs := { s.regs with result := (s.afterSearch r).regs.result, matchStart := (s.afterSearch r).regs.matchStart,
                                   status := (s.afterSearch r).regs.status, seq := s.regs.seq + 1 },
             response := some .ok } := rfl

end Lmatch

/-- Settles O46: the search is what is left of it after its first `n` positions, and each of the five ends the rule names
is one iteration of the loop there. -/
theorem lmatchWalksTheChainAsTheRuleSays : Obligations.LmatchWalksTheChainAsTheRuleSays := by
  unfold Obligations.LmatchWalksTheChainAsTheRuleSays
  refine ⟨fun a => decode_encode (.lmatch a), fun b a => rejectedWord_of_oneOperand a (by decide),
    fun s cur => ⟨fun hout => endsWithFault_of_body (by simp) (lmatchBody_outside hout), ?_⟩⟩
  intro budget limit nice n hfit hbudget hlimit hnice hgo
  rw [← searchBudget_eq] at hbudget
  rw [← searchLimit_eq] at hlimit
  subst hbudget hlimit hnice
  simp only [← searchLow_eq_true_iff, ← searchLow_eq_false_iff] at hgo ⊢
  refine ⟨fun hl hb hc => endsWithFault_of_body (by simp) (lmatchBody_chain hfit (search_chain hgo hl hb hc)),
    fun stop m hend => ?_⟩
  have hsearch : ∃ r : StopReason, r.number = stop ∧ s.search cur.toNat = some (s.searchAfter cur.toNat m r) := by
    obtain ⟨hl, rfl, rfl⟩ | ⟨hl, hb, rfl, rfl⟩ | ⟨hl, hc, hb, rfl, ⟨hlt, hn, rfl⟩ | ⟨hle, hlow, rfl⟩⟩ := hend
    · exact ⟨.limit, rfl, search_limit hgo hl⟩
    · exact ⟨.budget, rfl, search_budget hgo hl hb⟩
    · exact ⟨.nice, rfl, search_last hgo hl hc hb (.inl ⟨hlt, hn, rfl⟩)⟩
    · exact ⟨.noImprove, rfl, search_last hgo hl hc hb (.inr ⟨hle, hlow, rfl⟩)⟩
  obtain ⟨r, rfl, hs⟩ := hsearch
  refine ⟨_, exec_lmatch_done hfit hs, afterSearch_frame _ _, by simp, by simp, by simp, by simp [State.searchAfter],
    by simp [State.searchAfter], by simp [State.searchAfter, State.foundAfter], fun hbest => ?_,
    fun k hk hp heq hfirst => ?_⟩
  · simp [State.searchAfter, matchStartAfter_of_not_found hbest]
  · rw [afterSearch_matchStart, State.searchAfter, matchStartAfter_of_first hk hp heq hfirst, BitVec.toNat_ofNat,
      Nat.mod_eq_of_lt (chainAt_lt cur k)]

/-- Settles O47: `NIL` is at or below every limit, so the search ends with LIMIT before its first position. -/
theorem emptyChainYieldsTheKnownLength : Obligations.EmptyChainYieldsTheKnownLength := by
  unfold Obligations.EmptyChainYieldsTheKnownLength
  intro s hfit
  have hs : s.search (0 : Word).toNat = some (s.searchAfter (0 : Word).toNat 0 .limit) :=
    search_limit (fun _ hk => absurd hk (Nat.not_lt_zero _)) (Nat.zero_le _)
  refine ⟨_, exec_lmatch_done hfit hs, rfl, toNat_afterSearch_result _ _, ?_, ?_, ?_, ?_⟩
  · simp [State.searchAfter, State.matchStartAfter]
  · simp [State.searchAfter, State.foundAfter, State.bestAfter]
  · simp [State.searchAfter, StopReason.number]
  · rw [toNat_afterSearch_result]
    exact min_lt_iff

end Sys2Proof.Machine
end

section
/-! The copy engine (43_copy_engine.md R161 to R166): the byte-serial copy in closed form, the checks COPY and COPYS share,
and what a completed copy leaves. -/
namespace Sys2Proof.Machine

/-! ## The bytes a copy leaves -/

section Windows
variable {w : Window} {dist len out a b i k n : Nat}

/-- The closed form of R161: each byte is the one `dist` behind it, down to the `dist` bytes before `out`, which the copy
does not write. -/
theorem read_serialCopy_eq_pattern (h : w.wf) (hd : 1 ≤ dist) (hdo : dist ≤ out) (hi : i < len) :
    (serialCopy dist len out w).read (out + i) = w.read (out - dist + i % dist) := by
  induction i using Nat.strong_induction_on with
  | _ i ih =>
    rw [read_serialCopy_recur h hd hdo hi]
    by_cases hlt : i < dist
    · rw [read_serialCopy_outside h (by omega), Nat.mod_eq_of_lt hlt]
      congr 1
      omega
    · rw [Nat.add_sub_assoc (Nat.le_of_not_lt hlt), ih (i - dist) (by omega) (by omega),
        Nat.mod_eq_sub_mod (Nat.le_of_not_lt hlt)]

theorem Window.read_unspecify_outside (h : w.wf) (hb : b < a ∨ a + n ≤ b) : (w.unspecify k a n).read b = w.read b := by
  rw [Window.read_unspecify h, if_neg (by omega)]

theorem Window.lookup_free_unspecify : lookup b (w.unspecify k a n).free =
    if a ≤ b ∧ b < a + n then some (k + (b - a)) else lookup b w.free := by
  induction n generalizing w a k with
  | zero => rw [if_neg (by omega), Window.unspecify]
  | succ n ih =>
    rw [Window.unspecify, ih, lookup_insertAt]
    by_cases hb : b = a
    · subst hb
      simp
    · have hiff : a + 1 ≤ b ∧ b < a + 1 + n ↔ a ≤ b ∧ b < a + (n + 1) := by omega
      simp only [hiff, if_neg hb]
      split_ifs
      · congr 1
        omega
      · rfl

theorem Window.mem_free_unspecify (hi : i < n) : (a + i, k + i) ∈ (w.unspecify k a n).free := by
  refine lookup_mem ?_
  rw [Window.lookup_free_unspecify, if_pos (by omega), Nat.add_sub_cancel_left]

end Windows

/-! ## The checks (R163, R164) -/

section Checks
variable {s : State} {len : Word} {dist : Field24}

theorem toNat_eq_zero_iff : dist.toNat = 0 ↔ dist = 0 := BitVec.toNat_inj (y := 0)

/-- How a command ends that makes the checks COPY and COPYS share and then goes on as `rest`. -/
theorem endsWith_of_copyChecks {i : Instr} {rest : Completion} (hi : i ≠ .reset)
    (hb : commandBody i s = if dist.toNat = 0 then .fault .errValue else if s.regs.out.toNat < dist.toNat then .fault .errAddr
      else if s.left < len.toNat then .signal .needOutput
      else if s.cfg.winBytes < s.regs.out.toNat + len.toNat then .fault .errAddr else rest) :
    (dist = 0 → EndsWithFault i s .errValue) ∧
    (dist ≠ 0 → s.regs.out.toNat < dist.toNat → EndsWithFault i s .errAddr) ∧
    (dist ≠ 0 → dist.toNat ≤ s.regs.out.toNat → s.left < len.toNat → EndsWithSignal i s .needOutput) ∧
    (dist ≠ 0 → dist.toNat ≤ s.regs.out.toNat → len.toNat ≤ s.left →
      s.cfg.winBytes < s.regs.out.toNat + len.toNat → EndsWithFault i s .errAddr) := by
  simp only [toNat_eq_zero_iff] at hb
  refine ⟨fun hd => endsWithFault_of_body hi ?_, fun hd ho => endsWithFault_of_body hi ?_,
    fun hd ho hl => endsWithSignal_of_body hi ?_, fun hd ho hl hw => endsWithFault_of_body hi ?_⟩
  · rw [hb, if_pos hd]
  · rw [hb, if_neg hd, if_pos ho]
  · rw [hb, if_neg hd, if_neg (Nat.not_lt_of_le ho), if_pos hl]
  · rw [hb, if_neg hd, if_neg (Nat.not_lt_of_le ho), if_neg (Nat.not_lt_of_le hl), if_pos hw]

/-- The fifth check is COPY's own: where the bytes of the copy fit and the slack does not. -/
theorem copyBody_slackOutside {len dist : Nat} (hd : dist ≠ 0) (ho : dist ≤ s.regs.out.toNat) (hl : len ≤ s.left)
    (hreg : s.chunkedRegime len = true) (hw : s.cfg.winBytes < s.regs.out.toNat + len + s.cfg.chunk) :
    copyBody len dist s = .fault .errAddr := by
  unfold copyBody
  dsimp only
  rw [if_neg hd, if_neg (Nat.not_lt_of_le ho), if_neg (Nat.not_lt_of_le hl), if_pos hreg, if_pos hw, ite_self]

end Checks

/-! ## The state a completed copy leaves -/

section Completed
variable {s : State} {len : Word} {dist : Field24}

/-- The state a copy leaves that ends at `out`, with the window and the counter of free draws it has made. -/
def State.afterCopy (s : State) (out : Nat) (win : Window) (draws : Nat) : State :=
  respond .ok (({ s with win := win, draws := draws }.setOut out).setResult (BitVec.ofNat 32 out))

@[simp] theorem afterCopy_win (s : State) (out : Nat) (win : Window) (draws : Nat) :
    (s.afterCopy out win draws).win = win := rfl

@[simp] theorem afterCopy_draws (s : State) (out : Nat) (win : Window) (draws : Nat) :
    (s.afterCopy out win draws).draws = draws := rfl

/-- A copy changes nothing but the window, the counter of free draws, `OUT`, `RESULT` and `SEQ`. -/
theorem afterCopy_frame (s : State) (out : Nat) (win : Window) (draws : Nat) : s.afterCopy out win draws =
    { s with regs := { s.regs with out := (s.afterCopy out win draws).regs.out,
                                   result := (s.afterCopy out win draws).regs.out, seq := s.regs.seq + 1 },
             win := win, draws := draws, response := some .ok } := rfl

/-- In a legal implementation every address in `WIN`, and the one after the last, fits a register (00_scope.md R6). -/
theorem toNat_afterCopy_out (hc : s.cfg.Legal) {out : Nat} (h : out ≤ s.cfg.winBytes) (win : Window) (draws : Nat) :
    (s.afterCopy out win draws).regs.out.toNat = out := by
  obtain ⟨-, -, -, -, -, -, hwin⟩ := hc
  exact (BitVec.toNat_ofNat _ _).trans (Nat.mod_eq_of_lt (by omega))

variable (hd : dist.toNat ≠ 0) (ho : dist.toNat ≤ s.regs.out.toNat) (hl : len.toNat ≤ s.left)
include hd ho hl

theorem exec_copys_done (hw : s.regs.out.toNat + len.toNat ≤ s.cfg.winBytes) :
    exec (.copys len dist) s = .next (s.afterCopy (s.regs.out.toNat + len.toNat)
      (serialCopy dist.toNat len.toNat s.regs.out.toNat s.win) s.draws) := by
  rw [exec_eq_finish (by simp), commandBody, copysBody_done hd ho hl hw]
  rfl

theorem exec_copy_serial (hw : s.regs.out.toNat + len.toNat ≤ s.cfg.winBytes)
    (hreg : ¬ s.chunkedRegime len.toNat = true) :
    exec (.copy len dist) s = .next (s.afterCopy (s.regs.out.toNat + len.toNat)
      (serialCopy dist.toNat len.toNat s.regs.out.toNat s.win) s.draws) := by
  rw [exec_eq_finish (by simp), commandBody, copyBody_serial hd ho hl hw hreg]
  rfl

theorem exec_copy_chunked (hw : s.regs.out.toNat + len.toNat + s.cfg.chunk ≤ s.cfg.winBytes)
    (hreg : s.chunkedRegime len.toNat = true) :
    exec (.copy len dist) s = .next (s.afterCopy (s.regs.out.toNat + len.toNat)
      ((serialCopy dist.toNat len.toNat s.regs.out.toNat s.win).unspecify s.draws (s.regs.out.toNat + len.toNat) s.cfg.chunk)
      (s.draws + s.cfg.chunk)) := by
  rw [exec_eq_finish (by simp), commandBody, copyBody_chunked hd ho hl hw hreg]
  rfl

end Completed

/-- Settles O55: past the shared checks COPYS is the byte-serial copy, which has a closed form inside `[OUT, OUT+len)` and
writes nothing outside it. -/
theorem copysReplicatesThePatternExactly : Obligations.CopysReplicatesThePatternExactly := by
  unfold Obligations.CopysReplicatesThePatternExactly
  refine ⟨fun b a => decode_encode (.copys a b), fun s len dist => ?_⟩
  simp only [← left_eq]
  obtain ⟨hvalue, hsource, hbudget, hdest⟩ := endsWith_of_copyChecks (i := .copys len dist) (s := s) (by simp) rfl
  refine ⟨hvalue, hsource, hbudget, hdest, fun hc hwf hd ho hl hw => ?_⟩
  have hd' : dist.toNat ≠ 0 := mt toNat_eq_zero_iff.mp hd
  refine ⟨_, exec_copys_done hd' ho hl hw, afterCopy_frame _ _ _ _, toNat_afterCopy_out hc hw _ _,
    fun i hi => read_serialCopy_eq_pattern hwf (Nat.pos_of_ne_zero hd') ho hi,
    fun x hx => read_serialCopy_outside hwf hx, fun hpos x hx => read_serialCopy_outside hwf (.inr ?_)⟩
  rw [left_eq] at hl
  omega

/-- Settles O56: outside the chunked regime COPY is COPYS; in it the slack is checked as well, and becomes unspecified
after the same byte-serial copy. -/
theorem copyReplicatesThePatternUpToSlack : Obligations.CopyReplicatesThePatternUpToSlack := by
  unfold Obligations.CopyReplicatesThePatternUpToSlack
  refine ⟨fun b a => decode_encode (.copy a b), fun s len dist => ?_⟩
  simp only [← left_eq]
  obtain ⟨hvalue, hsource, hbudget, hdest⟩ := endsWith_of_copyChecks (i := .copy len dist) (s := s) (by simp) rfl
  refine ⟨hvalue, hsource, hbudget, hdest, fun hd ho hl h3 hpos hw => ?_, fun hc hwf hd ho hl hw hslack => ?_⟩
  · exact endsWithFault_of_body (by simp)
      (copyBody_slackOutside (mt toNat_eq_zero_iff.mp hd) ho hl (chunkedRegime_iff.mpr ⟨h3, hpos⟩) hw)
  have hd' : dist.toNat ≠ 0 := mt toNat_eq_zero_iff.mp hd
  have hinside {i : Nat} (hi : i < len.toNat) := read_serialCopy_eq_pattern hwf (Nat.pos_of_ne_zero hd') ho hi
  by_cases hreg : s.chunkedRegime len.toNat = true
  · obtain ⟨h3, hpos⟩ := chunkedRegime_iff.mp hreg
    have hwf' : (serialCopy dist.toNat len.toNat s.regs.out.toNat s.win).wf := serialCopy_wf hwf
    refine ⟨_, exec_copy_chunked hd' ho hl (hslack h3 hpos) hreg, afterCopy_frame _ _ _ _, toNat_afterCopy_out hc hw _ _,
      fun i hi => ?_, fun x hx => ?_, fun hexact => ?_, fun _ _ k hk => ⟨_, Window.mem_free_unspecify hk⟩⟩
    · rw [afterCopy_win, Window.read_unspecify_outside hwf' (by omega), hinside hi]
    · rw [afterCopy_win, Window.read_unspecify_outside hwf' (by omega), read_serialCopy_outside hwf (by omega)]
    · obtain hlt | rfl := hexact
      · omega
      · exact absurd hpos (by decide)
  · refine ⟨_, exec_copy_serial hd' ho hl hw hreg, afterCopy_frame _ _ _ _, toNat_afterCopy_out hc hw _ _,
      fun i hi => hinside hi, fun x hx => read_serialCopy_outside hwf (by omega),
      fun _ => ⟨rfl, fun x hx => read_serialCopy_outside hwf (.inr hx)⟩, fun h3 hpos => ?_⟩
    exact absurd (chunkedRegime_iff.mpr ⟨h3, hpos⟩) hreg

end Sys2Proof.Machine
end

section
/-! How a command that does not complete ends (60_exceptions.md R193, R194), and that no command but GETR reads what the
ends of the commands before it have left: `STATUS`, `SEQ` and the last response. -/
namespace Sys2Proof.Machine

/-! ## The ways a command ends -/

section Endings
variable {i : Instr} {s t : State}

/-- A command that has not completed is no RESET, and its response says how its pseudocode ended. -/
theorem exec_eq_finish_of_response {c : Code} (h : exec i s = .next t) (hc : t.response = some c) (hok : c ≠ .ok) :
    i ≠ .reset ∧ t = finish s (commandBody i s) ∧ (commandBody i s).code = c := by
  have hi : i ≠ .reset := by
    rintro rfl
    cases h
    exact hok (Option.some.inj hc).symm
  rw [exec_eq_finish hi] at h
  cases h
  rw [finish_response] at hc
  exact ⟨hi, rfl, Option.some.inj hc⟩

theorem Completion.code_eq_signal {k : Completion} {c : Signal} (h : k.code = .signal c) : k = .signal c := by
  cases k <;> cases h
  rfl

theorem Completion.code_eq_fault {k : Completion} {c : FaultCode} (h : k.code = .fault c) : k = .fault c := by
  cases k <;> cases h
  rfl

theorem eq_takeFault_of_response {c : FaultCode} (h : exec i s = .next t) (hc : t.response = some (.fault c)) :
    t = takeFault c s := by
  obtain ⟨-, ht, hcode⟩ := exec_eq_finish_of_response h hc (by simp)
  rw [ht, Completion.code_eq_fault hcode, finish_fault]

theorem eq_takeSignal_of_response {c : Signal} (h : exec i s = .next t) (hc : t.response = some (.signal c)) :
    i ≠ .reset ∧ commandBody i s = .signal c ∧ t = takeSignal c s := by
  obtain ⟨hi, ht, hcode⟩ := exec_eq_finish_of_response h hc (by simp)
  have hbody := Completion.code_eq_signal hcode
  exact ⟨hi, hbody, by rw [ht, hbody, finish_signal]⟩

theorem responseWord_takeSignal (c : Signal) (s : State) :
    (takeSignal c s).responseWord = some ((Code.signal c).number ++ s.regs.result) := rfl

theorem commandBody_done_fcode (h : commandBody i s = .done t) :
    Status.fcode t.regs.status = Status.fcode s.regs.status := by
  obtain hst | ⟨_, r, -, hst⟩ := commandBody_done_status h
  · rw [hst]
  · rw [hst, fcode_recordSearch]

/-- `STATUS.FCODE` keeps the code of the first fault since reset (60_exceptions.md R194). -/
theorem exec_fcode_sticky (hi : i ≠ .reset) (h : exec i s = .next t) (hs : Status.fault s.regs.status = true) :
    Status.fcode t.regs.status = Status.fcode s.regs.status := by
  rw [exec_eq_finish hi] at h
  cases h
  match hk : commandBody i s with
  | .done u => rw [finish_done, respond_status, commandBody_done_fcode hk]
  | .signal c => rw [finish_signal, takeSignal_status]
  | .fault c => rw [finish_fault, takeFault_status, recordFault_later _ c hs]

/-- GETR and LMATCH end with no signal (60_exceptions.md R195). -/
theorem not_getr_not_lmatch_of_signal {c : Signal} (h : commandBody i s = .signal c) :
    (∀ reg, i ≠ .getr reg) ∧ ∀ cur, i ≠ .lmatch cur := by
  constructor
  · rintro reg rfl
    change getrBody reg s = _ at h
    unfold getrBody at h
    split at h <;> cases h
  · rintro cur rfl
    change lmatchBody cur.toNat s = _ at h
    unfold lmatchBody at h
    split at h
    · cases h
    · split at h <;> cases h

end Endings

/-! ## What a command does not read -/

/-- The same ending, with the state of a completion changed. -/
def Completion.map (f : State → State) : Completion → Completion
  | .done s => .done (f s)
  | .signal c => .signal c
  | .fault c => .fault c

/-- The state with the fields changed that every end of a command may write: `STATUS`, `SEQ` and the last response. -/
def State.mapBookkeeping (f g : Word → Word) (h : Option Code → Option Code) (s : State) : State :=
  { s with regs := { s.regs with status := f s.regs.status, seq := g s.regs.seq }, response := h s.response }

section Bookkeeping
variable (f g : Word → Word) (h : Option Code → Option Code) (s : State)

theorem writeReg_mapBookkeeping (r : Reg) (v : Word) :
    (s.mapBookkeeping f g h).writeReg r v = (s.writeReg r v).mapBookkeeping f g h := by
  cases r <;> rfl

theorem setrBody_mapBookkeeping (reg : Field24) (value : Word) :
    setrBody reg value (s.mapBookkeeping f g h) = (setrBody reg value s).map (State.mapBookkeeping f g h) := by
  unfold setrBody
  cases Reg.ofNumber reg with
  | none => rfl
  | some r =>
    simp only [apply_ite (Completion.map _), writeReg_mapBookkeeping]
    rfl

@[simp] theorem mapBookkeeping_head : (s.mapBookkeeping f g h).head = s.head := rfl
@[simp] theorem mapBookkeeping_prev : (s.mapBookkeeping f g h).prev = s.prev := rfl

theorem insertRun_mapBookkeeping (n p : Nat) (t : IndexRun) :
    insertRun (s.mapBookkeeping f g h) n p t = insertRun s n p t := by
  induction n generalizing p t with
  | zero => rfl
  | succ n ih =>
    have hone : insertOne (s.mapBookkeeping f g h) p t = insertOne s p t := rfl
    simp only [insertRun, hone, ih]

theorem insertBody_mapBookkeeping (str count : Nat) :
    insertBody str count (s.mapBookkeeping f g h) = (insertBody str count s).map (State.mapBookkeeping f g h) := by
  simp only [insertBody, insertRun_mapBookkeeping, mapBookkeeping_head, mapBookkeeping_prev,
    apply_ite (Completion.map _)]
  cases insertRun s count str { head := s.head, prev := s.prev, old := 0 } <;> rfl

theorem copyBody_mapBookkeeping (len dist : Nat) :
    copyBody len dist (s.mapBookkeeping f g h) = (copyBody len dist s).map (State.mapBookkeeping f g h) := by
  simp only [copyBody, apply_ite (Completion.map _)]
  rfl

theorem copysBody_mapBookkeeping (len dist : Nat) :
    copysBody len dist (s.mapBookkeeping f g h) = (copysBody len dist s).map (State.mapBookkeeping f g h) := by
  simp only [copysBody, apply_ite (Completion.map _)]
  rfl

variable {i : Instr}

/-- GETR apart, which reads registers, and LMATCH, which writes fields of `STATUS`, a command's pseudocode neither reads
nor writes what the ends of commands write. -/
theorem commandBody_mapBookkeeping (hg : ∀ reg, i ≠ .getr reg) (hl : ∀ cur, i ≠ .lmatch cur) :
    commandBody i (s.mapBookkeeping f g h) = (commandBody i s).map (State.mapBookkeeping f g h) := by
  cases i with
  | nop | reset | clear | slide => rfl
  | setr reg value => exact setrBody_mapBookkeeping f g h s reg value
  | getr reg => exact absurd rfl (hg reg)
  | stb | ldb | ldh | ldp | cmp258 =>
    simp only [commandBody, stbBody, ldbBody, ldhBody, ldpBody, cmp258Body, apply_ite (Completion.map _)]
    rfl
  | insert | insertn => exact insertBody_mapBookkeeping f g h s _ _
  | lmatch cur => exact absurd rfl (hl cur)
  | copy => exact copyBody_mapBookkeeping f g h s _ _
  | copys => exact copysBody_mapBookkeeping f g h s _ _

end Bookkeeping
/-! ## What `STATUS` says (60_exceptions.md R194) -/

/-- The state with another `STATUS`. -/
def State.withStatus (st : Word) (s : State) : State := s.mapBookkeeping (fun _ => st) id id

section Status
variable {i : Instr} (s : State) (st : Word)

theorem readReg_withStatus {r : Reg} (hr : r ≠ .status) : (s.withStatus st).readReg r = s.readReg r := by
  cases r with
  | status => exact absurd rfl hr
  | _ => rfl

theorem getrBody_withStatus {reg : Field24} (hreg : reg ≠ Reg.number .status) :
    getrBody reg (s.withStatus st) = (getrBody reg s).map (State.withStatus st) := by
  unfold getrBody
  match hr : Reg.ofNumber reg with
  | none => rfl
  | some r =>
    have hne : r ≠ .status := by
      rintro rfl
      exact hreg (number_of_ofNumber hr).symm
    simp only [readReg_withStatus s st hne]
    rfl

/-- LMATCH writes its two fields into the `STATUS` it finds. -/
theorem lmatchBody_withStatus (cur : Nat) :
    ∃ st', lmatchBody cur (s.withStatus st) = (lmatchBody cur s).map (State.withStatus st') := by
  have hsearch : (s.withStatus st).search cur = s.search cur := rfl
  by_cases hw : s.cfg.winBytes < s.regs.strstart.toNat + 258
  · exact ⟨st, by rw [lmatchBody_outside hw, lmatchBody_outside (s := s.withStatus st) hw]; rfl⟩
  have hw' := Nat.le_of_not_lt hw
  match hs : s.search cur with
  | none =>
    rw [lmatchBody_chain hw' hs, lmatchBody_chain (s := s.withStatus st) hw' (hsearch.trans hs)]
    exact ⟨st, rfl⟩
  | some r =>
    rw [lmatchBody_done hw' hs, lmatchBody_done (s := s.withStatus st) hw' (hsearch.trans hs)]
    exact ⟨Status.recordSearch r.found r.stop st, rfl⟩

theorem commandBody_withStatus (hi : i ≠ .getr (Reg.number .status)) :
    ∃ st', commandBody i (s.withStatus st) = (commandBody i s).map (State.withStatus st') := by
  cases i with
  | getr reg => exact ⟨st, getrBody_withStatus s st fun h => hi (h ▸ rfl)⟩
  | lmatch cur => exact lmatchBody_withStatus s st cur.toNat
  | _ => exact ⟨st, commandBody_mapBookkeeping _ _ _ s (by simp) (by simp)⟩

/-- A command that begins in another `STATUS` ends alike, `STATUS` apart. -/
theorem finish_withStatus (st' : Word) (k : Completion) :
    ∃ st'', finish (s.withStatus st) (k.map (State.withStatus st')) = (finish s k).withStatus st'' := by
  cases k with
  | done u => exact ⟨st', rfl⟩
  | signal c => exact ⟨st, rfl⟩
  | fault c => exact ⟨Status.recordFault c st, rfl⟩

theorem exec_withStatus (hi : i ≠ .getr (Reg.number .status)) :
    ∃ t st', exec i s = .next t ∧ exec i (s.withStatus st) = .next (t.withStatus st') := by
  by_cases hr : i = .reset
  · subst hr
    exact ⟨_, 0, exec_reset, rfl⟩
  obtain ⟨st', hbody⟩ := commandBody_withStatus s st hi
  obtain ⟨st'', hfinish⟩ := finish_withStatus s st st' (commandBody i s)
  exact ⟨_, st'', exec_eq_finish hr, by rw [exec_eq_finish hr, hbody, hfinish]⟩

end Status

/-- Settles O18: a fault is `takeFault`; where `FAULT` is set, only RESET changes it or the code; and another `STATUS` at
the start makes another `STATUS` at the end and nothing else. -/
theorem faultsArePreciseAndSticky : Obligations.FaultsArePreciseAndSticky := by
  unfold Obligations.FaultsArePreciseAndSticky
  refine ⟨fun i s t c h hc => ?_, fun i s t h hi hs => ⟨exec_fault_sticky hi h hs, exec_fcode_sticky hi h hs⟩,
    fun s w rest e hp hd => ?_, fun i s st hi => ?_⟩
  · rw [eq_takeFault_of_response h hc]
    exact ⟨faultLeaves_takeFault c s, responseWord_takeFault c s⟩
  · exact ⟨_, step_illegal hp hd, faultLeaves_takeFault _ _, responseWord_takeFault _ _⟩
  · obtain ⟨t, st', ht, ht'⟩ := exec_withStatus s st hi
    exact ⟨t, _, ht, ht', rfl⟩

/-! ## What a signal leaves (60_exceptions.md R193) -/

/-- The state a signal may have left behind: another `SEQ` and another last response. -/
def State.withSeqResponse (q : Word) (r : Option Code) (s : State) : State :=
  s.mapBookkeeping id (fun _ => q) (fun _ => r)

/-- A command that begins with another `SEQ` and last response ends alike, its own `SEQ` increment apart. -/
theorem finish_withSeqResponse (s : State) (k : Completion) (q : Word) (r : Option Code) :
    finish (s.withSeqResponse q r) (k.map (State.withSeqResponse q r)) =
      { finish s k with regs := { (finish s k).regs with seq := q + 1 } } := by
  cases k <;> rfl

/-- A command whose pseudocode can end with a signal does not read what the signal leaves. -/
theorem exec_withSeqResponse {i : Instr} (hi : i ≠ .reset) (hg : ∀ reg, i ≠ .getr reg) (hl : ∀ cur, i ≠ .lmatch cur)
    (s : State) (q : Word) (r : Option Code) : ∃ t, exec i s = .next t ∧
      exec i (s.withSeqResponse q r) = .next { t with regs := { t.regs with seq := q + 1 } } := by
  refine ⟨_, exec_eq_finish hi, ?_⟩
  have hbody : commandBody i (s.withSeqResponse q r) = (commandBody i s).map (State.withSeqResponse q r) :=
    commandBody_mapBookkeeping _ _ _ s hg hl
  rw [exec_eq_finish hi, hbody, finish_withSeqResponse]

/-- Settles O19: a signal is `takeSignal`, and the commands that can end with one read neither `SEQ` nor the last
response. -/
theorem signalsArePrecise : Obligations.SignalsArePrecise := by
  unfold Obligations.SignalsArePrecise
  intro i s t c h hc
  obtain ⟨hi, hbody, rfl⟩ := eq_takeSignal_of_response h hc
  obtain ⟨hg, hl⟩ := not_getr_not_lmatch_of_signal hbody
  exact ⟨rfl, responseWord_takeSignal c s, fun u q r => exec_withSeqResponse hi hg hl u q r⟩

end Sys2Proof.Machine
end

section
/-! The decoder as a whole (30_encoding.md R81 to R87): it is the encoder's inverse, it accepts what the prose accepts,
and the opcode table's masks and patterns say the same. -/
namespace Sys2Proof

/-- Settles O2: an instruction's fields decode to it, and what is accepted is an instruction's fields. -/
theorem decodeAndEncodeAreInverse : Obligations.DecodeAndEncodeAreInverse := by
  unfold Obligations.DecodeAndEncodeAreInverse
  exact ⟨Machine.decode_encode, fun w i => Machine.encode_of_decode_eq_ok⟩

/-! ## The decoder and the prose -/

theorem checkReserved_eq_error {opc : BitVec 8} {zero : Bool} {i : Instr} {e : DecodeError} :
    checkReserved opc zero i = .error e → zero = false := by
  cases zero <;> simp [checkReserved]

/-- An opcode that is in no row of R83's table is in one of R85's ranges. -/
theorem opcodeAssigned_eq_false_of_ne {c : Command}
    (h : ∀ opc ∈ [0x00#8, 0x01#8, 0x02#8, 0x03#8, 0x04#8, 0x05#8, 0x06#8, 0x10#8, 0x11#8, 0x12#8, 0x13#8, 0x20#8,
      0x21#8, 0x30#8, 0x31#8, 0x7F#8], c.opc ≠ opc) : c.opcodeAssigned = false := by
  refine Machine.opcodeAssigned_eq_false ?_
  simp only [List.forall_mem_cons, ne_eq, BitVec.toNat_eq, BitVec.toNat_ofNat] at h
  omega

/-- What the decoder rejects breaks the prose: in the opcode, or in a reserved field. -/
theorem wellFormed_eq_false_of_decode_eq_error {c : Command} {e : DecodeError} (h : c.decode = .error e) :
    c.wellFormed = false := by
  obtain ⟨opc, b, a⟩ := c
  unfold Command.decode at h
  dsimp only at h
  split at h
  -- the commands with no reserved field are never rejected; the unassigned opcodes; STB; the rest
  case h_2 | h_11 | h_13 | h_14 | h_15 => cases h
  case h_17 =>
    have hopc : (Command.mk opc b a).opcodeAssigned = false := opcodeAssigned_eq_false_of_ne (by simp; tauto)
    simp [Command.wellFormed, hopc]
  all_goals
    have hz := checkReserved_eq_error h
    simp only [Bool.and_eq_false_iff, beq_eq_false_iff_ne] at hz
    simp [Command.wellFormed, Command.noOperandsZero, Command.getrAZero, Command.oneOperandBZero, Command.stbHighZero]
    tauto

/-- Settles O4: an accepted word is an instruction's fields, which are well formed, and a rejected one breaks the prose. -/
theorem decoderAcceptsExactlyWellFormedWords : Obligations.DecoderAcceptsExactlyWellFormedWords := by
  unfold Obligations.DecoderAcceptsExactlyWellFormedWords
  intro w
  constructor
  · rintro ⟨i, hi⟩
    rw [← command_of_decode_eq_ok hi]
    exact wellFormed_command i
  · intro hw
    match hd : decode w with
    | .ok i => exact ⟨i, rfl⟩
    | .error e => exact absurd (wellFormed_eq_false_of_decode_eq_error hd) (by simp [hw])

/-! ## The opcode table -/

theorem Command.word_and_word (c m : Command) :
    c.word &&& m.word = (Command.mk (c.opc &&& m.opc) (c.b &&& m.b) (c.a &&& m.a)).word := by
  simp only [Command.word_eq_append]
  exact BitVec.and_append.trans (congrArg (· ++ (c.a &&& m.a)) BitVec.and_append)

/-- A row's mask and pattern, field by field. -/
theorem OpcodeRow.fits_iff {r : OpcodeRow} {c : Command} : r.fits c.word = true ↔
    c.opc &&& (Command.ofWord r.mask).opc = (Command.ofWord r.pattern).opc ∧
      c.b &&& (Command.ofWord r.mask).b = (Command.ofWord r.pattern).b ∧
      c.a &&& (Command.ofWord r.mask).a = (Command.ofWord r.pattern).a := by
  have hword : r.fits c.word = true ↔ c.word &&& (Command.ofWord r.mask).word = (Command.ofWord r.pattern).word := by
    rw [Command.word_ofWord, Command.word_ofWord, OpcodeRow.fits, beq_iff_eq]
  rw [hword, Command.word_and_word]
  constructor
  · intro h
    have hfields := congrArg Command.ofWord h
    rw [Command.ofWord_word, Command.ofWord_word] at hfields
    exact ⟨congrArg Command.opc hfields, congrArg Command.b hfields, congrArg Command.a hfields⟩
  · rintro ⟨hopc, hb, ha⟩
    rw [hopc, hb, ha]

/-- STB's mask of `B` leaves the reserved bits. -/
theorem and_stbMask_eq_zero_iff {b : Field24} : b &&& 0xFFFF00#24 = 0#24 ↔ b.extractLsb' 8 16 = 0#16 := by
  have hb : b = b.extractLsb' 8 16 ++ b.extractLsb' 0 8 := by
    rw [BitVec.extractLsb'_append_extractLsb'_eq_extractLsb' (by rfl)]
    exact BitVec.extractLsb'_eq_self.symm
  have hand : b &&& 0xFFFF00#24 = b.extractLsb' 8 16 ++ 0#8 := by
    have hmask : 0xFFFF00#24 = BitVec.allOnes 16 ++ 0#8 := by decide
    rw [hmask]
    nth_rewrite 1 [hb]
    rw [BitVec.and_append, BitVec.and_allOnes, BitVec.and_zero]
  rw [hand]
  exact ⟨fun h => BitVec.extractLsb'_append_eq_left.symm.trans (congrArg (BitVec.extractLsb' 8 16) h),
    fun h => by rw [h]; rfl⟩

/-- A word that fits a row decodes to the row's command. -/
theorem decode_of_fits {c : Command} {r : OpcodeRow} (hr : r ∈ opcodeTable) (h : r.fits c.word = true) :
    ∃ i, c.decode = .ok i ∧ r.mnemonic = i.mnemonic := by
  rw [OpcodeRow.fits_iff] at h
  obtain ⟨opc, b, a⟩ := c
  have hopc : opc &&& 255#8 = opc := BitVec.and_allOnes
  have hb : b &&& 16777215#24 = b := BitVec.and_allOnes
  have ha : a &&& 4294967295#32 = a := BitVec.and_allOnes
  simp only [opcodeTable, List.cons_append, List.nil_append, List.mem_cons, List.not_mem_nil, or_false] at hr
  rcases hr with rfl | rfl | rfl | rfl | rfl | rfl | rfl | rfl | rfl | rfl | rfl | rfl | rfl | rfl | rfl | rfl
  -- a row fixes the opcode and the reserved bits, which is what the decoder checks
  all_goals
    simp [Command.ofWord, hopc, hb, ha, and_stbMask_eq_zero_iff] at h
    simp [Command.decode, checkReserved, h, Instr.mnemonic]

theorem encode_fits_row (i : Instr) : ∃ r ∈ opcodeTable, r.mnemonic = i.mnemonic ∧ r.fits (encode i) = true := by
  cases i with
  | stb addr byte => simp [opcodeTable, Instr.mnemonic, encode, OpcodeRow.fits_iff, Instr.command, Command.ofWord,
      and_stbMask_eq_zero_iff, extractLsb'_setWidth_byte]
  | _ => simp [opcodeTable, Instr.mnemonic, encode, OpcodeRow.fits_iff, Instr.command, Command.ofWord]

theorem mem_opcodeTable_eq_of_mnemonic : ∀ r ∈ opcodeTable, ∀ r' ∈ opcodeTable, r.mnemonic = r'.mnemonic → r = r' := by
  decide

/-- Settles O5: a word that fits a row decodes to that row's command, and an accepted word fits its own row. -/
theorem decodedWordFitsItsTableRowOnly : Obligations.DecodedWordFitsItsTableRowOnly := by
  unfold Obligations.DecodedWordFitsItsTableRowOnly
  have hdec (w : CommandWord) {r : OpcodeRow} (hr : r ∈ opcodeTable) (h : r.fits w = true) :
      ∃ i, decode w = .ok i ∧ r.mnemonic = i.mnemonic := decode_of_fits hr (by rwa [Command.word_ofWord])
  refine ⟨fun w i hi r hr => ⟨fun hfits => ?_, fun hm => ?_⟩, fun w e he r hr => Bool.eq_false_of_not_eq_true fun hfits => ?_⟩
  · obtain ⟨j, hj, hm⟩ := hdec w hr hfits
    rw [hi] at hj
    rw [hm, Except.ok.inj hj]
  · obtain ⟨r', hr', hm', hfits⟩ := encode_fits_row i
    rw [mem_opcodeTable_eq_of_mnemonic r hr r' hr' (hm.trans hm'.symm), ← Machine.encode_of_decode_eq_ok hi]
    exact hfits
  · obtain ⟨j, hj, -⟩ := hdec w hr hfits
    rw [he] at hj
    cases hj

/-- Settles O3: the ten words are computed. -/
theorem specWordsDecodeToTheirCommands : Obligations.SpecWordsDecodeToTheirCommands := by
  unfold Obligations.SpecWordsDecodeToTheirCommands
  decide

end Sys2Proof
end

section
/-! What every step keeps and what every command leaves alone: the invariant (10_state.md section 2, 20_memory.md
section 1), the launches it begins from (70_reset_and_hazards.md section 1), and the registers each command writes. -/
namespace Sys2Proof.Machine

/-! ## Completed insertions and copies, with the checks they have passed -/

section Bodies
variable {s t : State}

theorem insertBody_done_cases {str count : Nat} (h : insertBody str count s = .done t) :
    (count = 0 ∧ t = s.setResult (Memory.read s.prev (s.prevIndex str))) ∨
    (0 < count ∧ str + count - 1 + 4 ≤ s.cfg.winBytes ∧ str + count - 1 + s.regs.minMatch.toNat ≤ s.validEnd ∧
      ∃ u, insertRun s count str { head := s.head, prev := s.prev, old := 0 } = some u ∧
        t = { s with head := u.head, prev := u.prev }.setResult u.old) := by
  unfold insertBody at h
  split at h
  next h0 => exact .inl ⟨h0, doneWith_eq_done h⟩
  next h0 =>
    split at h
    · cases h
    next ha =>
      split at h
      · cases h
      next hv =>
        split at h
        · cases h
        next u hu => exact .inr ⟨by omega, by omega, by omega, u, hu, doneWith_eq_done h⟩

/-- A completed COPY has passed the checks it shares with COPYS; in the chunked regime the slack fits too, and its bytes
are then unspecified. -/
theorem copyBody_done_cases {len dist : Nat} (h : copyBody len dist s = .done t) :
    dist ≠ 0 ∧ dist ≤ s.regs.out.toNat ∧ len ≤ s.left ∧ s.regs.out.toNat + len ≤ s.cfg.winBytes ∧
    ∃ (win : Window) (draws : Nat),
      t = ({ s with win := win, draws := draws }.setOut (s.regs.out.toNat + len)).setResult
        (BitVec.ofNat 32 (s.regs.out.toNat + len)) ∧
      (win = serialCopy dist len s.regs.out.toNat s.win ∨
        s.regs.out.toNat + len + s.cfg.chunk ≤ s.cfg.winBytes ∧
          win = (serialCopy dist len s.regs.out.toNat s.win).unspecify s.draws (s.regs.out.toNat + len) s.cfg.chunk) := by
  unfold copyBody at h
  dsimp only at h
  split at h
  · cases h
  next hd =>
    split at h
    · cases h
    next ho =>
      split at h
      · cases h
      next hl =>
        split at h
        · cases h
        next hw =>
          refine ⟨hd, by omega, by omega, by omega, ?_⟩
          split at h
          · split at h
            · cases h
            next hslack => exact ⟨_, _, doneWith_eq_done h, .inr ⟨by omega, rfl⟩⟩
          · exact ⟨_, _, doneWith_eq_done h, .inl rfl⟩

theorem copysBody_done_fits {len dist : Nat} (h : copysBody len dist s = .done t) :
    s.regs.out.toNat + len ≤ s.cfg.winBytes := by
  unfold copysBody at h
  dsimp only at h
  split at h
  · cases h
  split at h
  · cases h
  split at h
  · cases h
  split at h
  · cases h
  next hw => exact Nat.le_of_not_lt hw

end Bodies

/-! ## The invariant is kept part by part -/

section Invariant
variable {i : Instr} {s t : State}

theorem statusLegal_zero : Status.Legal 0 := by decide

theorem statusLegal_recordFault {st : Word} (c : FaultCode) (h : Status.Legal st) :
    Status.Legal (Status.recordFault c st) := by
  match hf : Status.fault st with
  | true => rwa [recordFault_later st c hf]
  | false =>
    obtain ⟨hres, -, -, hstop, hfound⟩ := h
    rw [recordFault_first st c hf]
    refine ⟨by simpa using hres, by simp, fun _ => ?_, by simpa using hstop, by simpa using hfound⟩
    rw [fcode_setFault]
    cases c <;> decide

theorem statusLegal_recordSearch {st : Word} (found : Bool) (stop : StopReason) (h : Status.Legal st) :
    Status.Legal (Status.recordSearch found stop st) := by
  obtain ⟨hres, hclear, hset, -, -⟩ := h
  refine ⟨by simpa using hres, by simpa using hclear, by simpa using hset, ?_, fun _ => ?_⟩
  · rw [stopr_recordSearch]
    cases stop <;> decide
  · rw [stopr_recordSearch]
    cases stop <;> decide

/-- SETR's checks keep the restricted registers legal. -/
theorem registersLegal_writeReg {r : Reg} {v : Word} (h : s.RegistersLegal) (hv : r.legalValue s.cfg v = true) :
    (s.writeReg r v).RegistersLegal := by
  obtain ⟨hw1, hw2, hh1, hh2, hm⟩ := h
  cases r with
  | wbits | hbits | minMatch =>
    simp [Reg.legalValue] at hv
    simp [State.RegistersLegal, State.writeReg]
    omega
  | _ => exact ⟨hw1, hw2, hh1, hh2, hm⟩

/-- The registers a completed command other than SETR may write. -/
theorem commandBody_done_regs (hset : ∀ reg value, i ≠ .setr reg value) (h : commandBody i s = .done t) :
    t.regs = { s.regs with status := t.regs.status, result := t.regs.result, matchStart := t.regs.matchStart,
                           out := t.regs.out } := by
  cases i with
  | nop | reset | clear | slide => cases h; rfl
  | setr reg value => exact absurd rfl (hset reg value)
  | getr =>
    obtain ⟨_, -, rfl⟩ := getrBody_eq_done h
    rfl
  | stb => rw [(stbBody_eq_done h).2]
  | ldb => rw [(ldbBody_eq_done h).2]; rfl
  | ldh => rw [(ldhBody_eq_done h).2]; rfl
  | ldp => rw [(ldpBody_eq_done h).2]; rfl
  | insert | insertn =>
    obtain ⟨_, _, _, rfl⟩ := insertBody_eq_done h
    rfl
  | lmatch =>
    obtain ⟨_, -, rfl⟩ := lmatchBody_eq_done h
    rfl
  | cmp258 => rw [cmp258Body_eq_done h]; rfl
  | copy =>
    obtain ⟨_, _, rfl⟩ := copyBody_eq_done h
    rfl
  | copys => rw [copysBody_eq_done h]; rfl

theorem commandBody_done_registersLegal (hs : s.RegistersLegal) (h : commandBody i s = .done t) : t.RegistersLegal := by
  by_cases hset : ∃ reg value, i = .setr reg value
  · obtain ⟨reg, value, rfl⟩ := hset
    obtain ⟨r, -, -, hv, rfl⟩ := setrBody_eq_done h
    exact registersLegal_writeReg hs hv
  · rw [State.RegistersLegal, commandBody_done_regs (by simpa using hset) h, commandBody_done_cfg h]
    exact hs

theorem commandBody_done_statusLegal (hs : Status.Legal s.regs.status) (h : commandBody i s = .done t) :
    Status.Legal t.regs.status := by
  obtain hst | ⟨_, r, -, hst⟩ := commandBody_done_status h
  · rwa [hst]
  · rw [hst]
    exact statusLegal_recordSearch _ _ hs

/-- The tables as `State.MemoriesLegal` asks for them. -/
def IndexRun.Legal (s : State) (u : IndexRun) : Prop :=
  (Memory.wf u.head ∧ Memory.within (2 ^ s.cfg.hbitsMax) u.head) ∧
    Memory.wf u.prev ∧ Memory.within (2 ^ s.cfg.wbitsMax) u.prev

theorem hashIndex_lt (hs : s.RegistersLegal) (p : Nat) : s.hashIndex p < 2 ^ s.cfg.hbitsMax := by
  obtain ⟨-, -, -, hh, -⟩ := hs
  have hle : s.hashIndex p ≤ 2 ^ s.regs.hbits.toNat - 1 := hashIndex_le s p
  have hpos : 0 < 2 ^ s.regs.hbits.toNat := Nat.two_pow_pos _
  have hpow := Nat.pow_le_pow_right Nat.two_pos hh
  omega

theorem prevIndex_lt (hs : s.RegistersLegal) (p : Nat) : s.prevIndex p < 2 ^ s.cfg.wbitsMax := by
  obtain ⟨-, hw, -⟩ := hs
  rw [prevIndex_eq_mod_two_pow]
  exact (Nat.mod_lt _ (Nat.two_pow_pos _)).trans_le (Nat.pow_le_pow_right Nat.two_pos hw)

theorem insertOne_keeps_legal (hs : s.RegistersLegal) {p : Nat} {u v : IndexRun} (hu : u.Legal s)
    (h : insertOne s p u = some v) : v.Legal s := by
  obtain ⟨-, rfl⟩ := insertOne_eq_some.mp h
  obtain ⟨⟨hhead, hhead'⟩, hprev, hprev'⟩ := hu
  exact ⟨⟨Memory.write_wf hhead, Memory.write_within hhead' (hashIndex_lt hs p)⟩,
    Memory.write_wf hprev, Memory.write_within hprev' (prevIndex_lt hs p)⟩

theorem insertBody_done_memoriesLegal {str count : Nat} (hr : s.RegistersLegal) (hs : s.MemoriesLegal)
    (h : insertBody str count s = .done t) : t.MemoriesLegal := by
  obtain ⟨hwf, hin, hhead, hhead', hprev, hprev'⟩ := hs
  obtain ⟨-, rfl⟩ | ⟨-, -, -, u, hu, rfl⟩ := insertBody_done_cases h
  · exact ⟨hwf, hin, hhead, hhead', hprev, hprev'⟩
  · obtain ⟨⟨h1, h2⟩, h3, h4⟩ : u.Legal s :=
      insertRun_keeps (IndexRun.Legal s) (fun _ _ _ _ _ => insertOne_keeps_legal hr) ⟨⟨hhead, hhead'⟩, hprev, hprev'⟩ hu
    exact ⟨hwf, hin, h1, h2, h3, h4⟩

theorem commandBody_done_memoriesLegal (hr : s.RegistersLegal) (hs : s.MemoriesLegal)
    (h : commandBody i s = .done t) : t.MemoriesLegal := by
  have hs' := hs
  obtain ⟨hwf, hin, hhead, hhead', hprev, hprev'⟩ := hs'
  cases i with
  | nop | reset => cases h; exact hs
  | clear => cases h; exact ⟨hwf, hin, cleared_wf, cleared_within _, cleared_wf, cleared_within _⟩
  | slide =>
    cases h
    exact ⟨hwf, hin, rebase_wf hhead.1, rebase_within hhead', rebase_wf hprev.1, rebase_within hprev'⟩
  | setr =>
    obtain ⟨r, -, -, -, rfl⟩ := setrBody_eq_done h
    simpa [State.MemoriesLegal] using hs
  | getr =>
    obtain ⟨_, -, rfl⟩ := getrBody_eq_done h
    exact hs
  | stb =>
    obtain ⟨ha, rfl⟩ := stbBody_eq_done h
    exact ⟨Window.write_wf hwf, Window.write_within hin ha, hhead, hhead', hprev, hprev'⟩
  | ldb => rw [(ldbBody_eq_done h).2]; exact hs
  | ldh => rw [(ldhBody_eq_done h).2]; exact hs
  | ldp => rw [(ldpBody_eq_done h).2]; exact hs
  | insert | insertn => exact insertBody_done_memoriesLegal hr hs h
  | lmatch =>
    obtain ⟨_, -, rfl⟩ := lmatchBody_eq_done h
    exact hs
  | cmp258 => rw [cmp258Body_eq_done h]; exact hs
  | copy =>
    obtain ⟨-, -, -, hfit, _, _, rfl, rfl | ⟨hslack, rfl⟩⟩ := copyBody_done_cases h
    · exact ⟨serialCopy_wf hwf, serialCopy_within hin hfit, hhead, hhead', hprev, hprev'⟩
    · exact ⟨Window.unspecify_wf (serialCopy_wf hwf), Window.unspecify_within (serialCopy_within hin hfit) hslack,
        hhead, hhead', hprev, hprev'⟩
  | copys =>
    have hfit := copysBody_done_fits h
    rw [copysBody_eq_done h]
    exact ⟨serialCopy_wf hwf, serialCopy_within hin hfit, hhead, hhead', hprev, hprev'⟩

/-- Every end of a command keeps the invariant where a completion has kept its parts. -/
theorem finish_inv {k : Completion} (hs : s.Inv) (hk : ∀ u, k = .done u →
    u.cfg = s.cfg ∧ u.RegistersLegal ∧ Status.Legal u.regs.status ∧ u.MemoriesLegal) : (finish s k).Inv := by
  cases k with
  | done u =>
    obtain ⟨hcfg, hregs, hstatus, hmem⟩ := hk u rfl
    exact ⟨hcfg ▸ hs.1, hregs, hstatus, hmem, rfl⟩
  | signal c =>
    obtain ⟨hcfg, hregs, hstatus, hmem, -⟩ := hs
    exact ⟨hcfg, hregs, hstatus, hmem, rfl⟩
  | fault c =>
    obtain ⟨hcfg, hregs, hstatus, hmem, -⟩ := hs
    exact ⟨hcfg, hregs, statusLegal_recordFault c hstatus, hmem, fault_recordFault _ _⟩

theorem registersLegal_reset (hc : s.cfg.Legal) (h : s.regs = Regs.reset s.cfg) : s.RegistersLegal := by
  obtain ⟨hw1, hw2, hh1, hh2, -⟩ := hc
  have hw : s.regs.wbits.toNat = s.cfg.wbitsMax := by
    rw [h, Regs.reset, BitVec.toNat_ofNat]
    omega
  have hh : s.regs.hbits.toNat = s.cfg.hbitsMax := by
    rw [h, Regs.reset, BitVec.toNat_ofNat]
    omega
  have hm : s.regs.minMatch.toNat = 3 := by rw [h]; rfl
  exact ⟨by omega, by omega, by omega, by omega, .inl hm⟩

theorem launch_inv (h : s.Launch) : s.Inv := by
  obtain ⟨hc, hregs, hmem, hresp⟩ := h
  refine ⟨hc, registersLegal_reset hc hregs, ?_, hmem, ?_⟩
  · rw [hregs]
    exact statusLegal_zero
  · rw [State.faultOnRecord, hresp]

theorem exec_inv (hs : s.Inv) (h : exec i s = .next t) : t.Inv := by
  have hs' := hs
  obtain ⟨hc, hregs, hstatus, hmem, -⟩ := hs'
  by_cases hi : i = .reset
  · subst hi
    cases h
    exact ⟨hc, registersLegal_reset (s := s.resetRegisters) hc rfl, statusLegal_zero, hmem, rfl⟩
  · rw [exec_eq_finish hi] at h
    cases h
    exact finish_inv hs fun u hu => ⟨commandBody_done_cfg hu, commandBody_done_registersLegal hregs hu,
      commandBody_done_statusLegal hstatus hu, commandBody_done_memoriesLegal hregs hmem hu⟩

theorem hardwareReset_launch (hc : s.cfg.Legal) (image : Image) : (hardwareReset image s).Launch :=
  ⟨hc, rfl, ⟨⟨Memory.load_wf _, by simp [hardwareReset, keysRise], by simp [hardwareReset]⟩,
    ⟨Memory.load_within _, by simp [hardwareReset]⟩, Memory.load_wf _, Memory.load_within _, Memory.load_wf _,
    Memory.load_within _⟩, rfl⟩

end Invariant

/-- Settles O14: a step is idle, a launch, a command's ending or a fault; each part of the invariant is kept by each. -/
theorem everyStepKeepsTheInvariant : Obligations.EveryStepKeepsTheInvariant := by
  unfold Obligations.EveryStepKeepsTheInvariant
  intro s t hs h
  -- taking an event from the port touches nothing the invariant speaks of
  have hrest (rest : List HostEvent) : State.Inv { s with port := rest } := hs
  obtain ⟨-, rfl⟩ | ⟨image, rest, -, rfl⟩ | ⟨w, rest, i, -, -, he⟩ | ⟨w, rest, e, -, -, rfl⟩ := step_cases h
  · exact hs
  · exact launch_inv (hardwareReset_launch (hrest rest).1 image)
  · exact exec_inv (hrest rest) he
  · exact finish_inv (k := .fault .errOpcode) (hrest rest) (by simp)

/-! ## Launches -/

theorem reset_launch : State.reset.Launch := by
  refine ⟨by decide, rfl, ⟨⟨Memory.wf_nil, ?_, ?_⟩, ⟨?_, ?_⟩, Memory.wf_nil, ?_, Memory.wf_nil, ?_⟩, rfl⟩ <;>
    simp [State.reset, keysRise, Memory.within]

/-- Settles O13: a launch has legal parameters and memories, and the reset values are legal. -/
theorem invariantHoldsAtEveryLaunch : Obligations.InvariantHoldsAtEveryLaunch := by
  unfold Obligations.InvariantHoldsAtEveryLaunch
  exact ⟨launch_inv reset_launch, fun s => launch_inv⟩

/-- Settles O12: the reset values fit their registers in a legal implementation. -/
theorem launchRegistersHoldTheResetValues : Obligations.LaunchRegistersHoldTheResetValues := by
  unfold Obligations.LaunchRegistersHoldTheResetValues
  refine ⟨reset_launch, fun s hs => ?_⟩
  obtain ⟨hc, hregs, -, -⟩ := hs
  exact registersReadAsReset_of_regs hc hregs

/-- Settles O11: the loaded memories are canonical, and a canonical memory is its own image (`Memory.load_self`). -/
theorem hardwareResetLaunchesWithAnyContents : Obligations.HardwareResetLaunchesWithAnyContents := by
  unfold Obligations.HardwareResetLaunchesWithAnyContents
  refine ⟨fun s image rest hc hp => ?_, fun s win head prev rest hw hw' hh hh' hpr hpr' hp => ?_⟩
  · exact ⟨_, step_hardwareReset hp, hardwareReset_launch (s := { s with port := rest }) hc image, rfl, rfl⟩
  · exact ⟨_, step_hardwareReset hp, Memory.load_self hw hw', rfl, Memory.load_self hh hh', Memory.load_self hpr hpr'⟩

/-! ## The step around `exec` -/

/-- Settles O8: what a step does with a command word, said once in `step_command`. -/
theorem stepRunsTheDecodedCommand : Obligations.StepRunsTheDecodedCommand := by
  unfold Obligations.StepRunsTheDecodedCommand
  exact fun s w rest i => step_command

/-- Settles O9: what a step does with an empty port, said once in `step_idle`. -/
theorem idleStepHoldsTheState : Obligations.IdleStepHoldsTheState := by
  unfold Obligations.IdleStepHoldsTheState
  exact fun s => step_idle

theorem exec_total (i : Instr) (s : State) : ∃ t, exec i s = .next t := ⟨_, exec_eq i s⟩

/-- Settles O10: every arm of `exec` answers, and so does the step for each kind of event. -/
theorem everyCommandAndEveryStepHasANextState : Obligations.EveryCommandAndEveryStepHasANextState := by
  unfold Obligations.EveryCommandAndEveryStepHasANextState
  refine ⟨exec_total, fun s => ?_⟩
  match hp : s.port with
  | [] => exact ⟨_, step_idle hp⟩
  | .hardwareReset image :: rest => exact ⟨_, step_hardwareReset hp⟩
  | .command w :: rest =>
    match hd : decode w with
    | .ok i =>
      rw [step_command hp hd]
      exact exec_total i _
    | .error e => exact ⟨_, step_illegal hp hd⟩

/-! ## SEQ, RESULT, STATUS and the codes -/

section Registers
variable {i : Instr} {s t : State}

@[simp] theorem writeReg_seq (s : State) (r : Reg) (v : Word) : (s.writeReg r v).regs.seq = s.regs.seq := by
  cases r <;> rfl

theorem commandBody_done_seq (h : commandBody i s = .done t) : t.regs.seq = s.regs.seq := by
  by_cases hset : ∃ reg value, i = .setr reg value
  · obtain ⟨reg, value, rfl⟩ := hset
    obtain ⟨r, -, -, -, rfl⟩ := setrBody_eq_done h
    exact writeReg_seq _ _ _
  · rw [commandBody_done_regs (by simpa using hset) h]

theorem exec_seq (hi : i ≠ .reset) (h : exec i s = .next t) : t.regs.seq = s.regs.seq + 1 := by
  rw [exec_eq_finish hi] at h
  cases h
  match hk : commandBody i s with
  | .done u => rw [finish_done, respond_seq, commandBody_done_seq hk]
  | .signal c => rw [finish_signal, takeSignal_seq]
  | .fault c => rw [finish_fault, takeFault_seq]

end Registers

/-- Settles O16: no pseudocode writes `SEQ`, every ending adds 1, and RESET is the one command without an ending. -/
theorem seqCountsEveryCommand : Obligations.SeqCountsEveryCommand := by
  unfold Obligations.SeqCountsEveryCommand
  refine ⟨fun i s t h => ⟨fun hi => exec_seq hi h, fun hi => ?_⟩, fun s w rest e hp hd => ?_,
    fun s => getr_endsWithResult s .seq, fun s v => setr_endsWithErrReg_of_readOnly s (r := .seq) rfl v⟩
  · subst hi
    cases h
    rfl
  · exact ⟨_, step_illegal hp hd, takeFault_seq _ _⟩

/-- Settles O17: a command that is no producer, or that has not completed, leaves the old `RESULT`. -/
theorem resultChangesOnlyByItsProducers : Obligations.ResultChangesOnlyByItsProducers := by
  unfold Obligations.ResultChangesOnlyByItsProducers
  intro i s t h hi hne
  obtain ⟨c, hc, hresult⟩ := exec_response h
  refine ⟨?_, ?_⟩
  · rw [hc]
    exact congrArg some (by_contra fun hok => hne (hresult hok))
  · have hno : i.mnemonic ∉ ["NOP", "SETR", "STB", "CLEAR", "SLIDE"] := fun hm => hne (exec_result_of_mnemonic h hm)
    cases i with
    | reset => exact absurd rfl hi
    | nop | setr | stb | clear | slide => exact absurd hno (by simp [Instr.mnemonic])
    | _ => simp [Instr.mnemonic]

/-- Settles O21: where the pseudocode completes, `STATUS` is the old one or a search is recorded in it; a fault records
`FAULT` and `FCODE` only. -/
theorem searchFlagsAreWrittenByLmatchOnly : Obligations.SearchFlagsAreWrittenByLmatchOnly := by
  unfold Obligations.SearchFlagsAreWrittenByLmatchOnly
  intro i s t h hi
  rw [exec_eq_finish hi] at h
  cases h
  match hk : commandBody i s with
  | .signal c => exact ⟨fun _ => ⟨rfl, rfl⟩, fun _ => ⟨rfl, rfl, rfl⟩⟩
  | .fault c => exact ⟨fun _ => ⟨by simp, by simp⟩, fun hok => by simp at hok⟩
  | .done u =>
    rw [finish_done, respond_status]
    obtain hst | ⟨cur, r, rfl, hst⟩ := commandBody_done_status hk
    · rw [hst]
      exact ⟨fun _ => ⟨rfl, rfl⟩, fun _ => ⟨rfl, rfl, rfl⟩⟩
    · rw [hst]
      refine ⟨fun hno => ?_, fun _ => by simp⟩
      obtain hno | hno := hno
      · exact absurd rfl (hno cur)
      · exact absurd rfl hno

/-! ## The codes each command can end with (60_exceptions.md section 2) -/

section Codes
variable {s : State}

theorem setrBody_code (reg : Field24) (value : Word) :
    (setrBody reg value s).code ∈ [Code.ok, .fault .errReg, .fault .errValue] := by
  unfold setrBody
  split
  · simp [Completion.code]
  · split_ifs <;> simp [Completion.code]

theorem getrBody_code (reg : Field24) : (getrBody reg s).code ∈ [Code.ok, .fault .errReg] := by
  unfold getrBody
  split <;> simp [Completion.code, doneWith]

/-- A pseudocode that checks an address against a size and then completes. -/
theorem boundedAccess_code {p : Prop} [Decidable p] {k : Completion} (hk : k.code = .ok) :
    (if p then Completion.fault .errAddr else k).code ∈ [Code.ok, .fault .errAddr] := by
  split
  · simp [Completion.code]
  · simp [hk]

theorem insertBody_code (str count : Nat) :
    (insertBody str count s).code ∈ [Code.ok, .signal .needInput, .fault .errAddr, .fault .errOrder] := by
  unfold insertBody
  split_ifs
  · simp [Completion.code, doneWith]
  · simp [Completion.code]
  · simp [Completion.code]
  · split <;> simp [Completion.code, doneWith]

theorem lmatchBody_code (cur : Nat) : (lmatchBody cur s).code ∈ [Code.ok, .fault .errAddr, .fault .errChain] := by
  unfold lmatchBody
  split
  · simp [Completion.code]
  · split <;> simp [Completion.code, doneWith]

theorem copyBody_code (len dist : Nat) :
    (copyBody len dist s).code ∈ [Code.ok, .signal .needOutput, .fault .errValue, .fault .errAddr] := by
  unfold copyBody
  dsimp only
  split_ifs <;> simp [Completion.code, doneWith]

theorem copysBody_code (len dist : Nat) :
    (copysBody len dist s).code ∈ [Code.ok, .signal .needOutput, .fault .errValue, .fault .errAddr] := by
  unfold copysBody
  dsimp only
  split_ifs <;> simp [Completion.code, doneWith]

end Codes

/-- Settles O22: the response is how the command's own pseudocode ends. -/
theorem commandsEndOnlyWithTheCodesOfTheirRow : Obligations.CommandsEndOnlyWithTheCodesOfTheirRow := by
  unfold Obligations.CommandsEndOnlyWithTheCodesOfTheirRow
  intro i s t h
  by_cases hi : i = .reset
  · subst hi
    cases h
    exact ⟨.ok, rfl, rfl⟩
  rw [exec_eq_finish hi] at h
  cases h
  refine ⟨_, finish_response _ _, ?_⟩
  cases i with
  | nop | clear | slide => rfl
  | setr reg value => exact setrBody_code reg value
  | getr reg => exact getrBody_code reg
  | stb | ldb | ldh | ldp | cmp258 => exact boundedAccess_code rfl
  | insert str => exact insertBody_code _ _
  | insertn str count =>
    dsimp only
    split
    next h0 =>
      subst h0
      rfl
    · exact insertBody_code _ _
  | lmatch cur => exact lmatchBody_code _
  | copy len dist => exact copyBody_code _ _
  | copys len dist => exact copysBody_code _ _
  | reset => exact absurd rfl hi

end Sys2Proof.Machine
end

section
/-! The hash index in the large (41_hash_index.md): what a hash index depends on, SLIDE (R125), and runs of insertions
(R127, R129): their order check, their links, and the single insertions they equal. -/
namespace Sys2Proof.Machine

/-! ## What a hash index depends on (R122) -/

theorem hashOperand_congr {s s' : State} {p p' : Nat} (hl : s.regs.level = s'.regs.level)
    (ht : s.regs.triggerLevel = s'.regs.triggerLevel) (hb : ∀ i < 4, s.win.read (p + i) = s'.win.read (p' + i)) :
    s.hashOperand p = s'.hashOperand p' := by
  have h0 : s.win.read p = s'.win.read p' := hb 0 (by decide)
  have h1 := hb 1 (by decide)
  have h2 := hb 2 (by decide)
  have h3 := hb 3 (by decide)
  rw [State.hashOperand, State.hashOperand, State.lowByteMasked, State.lowByteMasked, hl, ht, h0, h1, h2, h3]

/-- Settles O32: the index is masked with `hmask`, and its operand is made of the four bytes and the two levels. -/
theorem hashIndexDependsOnItsInputsOnly : Obligations.HashIndexDependsOnItsInputsOnly := by
  unfold Obligations.HashIndexDependsOnItsInputsOnly
  refine ⟨hashIndex_le, fun s s' p p' hc hl ht hh hb => ?_⟩
  rw [State.hashIndex, State.hashIndex, hc, hashOperand_congr hl ht hb, State.hmask, State.hmask, hh]

/-! ## SLIDE (R125) -/

section Slide
variable {s : State}

theorem toNat_rebasedEntry (wsize : Nat) (m : Word) : (rebasedEntry wsize m).toNat = m.toNat - wsize := by
  have hlt := m.isLt
  unfold rebasedEntry
  split
  · rw [BitVec.toNat_ofNat, Nat.mod_eq_of_lt (by omega)]
  · exact (Nat.sub_eq_zero_of_le (by omega)).symm

/-- What an entry of a table of `2 ^ n` masked entries reads as after a slide. -/
theorem toNat_read_rebase {wsize n : Nat} {t : Table} (hw : 0 < wsize) (h : keysRise t) (i : Nat) :
    (Memory.read (Table.rebase wsize (2 ^ n - 1) t) i).toNat =
      if i < 2 ^ n then (Memory.read t i).toNat - wsize else (Memory.read t i).toNat := by
  have hpos : 0 < 2 ^ n := Nat.two_pow_pos n
  have hiff : i ≤ 2 ^ n - 1 ↔ i < 2 ^ n := by omega
  rw [read_rebase hw h, slidEntry, ← toNat_rebasedEntry, ← apply_ite BitVec.toNat]
  simp only [hiff]

theorem prevIndex_sub_wsize {p : Nat} (h : s.wsize ≤ p) : s.prevIndex (p - s.wsize) = s.prevIndex p := by
  rw [prevIndex_eq_mod, prevIndex_eq_mod, ← Nat.mod_eq_sub_mod h]

end Slide

/-- Settles O35: SLIDE rebases both tables entry by entry; a position and the position `wsize` below it share their
`PREV` index, and taking `wsize` from both sides keeps a link below its position. -/
theorem slideRebasesTheTables : Obligations.SlideRebasesTheTables := by
  unfold Obligations.SlideRebasesTheTables
  refine ⟨decode_encode .slide, fun b a => rejectedWord_of_noOperands (by decide), fun s hhead hprev => ?_⟩
  have hread (i : Nat) : (Memory.read (Table.rebase s.wsize s.wmask s.prev) i).toNat =
      if i < 2 ^ s.regs.wbits.toNat then (Memory.read s.prev i).toNat - 2 ^ s.regs.wbits.toNat
      else (Memory.read s.prev i).toNat := toNat_read_rebase (wsize_pos s) hprev i
  refine ⟨_, exec_eq_finish (by simp), rfl, fun i => toNat_read_rebase (wsize_pos s) hhead i, hread,
    fun p hp => ⟨prevIndex_sub_wsize hp, fun hlt => ?_⟩⟩
  have hin : s.prevIndex p < 2 ^ s.regs.wbits.toNat := by
    rw [prevIndex_eq_mod_two_pow]
    exact Nat.mod_lt _ (Nat.two_pow_pos _)
  have hentry : (Memory.read (Table.rebase s.wsize s.wmask s.prev) (s.prevIndex p)).toNat =
      (Memory.read s.prev (s.prevIndex p)).toNat - s.wsize := (hread (s.prevIndex p)).trans (if_pos hin)
  refine (Nat.eq_zero_or_pos (Memory.read (Table.rebase s.wsize s.wmask s.prev) (s.prevIndex p)).toNat).symm.imp
    (fun hpos => ?_) (BitVec.toNat_inj (y := 0)).mp
  change (Memory.read (Table.rebase s.wsize s.wmask s.prev) (s.prevIndex p)).toNat < p - s.wsize
  omega

/-! ## The order check of a run (R127, R129) -/

section Run
variable {s : State} {p n : Nat} {t u : IndexRun}

/-- The order check for position `p` on a table `HEAD`. -/
def State.InOrder (s : State) (head : Table) (p : Nat) : Prop :=
  Memory.read head (s.hashIndex p) = 0 ∨ (Memory.read head (s.hashIndex p)).toNat < p

/-- Once the positions below `p` of a run are inserted, each bucket is the one before the command, or both the old entry
(if there was one) and the new one are below `p`. -/
def State.HeadFollows (s : State) (p : Nat) (t : IndexRun) : Prop :=
  keysRise t.head ∧ ∀ i, Memory.read t.head i = Memory.read s.head i ∨
    (Memory.read s.head i = 0 ∨ (Memory.read s.head i).toNat < p) ∧ (Memory.read t.head i).toNat < p

/-- So the run's own writes never decide a check. -/
theorem inOrder_iff_of_headFollows (h : s.HeadFollows p t) : s.InOrder t.head p ↔ s.InOrder s.head p := by
  obtain ⟨-, hbucket⟩ := h
  obtain heq | ⟨hold, hnew⟩ := hbucket (s.hashIndex p)
  · rw [State.InOrder, State.InOrder, heq]
  · exact ⟨fun _ => hold, fun _ => .inr hnew⟩

theorem headFollows_insertOne (hp : p < 2 ^ 32) (h : s.HeadFollows p t) (hone : insertOne s p t = some u) :
    s.HeadFollows (p + 1) u := by
  have hcheck := (inOrder_iff_of_headFollows h).mp (insertOne_eq_some.mp hone).1
  obtain ⟨hrise, hbucket⟩ := h
  obtain ⟨-, rfl⟩ := insertOne_eq_some.mp hone
  refine ⟨Memory.write_keysRise hrise, fun i => ?_⟩
  dsimp only
  rw [Memory.read_write hrise]
  split
  next hi =>
    subst hi
    rw [BitVec.toNat_ofNat, Nat.mod_eq_of_lt hp]
    exact .inr ⟨hcheck.imp_right Nat.lt_succ_of_lt, Nat.lt_succ_self p⟩
  · exact (hbucket i).imp_right fun ⟨hold, hnew⟩ => ⟨hold.imp_right Nat.lt_succ_of_lt, Nat.lt_succ_of_lt hnew⟩

/-- A run passes exactly where each of its positions passes the check on the table before the command. -/
theorem insertRun_isSome_iff (hp : p + n ≤ 2 ^ 32) (h : s.HeadFollows p t) :
    (∃ u, insertRun s n p t = some u) ↔ ∀ k < n, s.InOrder s.head (p + k) := by
  induction n generalizing p t with
  | zero => simp [insertRun_zero]
  | succ n ih =>
    rw [insertRun_succ, Nat.forall_lt_succ_left]
    match hone : insertOne s p t with
    | none =>
      obtain ⟨hne, hle⟩ := insertOne_eq_none.mp hone
      have hno : ¬ s.InOrder s.head p := by
        rw [← inOrder_iff_of_headFollows h]
        exact fun hin => hin.elim hne (Nat.not_lt_of_le hle)
      simp [hno]
    | some u =>
      have hin : s.InOrder s.head p := (inOrder_iff_of_headFollows h).mp (insertOne_eq_some.mp hone).1
      rw [Option.bind_some, ih (by omega) (headFollows_insertOne (by omega) h hone)]
      simp [hin, Nat.add_assoc, Nat.add_comm 1]

theorem headFollows_start (hrise : keysRise s.head) (d : Table) (o : Word) :
    s.HeadFollows p { head := s.head, prev := d, old := o } := ⟨hrise, fun _ => .inl rfl⟩

end Run

/-- Settles O37: past the two checks of the extent a run passes exactly where every position passes the order check on
the table before the command (`insertRun_isSome_iff`). -/
theorem insertnChecksInOrderThenCompletes : Obligations.InsertnChecksInOrderThenCompletes := by
  unfold Obligations.InsertnChecksInOrderThenCompletes
  refine ⟨fun b a => decode_encode (.insertn a b), fun s str count h0 => ⟨fun ha => ?_, fun ha hv => ?_,
    fun hc hrise ha hv => ?_⟩⟩
  · exact endsWithFault_of_body (by simp) (insertBody_outside h0 ha)
  · exact endsWithSignal_of_body (by simp) (insertBody_short h0 ha hv)
  obtain ⟨-, -, -, -, -, -, hwin⟩ := hc
  have hbody := insertBody_run h0 ha hv
  have hpass := insertRun_isSome_iff (n := count.toNat) (by omega) (headFollows_start (p := str.toNat) hrise s.prev 0)
  refine ⟨fun ⟨k, hk, hne, hle⟩ => endsWithFault_of_body (by simp) ?_, fun hall => ?_⟩
  · have hnone : insertRun s count.toNat str.toNat { head := s.head, prev := s.prev, old := 0 } = none := by
      by_contra hsome
      have hin := hpass.mp (Option.ne_none_iff_exists'.mp hsome) k hk
      exact hin.elim hne (Nat.not_lt_of_le hle)
    rw [commandBody, hbody, hnone]
  · obtain ⟨u, hu⟩ := hpass.mpr hall
    refine ⟨_, exec_eq_finish (by simp), ?_⟩
    rw [commandBody, hbody, hu]
    rfl

/-! ## The links of a run (R129) -/

section Links
variable {s : State} {p n : Nat} {t u : IndexRun}

/-- A run writes `PREV` at the indices of its positions only, each time with `NIL` or a position below. -/
theorem insertRun_links (hrise : keysRise t.prev) (h : insertRun s n p t = some u) : keysRise u.prev ∧
    ∀ i, Memory.read u.prev i ≠ Memory.read t.prev i → ∃ k < n, s.prevIndex (p + k) = i ∧
      (Memory.read u.prev i = 0 ∨ (Memory.read u.prev i).toNat < p + k) := by
  induction n generalizing u with
  | zero =>
    rw [insertRun_zero] at h
    cases h
    exact ⟨hrise, fun i hne => absurd rfl hne⟩
  | succ n ih =>
    rw [insertRun_succ_last, Option.bind_eq_some_iff] at h
    obtain ⟨v, hv, hone⟩ := h
    obtain ⟨hcheck, rfl⟩ := insertOne_eq_some.mp hone
    obtain ⟨hrise', hlinks⟩ := ih hv
    refine ⟨Memory.write_keysRise hrise', fun i hne => ?_⟩
    dsimp only at hne ⊢
    rw [Memory.read_write hrise'] at hne ⊢
    by_cases hi : i = s.prevIndex (p + n)
    · rw [if_pos hi]
      exact ⟨n, Nat.lt_succ_self n, hi.symm, hcheck⟩
    · rw [if_neg hi] at hne ⊢
      obtain ⟨k, hk, hki, hlink⟩ := hlinks i hne
      exact ⟨k, Nat.lt_succ_of_lt hk, hki, hlink⟩

end Links

/-- A command other than RESET that ends with `OK` has completed. -/
theorem exec_ok {i : Instr} {s t : State} (hi : i ≠ .reset) (h : exec i s = .next t) (hok : t.response = some .ok) :
    ∃ u, commandBody i s = .done u ∧ t = respond .ok u := by
  rw [exec_eq_finish hi] at h
  cases h
  match hk : commandBody i s with
  | .done u => exact ⟨u, rfl, rfl⟩
  | .signal c => rw [hk] at hok; cases hok
  | .fault c => rw [hk] at hok; cases hok

section Insert
variable {s t : State} {str : Word}

/-- What an INSERT that ends with `OK` has passed, and the state it leaves. -/
theorem exec_insert_ok (h : exec (.insert str) s = .next t) (hok : t.response = some .ok) :
    str.toNat + 4 ≤ s.cfg.winBytes ∧ str.toNat + s.regs.minMatch.toNat ≤ s.validEnd ∧
      s.InOrder s.head str.toNat ∧
      t = respond .ok (State.setResult (Memory.read s.head (s.hashIndex str.toNat))
        { s with head := Memory.write s.head (s.hashIndex str.toNat) str
                 prev := Memory.write s.prev (s.prevIndex str.toNat)
                   (Memory.read s.head (s.hashIndex str.toNat)) }) := by
  obtain ⟨u, hbody, ht⟩ := exec_ok (by simp) h hok
  obtain ⟨h0, -⟩ | ⟨-, ha, hv, v, hrun, -⟩ := insertBody_done_cases hbody
  · cases h0
  rw [insertRun_one] at hrun
  have hcheck := (insertOne_eq_some.mp hrun).1
  have ha' : str.toNat + 4 ≤ s.cfg.winBytes := by omega
  have hv' : str.toNat + s.regs.minMatch.toNat ≤ s.validEnd := by omega
  refine ⟨ha', hv', hcheck, ?_⟩
  rw [exec_insert_done ha' hv' hcheck] at h
  exact (Host.Outcome.next.inj h).symm

end Insert

/-- Settles O40: the run's links are `insertRun_links`; an insertion leaves its own position in its bucket, which is not
below it. -/
theorem insertionsRecordStrictlyEarlierPositions : Obligations.InsertionsRecordStrictlyEarlierPositions := by
  unfold Obligations.InsertionsRecordStrictlyEarlierPositions
  refine ⟨fun s t str count hrise h i hne => ?_, fun s t str hrise h0 h hok => ?_⟩
  · rw [exec_eq_finish (by simp)] at h
    cases h
    dsimp only [commandBody] at hne ⊢
    match hk : insertBody str.toNat count.toNat s with
    | .signal c => rw [hk] at hne; exact absurd rfl hne
    | .fault c => rw [hk] at hne; exact absurd rfl hne
    | .done u =>
      rw [hk] at hne
      obtain ⟨-, rfl⟩ | ⟨-, -, -, v, hrun, rfl⟩ := insertBody_done_cases hk
      · exact absurd rfl hne
      · exact (insertRun_links hrise hrun).2 i hne
  · obtain ⟨ha, hv, -, rfl⟩ := exec_insert_ok h hok
    have hbucket : Memory.read (Memory.write s.head (s.hashIndex str.toNat) str) (s.hashIndex str.toNat) = str := by
      rw [Memory.read_write hrise, if_pos rfl]
    refine endsWithFault_of_body (by simp) (insertBody_one_order ha hv ?_ ?_)
    · exact fun h => h0 (hbucket.symm.trans h)
    · exact (congrArg BitVec.toNat hbucket).ge

/-! ## Runs as single insertions (R127) -/

/-- The state that `k` single insertions leave whose tables and last bucket are `u`. -/
def State.afterInserts (s : State) (k : Nat) (u : IndexRun) : State :=
  { s with regs := { s.regs with result := u.old, seq := s.regs.seq + BitVec.ofNat 32 k }, head := u.head, prev := u.prev,
           response := some .ok }

section Singles
variable {s : State} {n p : Nat} {t u v : IndexRun} {str : Word} {o : Word}

/-- An insertion reads nothing that insertions write but the tables it is given. -/
theorem insertRun_afterInserts (k : Nat) (v : IndexRun) : insertRun (s.afterInserts k v) n p t = insertRun s n p t := by
  induction n generalizing p t with
  | zero => rfl
  | succ n ih =>
    have hone : insertOne (s.afterInserts k v) p t = insertOne s p t := rfl
    simp only [insertRun_succ, hone]
    exact congrArg _ (funext fun _ => ih)

theorem afterInserts_afterInserts (s : State) (j k : Nat) (u v : IndexRun) :
    (s.afterInserts j u).afterInserts k v = s.afterInserts (j + k) v := by
  simp only [State.afterInserts, BitVec.ofNat_add, BitVec.add_assoc]

theorem exec_insert_of_insertOne (ha : str.toNat + 4 ≤ s.cfg.winBytes)
    (hv : str.toNat + s.regs.minMatch.toNat ≤ s.validEnd)
    (h : insertOne s str.toNat { head := s.head, prev := s.prev, old := o } = some u) :
    exec (.insert str) s = .next (s.afterInserts 1 u) := by
  obtain ⟨hcheck, rfl⟩ := insertOne_eq_some.mp h
  rw [exec_insert_done ha hv hcheck, BitVec.ofNat_toNat, BitVec.setWidth_eq]
  rfl

/-- A run of at least one position that passes is the single insertions of its positions. -/
theorem execAll_singleInserts (hwin : s.cfg.winBytes < 2 ^ 32) (ha : str.toNat + n + 4 ≤ s.cfg.winBytes)
    (hv : str.toNat + n + s.regs.minMatch.toNat ≤ s.validEnd)
    (h : insertRun s (n + 1) str.toNat { head := s.head, prev := s.prev, old := o } = some u) :
    execAll (singleInserts (n + 1) str) s = some (s.afterInserts (n + 1) u) := by
  induction n generalizing s str o with
  | zero =>
    rw [insertRun_one] at h
    rw [singleInserts, execAll, exec_insert_of_insertOne ha hv h]
    rfl
  | succ n ih =>
    rw [insertRun_succ, Option.bind_eq_some_iff] at h
    obtain ⟨v, hone, hrest⟩ := h
    have hnext : (str + 1).toNat = str.toNat + 1 := by
      exact (BitVec.toNat_add str 1).trans (Nat.mod_eq_of_lt (by change str.toNat + 1 < 2 ^ 32; omega))
    have ha' : (str + 1).toNat + n + 4 ≤ s.cfg.winBytes := by omega
    have hv' : (str + 1).toNat + n + s.regs.minMatch.toNat ≤ s.validEnd := by omega
    rw [singleInserts, execAll, exec_insert_of_insertOne (by omega) (by omega) hone]
    dsimp only
    rw [ih (s := s.afterInserts 1 v) (o := v.old) hwin ha' hv' (by rw [insertRun_afterInserts, hnext]; exact hrest),
      afterInserts_afterInserts, Nat.add_comm 1]

end Singles

/-- Settles O38: the run that INSERTN makes, and every run of its first positions, is the single insertions of its
positions (`execAll_singleInserts`). -/
theorem bulkInsertionEqualsSingleInsertions : Obligations.BulkInsertionEqualsSingleInsertions := by
  unfold Obligations.BulkInsertionEqualsSingleInsertions
  intro s t str count hc h0 h hok
  obtain ⟨-, -, -, -, -, -, hwin⟩ := hc
  obtain ⟨w, hbody, rfl⟩ := exec_ok (by simp) h hok
  obtain ⟨hz, -⟩ | ⟨-, ha, hv, u, hrun, rfl⟩ := insertBody_done_cases hbody
  · omega
  have hsingles (k : Nat) (hk0 : 0 < k) (hkc : k ≤ count.toNat) (v : IndexRun)
      (hv' : insertRun s k str.toNat { head := s.head, prev := s.prev, old := 0 } = some v) :
      execAll (singleInserts k str) s = some (s.afterInserts k v) := by
    obtain ⟨k, rfl⟩ := Nat.exists_eq_add_of_lt hk0
    rw [Nat.zero_add] at hkc hv' ⊢
    exact execAll_singleInserts (by omega) (by omega) (by omega) hv'
  refine ⟨_, hsingles _ h0 le_rfl u hrun, rfl, rfl, rfl, rfl, rfl, fun k hkc hk0 => ?_⟩
  obtain ⟨v, hv'⟩ := insertRun_prefix (k := k) (m := count.toNat - k) (by rwa [Nat.add_sub_cancel' hkc])
  exact ⟨_, hsingles k hk0 hkc v hv', rfl⟩

/-! ## Entries inside the window -/

section Entries
variable {i : Instr} {s t : State}

/-- Tables with rising keys whose entries are all below `size`. -/
def IndexRun.EntriesBelow (size : Nat) (u : IndexRun) : Prop :=
  (keysRise u.head ∧ ∀ i, (Memory.read u.head i).toNat < size) ∧
    keysRise u.prev ∧ ∀ i, (Memory.read u.prev i).toNat < size

theorem read_write_lt {size : Nat} {m : Table} {a : Nat} {v : Word} (hrise : keysRise m)
    (hm : ∀ i, (Memory.read m i).toNat < size) (hv : v.toNat < size) (i : Nat) :
    (Memory.read (Memory.write m a v) i).toNat < size := by
  rw [Memory.read_write hrise]
  split
  · exact hv
  · exact hm i

theorem insertOne_keeps_entriesBelow {size p : Nat} {u v : IndexRun} (hp : p < size) (hu : u.EntriesBelow size)
    (h : insertOne s p u = some v) : v.EntriesBelow size := by
  obtain ⟨-, rfl⟩ := insertOne_eq_some.mp h
  obtain ⟨⟨hhead, hhead'⟩, hprev, hprev'⟩ := hu
  have hnew : (BitVec.ofNat 32 p).toNat < size := (Nat.mod_le _ _).trans_lt hp
  exact ⟨⟨Memory.write_keysRise hhead, read_write_lt hhead hhead' hnew⟩,
    Memory.write_keysRise hprev, read_write_lt hprev hprev' (hhead' _)⟩

theorem read_rebase_lt {size wsize mask : Nat} {m : Table} (hw : 0 < wsize) (hrise : keysRise m)
    (hm : ∀ i, (Memory.read m i).toNat < size) (i : Nat) :
    (Memory.read (Table.rebase wsize mask m) i).toNat < size := by
  have hlt := hm i
  rw [read_rebase hw hrise, slidEntry]
  split
  · rw [toNat_rebasedEntry]
    omega
  · exact hlt

theorem insertBody_done_entriesInWindow {str count : Nat} (hhead : keysRise s.head) (hprev : keysRise s.prev)
    (hs : s.EntriesInWindow) (h : insertBody str count s = .done t) : t.EntriesInWindow := by
  obtain ⟨-, rfl⟩ | ⟨-, ha, -, u, hu, rfl⟩ := insertBody_done_cases h
  · exact hs
  · obtain ⟨⟨-, hhead'⟩, -, hprev'⟩ : u.EntriesBelow s.cfg.winBytes :=
      insertRun_keeps (IndexRun.EntriesBelow s.cfg.winBytes)
        (fun k hk hk' _ _ => insertOne_keeps_entriesBelow (by omega)) ⟨⟨hhead, hs.1⟩, hprev, hs.2⟩ hu
    exact ⟨hhead', hprev'⟩

theorem commandBody_done_entriesInWindow (hc : s.cfg.Legal) (hhead : keysRise s.head) (hprev : keysRise s.prev)
    (hs : s.EntriesInWindow) (h : commandBody i s = .done t) : t.EntriesInWindow := by
  cases i with
  | nop | reset => cases h; exact hs
  | clear =>
    cases h
    obtain ⟨-, -, -, -, -, hwin, -⟩ := hc
    have hpos : 0 < s.cfg.winBytes := Nat.lt_of_lt_of_le (by simp [Config.maxMatch]) hwin
    exact ⟨fun _ => hpos, fun _ => hpos⟩
  | slide =>
    cases h
    exact ⟨read_rebase_lt (wsize_pos s) hhead hs.1, read_rebase_lt (wsize_pos s) hprev hs.2⟩
  | setr =>
    obtain ⟨r, -, -, -, rfl⟩ := setrBody_eq_done h
    simpa [State.EntriesInWindow] using hs
  | getr =>
    obtain ⟨_, -, rfl⟩ := getrBody_eq_done h
    exact hs
  | stb => rw [(stbBody_eq_done h).2]; exact hs
  | ldb => rw [(ldbBody_eq_done h).2]; exact hs
  | ldh => rw [(ldhBody_eq_done h).2]; exact hs
  | ldp => rw [(ldpBody_eq_done h).2]; exact hs
  | insert | insertn => exact insertBody_done_entriesInWindow hhead hprev hs h
  | lmatch =>
    obtain ⟨_, -, rfl⟩ := lmatchBody_eq_done h
    exact hs
  | cmp258 => rw [cmp258Body_eq_done h]; exact hs
  | copy =>
    obtain ⟨_, _, rfl⟩ := copyBody_eq_done h
    exact hs
  | copys => rw [copysBody_eq_done h]; exact hs

end Entries

/-- Settles O41: an insertion stores positions whose bytes fit, SLIDE lowers entries, and no other command stores one. -/
theorem commandsKeepTableEntriesInsideTheWindow : Obligations.CommandsKeepTableEntriesInsideTheWindow := by
  unfold Obligations.CommandsKeepTableEntriesInsideTheWindow
  intro i s t hc hhead hprev hs h
  by_cases hi : i = .reset
  · subst hi
    cases h
    exact hs
  rw [exec_eq_finish hi] at h
  cases h
  match hk : commandBody i s with
  | .done u =>
    have hu : u.EntriesInWindow := commandBody_done_entriesInWindow hc hhead hprev hs hk
    exact hu
  | .signal c => exact hs
  | .fault c => exact hs

end Sys2Proof.Machine
end

section
/-! The match finder in the large (42_match_finder.md sections 2 to 6): what a search guarantees of the match it reports,
what it examines, and what it depends on. -/
namespace Sys2Proof.Machine

/-! ## The live chain (41_hash_index.md section 4) -/

section LiveChain
variable {s : State} {cur bound fuel : Nat}

theorem liveChain_of_le (h : cur ≤ s.searchLimit) : s.liveChain fuel cur = [] := by
  cases fuel with
  | zero => rfl
  | succ n => rw [State.liveChain, if_pos h]

theorem liveChain_succ (h : s.searchLimit < cur) : s.liveChain (fuel + 1) cur =
    cur :: s.liveChain fuel (Memory.read s.prev (s.prevIndex cur)).toNat := by
  rw [State.liveChain, if_neg (Nat.not_le.mpr h)]

/-- A live chain stays above the limit; where links descend it falls strictly from its entry point. -/
theorem liveChain_falls (hd : s.ChainDescends) (hcur : cur < s.regs.strstart.toNat) :
    (s.liveChain fuel cur).Pairwise (· > ·) ∧ ∀ c ∈ s.liveChain fuel cur, s.searchLimit < c ∧ c ≤ cur := by
  induction fuel generalizing cur with
  | zero => simp [State.liveChain]
  | succ n ih =>
    by_cases hl : cur ≤ s.searchLimit
    · simp [liveChain_of_le hl]
    · have hl' := Nat.lt_of_not_le hl
      have hlink := hd cur hl' hcur
      obtain ⟨hfall, hin⟩ := ih (hlink.trans hcur)
      rw [liveChain_succ hl']
      refine ⟨List.pairwise_cons.mpr ⟨fun c hc => (hin c hc).2.trans_lt hlink, hfall⟩, fun c hc => ?_⟩
      obtain rfl | hc := List.mem_cons.mp hc
      · exact ⟨hl', le_rfl⟩
      · exact ⟨(hin c hc).1, (hin c hc).2.trans hlink.le⟩

/-- Strictly falling numbers between two bounds are at most as many as there are numbers between them. -/
theorem length_le_of_falling {lo hi : Nat} {l : List Nat} (hfall : l.Pairwise (· > ·))
    (hin : ∀ c ∈ l, lo < c ∧ c < hi) : l.length ≤ hi - 1 - lo := by
  have hnodup : l.Nodup := hfall.imp (fun h => Nat.ne_of_gt h)
  have hsub : l.toFinset ⊆ Finset.Ioo lo hi := fun c hc => Finset.mem_Ioo.mpr (hin c (List.mem_toFinset.mp hc))
  have hcard := Finset.card_le_card hsub
  rw [List.toFinset_card_of_nodup hnodup, Nat.card_Ioo] at hcard
  omega

/-- Fewer positions than the window holds lie between the limit and `STRSTART`. -/
theorem live_count_lt_wsize (s : State) : s.regs.strstart.toNat - 1 - s.searchLimit ≤ s.wsize - 1 := by
  unfold State.searchLimit
  split <;> omega

end LiveChain

/-- Settles O42: the live chain falls strictly between the limit and `STRSTART`. -/
theorem liveChainIsShorterThanTheWindow : Obligations.LiveChainIsShorterThanTheWindow := by
  unfold Obligations.LiveChainIsShorterThanTheWindow
  intro s fuel cur hd hcur
  obtain ⟨hfall, hin⟩ := liveChain_falls (fuel := fuel) hd hcur
  have hlen := length_le_of_falling hfall fun c hc => ⟨(hin c hc).1, (hin c hc).2.trans_lt hcur⟩
  have hcount := live_count_lt_wsize s
  have hpos := wsize_pos s
  exact ⟨by omega, hfall⟩

/-! ## The compare -/

/-- Settles O44: a difference at an offset bounds the match length by the offset. -/
theorem cheapRejectionLosesNoMatch : Obligations.CheapRejectionLosesNoMatch := by
  unfold Obligations.CheapRejectionLosesNoMatch
  intro w ss cur best k hk hne
  by_contra hlt
  exact hne (matchLen_agree (by omega))

theorem matchLen_congr {w w' : Window} {a b : Nat} (ha : ∀ i < 258, w'.read (a + i) = w.read (a + i))
    (hb : ∀ i < 258, w'.read (b + i) = w.read (b + i)) : matchLen w' a b = matchLen w a b := by
  have hle : matchLen w a b ≤ 258 := matchLen_le
  refine matchLen_eq_iff.mpr ⟨hle, fun i hi => ?_, fun hlt => ?_⟩
  · rw [ha i (by omega), hb i (by omega)]
    exact matchLen_agree hi
  · rw [ha _ hlt, hb _ hlt]
    exact matchLen_differ hlt

/-- Windows that agree below an extent give match lengths that agree up to it. -/
theorem min_matchLen_congr {w w' : Window} {a b n : Nat} (ha : ∀ i < n, w'.read (a + i) = w.read (a + i))
    (hb : ∀ i < n, w'.read (b + i) = w.read (b + i)) : min (matchLen w' a b) n = min (matchLen w a b) n := by
  have hle {v v' : Window} (ha : ∀ i < n, v'.read (a + i) = v.read (a + i))
      (hb : ∀ i < n, v'.read (b + i) = v.read (b + i)) : min (matchLen v' a b) n ≤ matchLen v a b := by
    by_contra hlt
    have hmax : matchLen v' a b ≤ Config.maxMatch := matchLen_le
    refine matchLen_differ (w := v) (a := a) (b := b) (by omega) ?_
    rw [← ha _ (by omega), ← hb _ (by omega)]
    exact matchLen_agree (by omega)
  have h1 := hle ha hb
  have h2 := hle (fun i hi => (ha i hi).symm) (fun i hi => (hb i hi).symm)
  omega

/-! ## How LMATCH ends -/

section Lmatch
variable {s t : State} {cur : Word}

/-- An LMATCH that ends with `OK` has searched. -/
theorem exec_lmatch_ok (h : exec (.lmatch cur) s = .next t) (hok : t.response = some .ok) :
    ∃ r, s.search cur.toNat = some r ∧ t = s.afterSearch r := by
  obtain ⟨u, hbody, rfl⟩ := exec_ok (by simp) h hok
  obtain ⟨r, hr, rfl⟩ := lmatchBody_eq_done hbody
  exact ⟨r, hr, rfl⟩

/-- The search is over with the budget before it begins. -/
theorem search_of_no_budget (h : s.searchBudget = 0) : s.search cur.toNat = some (s.searchAfter cur.toNat 0
    (if cur.toNat ≤ s.searchLimit then .limit else .budget)) := by
  have hno : ∀ k < 0, s.GoesOnPast cur.toNat k := fun _ hk => absurd hk (Nat.not_lt_zero _)
  split
  next hl => exact search_limit hno hl
  next hl => exact search_budget hno (Nat.lt_of_not_le hl) h.symm

/-- The first position ends the search. -/
theorem search_of_first_ends {stop : StopReason} (hbudget : 0 < s.searchBudget) (hl : s.searchLimit < cur.toNat)
    (hc : cur.toNat < s.regs.strstart.toNat)
    (hstop : s.regs.prevLength.toNat < matchLen s.win s.regs.strstart.toNat cur.toNat ∧
        s.searchNice ≤ matchLen s.win s.regs.strstart.toNat cur.toNat ∧ stop = .nice ∨
      matchLen s.win s.regs.strstart.toNat cur.toNat ≤ s.regs.prevLength.toNat ∧ s.searchLow = true ∧ stop = .noImprove) :
    s.search cur.toNat = some (s.searchAfter cur.toNat 1 stop) :=
  search_last (fun _ hk => absurd hk (Nat.not_lt_zero _)) hl hc hbudget hstop

end Lmatch

/-- Settles O45: a bad entry point is the loop's first answer, and a descending chain ends every search. -/
theorem lmatchCompletesOnADescendingChain : Obligations.LmatchCompletesOnADescendingChain := by
  unfold Obligations.LmatchCompletesOnADescendingChain
  refine ⟨fun a => decode_encode (.lmatch a), fun b a => rejectedWord_of_oneOperand a (by decide),
    fun s cur => ⟨fun hout => endsWithFault_of_body (by simp) (lmatchBody_outside hout), fun hfit hl hb hc => ?_,
      fun hfit hd hc => ?_⟩⟩
  · have hnone : s.search cur.toNat = none :=
      search_chain (n := 0) (fun _ hk => absurd hk (Nat.not_lt_zero _)) hl hb hc
    exact endsWithFault_of_body (by simp) (lmatchBody_chain hfit hnone)
  · have hsome : (s.search cur.toNat).isSome := searchLoop_isSome hd hc
    obtain ⟨r, hr⟩ := Option.isSome_iff_exists.mp hsome
    exact ⟨_, exec_lmatch_done hfit hr, afterSearch_frame s r, by simp, by simp, by simp⟩

/-- Settles O48: a budget of zero ends the search before its first position. -/
theorem zeroBudgetExaminesNothing : Obligations.ZeroBudgetExaminesNothing := by
  unfold Obligations.ZeroBudgetExaminesNothing
  intro s cur hfit hchain
  have hbudget : s.searchBudget = 0 := by
    rw [searchBudget_eq]
    obtain h0 | ⟨h1, hgood⟩ := hchain
    · rw [h0]
      exact ite_self _
    · rw [h1, if_pos hgood]
      rfl
  refine ⟨_, exec_lmatch_done hfit (search_of_no_budget hbudget), rfl, toNat_afterSearch_result _ _, ?_, ?_, ?_⟩
  · simp [State.searchAfter, State.matchStartAfter]
  · simp [State.searchAfter, State.foundAfter, State.bestAfter]
  · rw [afterSearch_status, stopr_recordSearch]
    dsimp only [State.searchAfter]
    split <;> rfl

/-- Settles O49: the loop's answer at its first position, in the two ways that position can be the last. -/
theorem firstCandidateCanEndTheSearch : Obligations.FirstCandidateCanEndTheSearch := by
  unfold Obligations.FirstCandidateCanEndTheSearch
  intro s cur hfit hbudget hl hc
  refine ⟨fun hlt hnice => ?_, fun hle hlow => ?_⟩
  · have hs := search_of_first_ends hbudget hl hc (.inl ⟨hlt, hnice, rfl⟩)
    refine ⟨_, exec_lmatch_done hfit hs, rfl, ?_, ?_, ?_, ?_⟩
    · rw [toNat_afterSearch_result]
      exact congrArg (min · _) (max_eq_right hlt.le)
    · simp [State.searchAfter, State.matchStartAfter, State.bestAfter, State.chainLen, State.chainAt, hlt]
    · simp [State.searchAfter, State.foundAfter, State.bestAfter, State.chainLen, State.chainAt, hlt]
    · simp [State.searchAfter, StopReason.number]
  · have hs := search_of_first_ends hbudget hl hc (.inr ⟨hle, searchLow_eq_true_iff.mpr hlow, rfl⟩)
    refine ⟨_, exec_lmatch_done hfit hs, rfl, ?_, ?_, ?_, ?_⟩
    · rw [toNat_afterSearch_result]
      exact congrArg (min · _) (max_eq_left hle)
    · simp [State.searchAfter, State.matchStartAfter, State.bestAfter, State.chainLen, State.chainAt, Nat.not_lt.mpr hle]
    · simp [State.searchAfter, State.foundAfter, State.bestAfter, State.chainLen, State.chainAt, hle]
    · simp [State.searchAfter, StopReason.number]

/-! ## What a search guarantees (section 6) -/

section Guarantees
variable {q : SearchSetup} {n cur bound best ms : Nat} {found : Bool} {r : Search}

/-- A position examined before the one accepted is a shorter match. -/
theorem searchLoop_nearest (h : searchLoop q n cur bound best ms found = some r) (hlt : best < r.best) :
    ∀ c ∈ r.examined, r.matchStart < c → matchLen q.win q.ss c < r.best := by
  induction n generalizing cur bound best ms found r with
  | zero =>
    rw [searchLoop_zero h] at hlt
    exact absurd hlt (lt_irrefl best)
  | succ n ih =>
    rcases searchLoop_succ h with ⟨-, rfl⟩ | ⟨-, -, ⟨-, -, rfl⟩ | ⟨-, -, r', hr, rfl⟩ | ⟨-, -, rfl⟩ | ⟨hle, -, r', hr, rfl⟩⟩
    · exact absurd hlt (lt_irrefl best)
    · intro c hc hnear
      rw [List.mem_singleton.mp hc] at hnear
      exact absurd hnear (lt_irrefl cur)
    · change ∀ c ∈ cur :: r'.examined, r'.matchStart < c → matchLen q.win q.ss c < r'.best
      obtain ⟨-, hbelow, -⟩ := searchLoop_examined hr
      obtain ⟨-, hms, -⟩ | ⟨hbest, -, -, -⟩ := searchLoop_accepts hr
      · -- `cur` is the one accepted, and what comes after it is below it
        rw [hms]
        intro c hc hnear
        obtain rfl | hc := List.mem_cons.mp hc
        · exact absurd hnear (lt_irrefl c)
        · exact absurd (hbelow c hc).2 (Nat.not_lt_of_lt hnear)
      · exact List.forall_mem_cons.mpr ⟨fun _ => hbest, ih hr hbest⟩
    · exact absurd hlt (lt_irrefl best)
    · exact List.forall_mem_cons.mpr ⟨fun _ => hle.trans_lt hlt, ih hr hlt⟩

variable {s : State}

/-- A search that ends at the limit has examined the whole live chain. -/
theorem searchLoop_examined_eq_liveChain {fuel : Nat}
    (h : searchLoop s.searchSetup n cur bound best ms found = some r) (hstop : r.stop = .limit) (hfuel : bound ≤ fuel) :
    r.examined = s.liveChain fuel cur := by
  induction n generalizing cur bound best ms found r fuel with
  | zero =>
    rw [searchLoop_zero h] at hstop ⊢
    by_cases hl : cur ≤ s.searchSetup.limit
    · exact (liveChain_of_le hl).symm
    · rw [if_neg hl] at hstop
      cases hstop
  | succ n ih =>
    have hgo {r' : Search} {best ms : Nat} {found : Bool} (hl : s.searchLimit < cur) (hc : cur < bound)
        (hr : searchLoop s.searchSetup n (s.searchSetup.link cur) cur best ms found = some r')
        (hstop : r'.stop = .limit) : cur :: r'.examined = s.liveChain fuel cur := by
      obtain ⟨f, rfl⟩ : ∃ f, fuel = f + 1 := ⟨fuel - 1, by omega⟩
      rw [liveChain_succ hl, ih hr hstop (show cur ≤ f by omega)]
      rfl
    rcases searchLoop_succ h with
      ⟨hl, rfl⟩ | ⟨hl, hc, ⟨-, -, rfl⟩ | ⟨-, -, r', hr, rfl⟩ | ⟨-, -, rfl⟩ | ⟨-, -, r', hr, rfl⟩⟩
    · exact (liveChain_of_le hl).symm
    · cases hstop
    · exact hgo hl hc hr hstop
    · cases hstop
    · exact hgo hl hc hr hstop

/-- A position examined fits the register it may be written to. -/
theorem toNat_ofNat_of_mem_examined {c cur : Nat} (h : s.search cur = some r) (hc : c ∈ r.examined) :
    (BitVec.ofNat 32 c).toNat = c := by
  have hlt := ((searchLoop_examined h).2.1 c hc).2
  have hss := s.regs.strstart.isLt
  exact (BitVec.toNat_ofNat _ _).trans (Nat.mod_eq_of_lt (by omega))

/-- What LMATCH's search has accepted: nothing, or an examined position longer than the known length. -/
theorem search_accepts {cur : Nat} (h : s.search cur = some r) :
    (r.best = s.regs.prevLength.toNat ∧ r.matchStart = s.regs.matchStart.toNat ∧ r.found = false) ∨
      (s.regs.prevLength.toNat < r.best ∧ r.found = true ∧ r.matchStart ∈ r.examined ∧
        r.best = matchLen s.win s.regs.strstart.toNat r.matchStart) := searchLoop_accepts h

end Guarantees

/-- Settles O51: `searchLoop_examined`, and the count of what lies between the limit and `STRSTART`. -/
theorem searchExaminesFallingLivePositions : Obligations.SearchExaminesFallingLivePositions := by
  unfold Obligations.SearchExaminesFallingLivePositions
  intro s cur r h
  obtain ⟨hfall, hin, hlen⟩ := searchLoop_examined h
  have hwindow := (length_le_of_falling hfall hin).trans (live_count_lt_wsize s)
  have hbudget : s.searchBudget ≤ s.regs.maxChain.toNat := by
    rw [searchBudget_eq]
    split <;> omega
  exact ⟨hfall, hin, hlen, le_min (hlen.trans hbudget) hwindow⟩

/-- Settles O50: what is reported has been accepted (`search_accepts`), so it is an examined position whose match length is
the best. -/
theorem lmatchReportsOnlyTrueMatches : Obligations.LmatchReportsOnlyTrueMatches := by
  unfold Obligations.LmatchReportsOnlyTrueMatches
  intro s t cur h hok
  obtain ⟨r, hr, rfl⟩ := exec_lmatch_ok h hok
  have hbest : s.regs.prevLength.toNat ≤ r.best := searchLoop_best_le hr
  rw [toNat_afterSearch_result, afterSearch_status, found_recordSearch, afterSearch_matchStart]
  refine ⟨min_le_right _ _, min_le_min_right _ hbest, fun hp => ?_, fun hf => ?_, fun hf => ?_⟩
  · obtain ⟨he, -⟩ | ⟨-, -, -, he⟩ := search_accepts hr
    · omega
    · have hle : r.best ≤ 258 := he ▸ matchLen_le
      omega
  · obtain ⟨-, -, hno⟩ | ⟨-, -, hmem, he⟩ := search_accepts hr
    · rw [hf] at hno
      cases hno
    obtain ⟨hl, hc⟩ := (searchLoop_examined hr).2.1 _ hmem
    rw [toNat_ofNat_of_mem_examined hr hmem]
    change s.searchLimit < _ at hl
    have hcount := live_count_lt_wsize s
    have hms := toNat_ofNat_of_mem_examined hr hmem
    refine ⟨hl, hc, by omega, fun h0 => ?_, fun i hi => ?_⟩
    · rw [h0] at hms
      change 0 = _ at hms
      omega
    · exact (matchLen_agree (by omega)).symm
  · obtain ⟨he, hm, -⟩ | ⟨-, hyes, -⟩ := search_accepts hr
    · rw [he, hm]
      exact ⟨by simp, rfl⟩
    · rw [hf] at hyes
      cases hyes

/-- Settles O52: a search that ends at the limit has examined the live chain, so its best is the chain's, and what came
before the position accepted was shorter. -/
theorem lmatchAtTheLimitFindsTheLongest : Obligations.LmatchAtTheLimitFindsTheLongest := by
  unfold Obligations.LmatchAtTheLimitFindsTheLongest
  intro s t cur h hok hstop _
  obtain ⟨r, hr, rfl⟩ := exec_lmatch_ok h hok
  rw [afterSearch_status, stopr_recordSearch] at hstop
  have hlimit : r.stop = .limit := by
    match hs : r.stop with
    | .limit => rfl
    | .budget | .nice | .noImprove => rw [hs] at hstop; cases hstop
  have hchain : r.examined = s.liveChain s.regs.strstart.toNat cur.toNat :=
    searchLoop_examined_eq_liveChain hr hlimit le_rfl
  rw [← hchain, afterSearch_matchStart, afterSearch_status, found_recordSearch]
  refine ⟨r.best, toNat_afterSearch_result _ _, searchLoop_best_le hr, searchLoop_examined_le_best hr, fun hlt => ?_,
    fun heq => ?_⟩
  · obtain ⟨he, -⟩ | ⟨-, -, hmem, he⟩ := search_accepts hr
    · omega
    · rw [toNat_ofNat_of_mem_examined hr hmem]
      exact ⟨hmem, he.symm, searchLoop_nearest hr hlt⟩
  · obtain ⟨-, -, hno⟩ | ⟨hlt, -⟩ := search_accepts hr
    · exact hno
    · omega

/-! ## What a search depends on (section 4) -/

section Dependence
variable {q q' : SearchSetup} {n cur bound best ms : Nat} {found : Bool} {r : Search}

/-- Two searches with the same limits are the same where every position the first examines has the same match length and
link. -/
theorem searchLoop_congr (hlimit : q'.limit = q.limit) (hnice : q'.nice = q.nice) (hlow : q'.low = q.low)
    (h : searchLoop q n cur bound best ms found = some r)
    (hsame : ∀ c ∈ r.examined, matchLen q'.win q'.ss c = matchLen q.win q.ss c ∧ q'.link c = q.link c) :
    searchLoop q' n cur bound best ms found = some r := by
  induction n generalizing cur bound best ms found r with
  | zero => rwa [searchLoop, hlimit]
  | succ n ih =>
    rcases searchLoop_succ h with
      ⟨hl, rfl⟩ | ⟨hl, hc, ⟨h1, h2, rfl⟩ | ⟨h1, h2, r', hr, rfl⟩ | ⟨h1, h2, rfl⟩ | ⟨h1, h2, r', hr, rfl⟩⟩
    · exact searchLoop_limit (hlimit ▸ hl)
    all_goals
      obtain ⟨hlen, hlink⟩ := hsame cur (List.mem_cons_self)
      rw [searchLoop, hlen, hlink, hlimit, hnice, hlow, if_neg (Nat.not_le.mpr hl), if_neg (Nat.not_le.mpr hc)]
    · rw [if_pos h1, if_pos h2]
    · rw [if_pos h1, if_neg (Nat.not_le.mpr h2), ih hr fun c hc => hsame c (List.mem_cons_of_mem _ hc)]
      rfl
    · rw [if_neg (Nat.not_lt.mpr h1), if_pos h2]
    · rw [if_neg (Nat.not_lt.mpr h1), if_neg (by simp [h2]), ih hr fun c hc => hsame c (List.mem_cons_of_mem _ hc)]
      rfl

/-- The same search with its best length clamped. -/
def Search.clamp (lookahead : Nat) (r : Search) : Search := { r with best := min r.best lookahead }

theorem map_clamp_afterExamining {lookahead : Nat} {x y : Option Search} (cur : Nat)
    (h : x.map (Search.clamp lookahead) = y.map (Search.clamp lookahead)) :
    (x.map (Search.afterExamining cur)).map (Search.clamp lookahead) =
      (y.map (Search.afterExamining cur)).map (Search.clamp lookahead) := by
  have hcomm (z : Option Search) : (z.map (Search.afterExamining cur)).map (Search.clamp lookahead) =
      (z.map (Search.clamp lookahead)).map (Search.afterExamining cur) := by
    rw [Option.map_map, Option.map_map]
    rfl
  rw [hcomm, hcomm, h]

/-- Bytes from `ss + lookahead` on do not change a search that looks for no more than `lookahead` bytes, the clamped part
of its best length apart. -/
theorem searchLoop_clamp {w' : Window} {lookahead : Nat}
    (hw : ∀ a < q.ss + lookahead, w'.read a = q.win.read a) (hnice : q.nice ≤ lookahead) (hb : bound ≤ q.ss)
    (hbest : best < lookahead) :
    (searchLoop { q with win := w' } n cur bound best ms found).map (Search.clamp lookahead) =
      (searchLoop q n cur bound best ms found).map (Search.clamp lookahead) := by
  induction n generalizing cur bound best ms found with
  | zero => rfl
  | succ n ih =>
    by_cases hl : cur ≤ q.limit
    · rw [searchLoop_limit hl, searchLoop_limit (q := { q with win := w' }) hl]
    have hl' := Nat.lt_of_not_le hl
    by_cases hc : bound ≤ cur
    · rw [searchLoop_chain hl' hc, searchLoop_chain (q := { q with win := w' }) hl' hc]
    have hc' := Nat.lt_of_not_le hc
    have hlen : min (matchLen w' q.ss cur) lookahead = min (matchLen q.win q.ss cur) lookahead :=
      min_matchLen_congr (fun i hi => hw _ (by omega)) (fun i hi => hw _ (by omega))
    obtain hlong | hshort := Nat.lt_or_ge (matchLen q.win q.ss cur) lookahead |>.symm
    · -- both searches accept the candidate and end with it
      rw [searchLoop_last hl' hc' (.inl ⟨by omega, by omega, rfl⟩),
        searchLoop_last (q := { q with win := w' }) hl' hc' (.inl ⟨by dsimp only; omega, by dsimp only; omega, rfl⟩)]
      have hlt' : best < matchLen w' q.ss cur := by omega
      have hlt : best < matchLen q.win q.ss cur := by omega
      have hmax : min (max best (matchLen w' q.ss cur)) lookahead = min (max best (matchLen q.win q.ss cur)) lookahead := by
        omega
      simp [Search.clamp, Search.stopped, Search.afterExamining, hlt, hlt', hmax]
    · -- the candidate has the same length in both
      have heq : matchLen w' q.ss cur = matchLen q.win q.ss cur := by omega
      rw [searchLoop, searchLoop]
      dsimp only [SearchSetup.link]
      rw [heq, if_neg hl, if_neg hc, if_neg hl, if_neg hc]
      split
      · split
        · rfl
        · exact map_clamp_afterExamining cur (ih (hc'.le.trans hb) hshort)
      · split
        · rfl
        · exact map_clamp_afterExamining cur (ih (hc'.le.trans hb) hbest)

end Dependence

/-- Settles O53: the two searches have the same setup but for window and table, and agree in what the first one reads of
these (`searchLoop_congr`). -/
theorem lmatchDependsOnlyOnWhatItReads : Obligations.LmatchDependsOnlyOnWhatItReads := by
  unfold Obligations.LmatchDependsOnlyOnWhatItReads
  intro s s' cur r hr hss hla hpl hms hmc hgm hnm hlv hel hwb hst hwin hexam hfit hfit'
  have hwsize : s'.wsize = s.wsize := by rw [State.wsize, State.wsize, hwb]
  have hlimit : s'.searchLimit = s.searchLimit := by rw [searchLimit_eq, searchLimit_eq, hss, hwb]
  have hbudget : s'.searchBudget = s.searchBudget := by rw [searchBudget_eq, searchBudget_eq, hgm, hpl, hmc]
  have hnice : s'.searchNice = s.searchNice := by rw [State.searchNice, State.searchNice, hnm, hla]
  have hlow : s'.searchLow = s.searchLow := by rw [State.searchLow, State.searchLow, hlv, hel]
  have hr' : s'.search cur.toNat = some r := by
    rw [State.search, hbudget, hss, hpl, hms]
    refine searchLoop_congr (q := s.searchSetup) hlimit hnice hlow hr fun c hc => ?_
    obtain ⟨hprev, hbytes⟩ := hexam c hc
    have hindex : s'.prevIndex c = s.prevIndex c := by rw [prevIndex_eq_mod, prevIndex_eq_mod, hwsize]
    refine ⟨?_, ?_⟩
    · change matchLen s'.win s'.regs.strstart.toNat c = matchLen s.win s.regs.strstart.toNat c
      rw [hss]
      exact matchLen_congr hwin hbytes
    · change (Memory.read s'.prev (s'.prevIndex c)).toNat = (Memory.read s.prev (s.prevIndex c)).toNat
      rw [hindex, hprev]
  refine ⟨_, _, exec_lmatch_done hfit hr, exec_lmatch_done hfit' hr', rfl, ?_, rfl, ?_⟩
  · apply BitVec.eq_of_toNat_eq
    rw [toNat_afterSearch_result, toNat_afterSearch_result, hla]
  · rw [afterSearch_status, afterSearch_status, hst]

/-! ## Bytes beyond the lookahead (70_reset_and_hazards.md section 3) -/

section Lookahead
variable {s t t' : State} {w' : Window} {cur : Word}

/-- What LMATCH leaves depends on its search's best length clamped only. -/
theorem afterSearch_clamp (s : State) (r : Search) :
    s.afterSearch (r.clamp s.regs.lookahead.toNat) = s.afterSearch r := by
  simp [State.afterSearch, Search.clamp, State.recordSearch]

/-- LMATCH's next state in terms of its search, clamped. -/
theorem exec_lmatch_fit (hfit : s.regs.strstart.toNat + 258 ≤ s.cfg.winBytes) : exec (.lmatch cur) s =
    .next (((s.search cur.toNat).map (Search.clamp s.regs.lookahead.toNat)).elim (takeFault .errChain s) s.afterSearch) := by
  match hs : s.search cur.toNat with
  | none =>
    rw [exec_eq_finish (by simp), commandBody, lmatchBody_chain hfit hs]
    rfl
  | some r =>
    rw [exec_lmatch_done hfit hs, ← afterSearch_clamp]
    rfl

theorem search_clamp (hw : ∀ a < s.regs.strstart.toNat + s.regs.lookahead.toNat, w'.read a = s.win.read a)
    (hp : s.regs.prevLength.toNat < s.regs.lookahead.toNat) (cur : Nat) :
    (State.search { s with win := w' } cur).map (Search.clamp s.regs.lookahead.toNat) =
      (s.search cur).map (Search.clamp s.regs.lookahead.toNat) :=
  searchLoop_clamp (q := s.searchSetup) hw (min_le_right _ _) le_rfl hp

end Lookahead

/-- Settles O54: below the lookahead the two searches are the same, clamped; at or above it every best length is clamped
to the lookahead. -/
theorem lmatchIgnoresBytesBeyondTheLookahead : Obligations.LmatchIgnoresBytesBeyondTheLookahead := by
  unfold Obligations.LmatchIgnoresBytesBeyondTheLookahead
  intro s t t' w' cur hw h h'
  have hsame (hp : s.regs.prevLength.toNat < s.regs.lookahead.toNat) : t'.response = t.response ∧ t'.regs = t.regs := by
    by_cases hfit : s.regs.strstart.toNat + 258 ≤ s.cfg.winBytes
    · rw [exec_lmatch_fit hfit] at h
      rw [exec_lmatch_fit (s := { s with win := w' }) hfit] at h'
      dsimp only at h'
      rw [search_clamp hw hp] at h'
      cases h
      cases h'
      cases (s.search cur.toNat).map (Search.clamp s.regs.lookahead.toNat) <;> exact ⟨rfl, rfl⟩
    · have hout := Nat.lt_of_not_le hfit
      rw [exec_eq_finish (by simp), commandBody, lmatchBody_outside hout] at h
      rw [exec_eq_finish (by simp), commandBody, lmatchBody_outside (s := { s with win := w' }) hout] at h'
      cases h
      cases h'
      exact ⟨rfl, rfl⟩
  refine ⟨fun hok hok' => ?_, hsame⟩
  obtain hp | hp := Nat.lt_or_ge s.regs.prevLength.toNat s.regs.lookahead.toNat
  · rw [(hsame hp).2]
  · obtain ⟨r, hr, rfl⟩ := exec_lmatch_ok h hok
    obtain ⟨r', hr', rfl⟩ := exec_lmatch_ok h' hok'
    have hbest : s.regs.prevLength.toNat ≤ r.best := searchLoop_best_le hr
    have hbest' : s.regs.prevLength.toNat ≤ r'.best := searchLoop_best_le hr'
    apply BitVec.eq_of_toNat_eq
    rw [toNat_afterSearch_result, toNat_afterSearch_result, min_eq_right (hp.trans hbest)]
    exact min_eq_right (hp.trans hbest')

end Sys2Proof.Machine
end

section
/-! The copy engine in the large (43_copy_engine.md section 2): copies do not depend on the chunk width, and the reference
chunked algorithm is the byte-serial copy. -/
namespace Sys2Proof.Machine

/-! ## Copies and the chunk width -/

/-- The same machine with another chunk width. -/
def State.withChunk (c : Nat) (s : State) : State := { s with cfg := { s.cfg with chunk := c } }

section ChunkWidth
variable {s t : State} {len : Word} {dist : Field24}

theorem copysBody_withChunk (c : Nat) (s : State) (len dist : Nat) :
    copysBody len dist (s.withChunk c) = (copysBody len dist s).map (State.withChunk c) := by
  simp only [copysBody, apply_ite (Completion.map _)]
  rfl

theorem finish_withChunk (c : Nat) (s : State) (k : Completion) :
    finish (s.withChunk c) (k.map (State.withChunk c)) = (finish s k).withChunk c := by
  cases k <;> rfl

theorem exec_copys_withChunk (c : Nat) (h : exec (.copys len dist) s = .next t) :
    exec (.copys len dist) (s.withChunk c) = .next (t.withChunk c) := by
  rw [exec_eq_finish (by simp)] at h ⊢
  cases h
  rw [commandBody, copysBody_withChunk, finish_withChunk]
  rfl

/-- A COPY that ends with `OK` leaves the registers of the byte-serial copy, and its bytes outside the slack. -/
theorem exec_copy_ok (hw : s.win.wf) (h : exec (.copy len dist) s = .next t) (hok : t.response = some .ok) :
    ∃ win draws, t = s.afterCopy (s.regs.out.toNat + len.toNat) win draws ∧
      ∀ x, x < s.regs.out.toNat + len.toNat ∨ s.regs.out.toNat + len.toNat + s.cfg.chunk ≤ x →
        win.read x = (serialCopy dist.toNat len.toNat s.regs.out.toNat s.win).read x := by
  obtain ⟨u, hbody, rfl⟩ := exec_ok (by simp) h hok
  obtain ⟨-, -, -, -, win, draws, rfl, rfl | ⟨-, rfl⟩⟩ := copyBody_done_cases hbody
  · exact ⟨_, draws, rfl, fun x _ => rfl⟩
  · exact ⟨_, draws, rfl, fun x hx => Window.read_unspecify_outside (serialCopy_wf hw) hx⟩

end ChunkWidth

/-- Settles O57: COPYS does not read the width, and COPY reads it for the regime and the slack only. -/
theorem copiesDoNotDependOnTheChunkWidth : Obligations.CopiesDoNotDependOnTheChunkWidth := by
  unfold Obligations.CopiesDoNotDependOnTheChunkWidth
  intro s c len dist t t' hw
  refine ⟨fun h h' => ?_, fun h h' hok hok' => ?_⟩
  · have heq := (exec_copys_withChunk c h).symm.trans h'
    cases heq
    rfl
  · obtain ⟨win, draws, rfl, hread⟩ := exec_copy_ok hw h hok
    obtain ⟨win', draws', rfl, hread'⟩ := exec_copy_ok (s := s.withChunk c) hw h' hok'
    refine ⟨rfl, rfl, rfl, fun x hx => ?_⟩
    have hx' : x < s.regs.out.toNat + len.toNat ∨ s.regs.out.toNat + len.toNat + c ≤ x := by omega
    rw [afterCopy_win, afterCopy_win, hread x (by omega)]
    exact hread' x hx'

/-! ## The reference chunked algorithm (R166 to R172) -/

/-- In `v` the `dist` bytes that `w` has from `b` on are repeated as far as `b + n`; below `b`, and from `lim` on, `v` is
as `w`. -/
structure PatternFilled (w : Window) (b dist lim n : Nat) (v : Window) : Prop where
  wf : v.wf
  inside : ∀ j < n, v.read (b + j) = w.read (b + j % dist)
  below : ∀ x < b, v.read x = w.read x
  above : ∀ x, lim ≤ x → v.read x = w.read x

section Filled
variable {w v : Window} {b c d dist i len lim m n out r total : Nat} {p : List Byte} {safe : Bool}

theorem patternFilled_start (h : w.wf) : PatternFilled w b dist lim dist w :=
  ⟨h, fun j hj => by rw [Nat.mod_eq_of_lt hj], fun _ _ => rfl, fun _ _ => rfl⟩

theorem add_mod_of_dvd (hd : dist ∣ d) (a : Nat) : (a + d) % dist = a % dist := by
  obtain ⟨k, rfl⟩ := hd
  exact Nat.add_mul_mod_self_left a dist k

/-- The byte a multiple of `dist` behind is the next byte of the pattern. -/
theorem PatternFilled.read_behind (h : PatternFilled w b dist lim n v) (hd : dist ∣ d) (hdn : d ≤ n) (hi : i < d) :
    v.read (b + n - d + i) = w.read (b + (n + i) % dist) := by
  rw [show b + n - d + i = b + (n - d + i) by omega, h.inside _ (by omega), ← add_mod_of_dvd hd (n - d + i)]
  congr 3
  omega

/-- Lanes stored at the end of the pattern lengthen it by as many as continue it. -/
theorem PatternFilled.storeLanes (h : PatternFilled w b dist lim n v) (ho : out = b + n) (hm : m ≤ p.length)
    (hlim : b + n + p.length ≤ lim) (hp : ∀ i < m, p.getD i 0 = w.read (b + (n + i) % dist)) :
    PatternFilled w b dist lim (n + m) (storeLanes v out p) := by
  subst ho
  refine ⟨storeLanes_wf p h.wf, fun j hj => ?_, fun x hx => ?_, fun x hx => ?_⟩
  · rw [read_storeLanes p h.wf]
    by_cases hjn : j < n
    · rw [if_neg (by omega), h.inside j hjn]
    · rw [if_pos (by omega), Nat.add_sub_add_left, hp _ (by omega), Nat.add_sub_cancel' (Nat.le_of_not_lt hjn)]
  · rw [read_storeLanes p h.wf, if_neg (by omega), h.below x hx]
  · rw [read_storeLanes p h.wf, if_neg (by omega), h.above x hx]

/-- The byte-serial copy from a multiple of `dist` behind lengthens the pattern. -/
theorem PatternFilled.serialCopy (h : PatternFilled w b dist lim n v) (ho : out = b + n) (hd : dist ∣ d) (hd0 : 0 < d)
    (hdn : d ≤ n) (hlim : b + n + m ≤ lim) : PatternFilled w b dist lim (n + m) (serialCopy d m out v) := by
  subst ho
  refine ⟨serialCopy_wf h.wf, fun j hj => ?_, fun x hx => ?_, fun x hx => ?_⟩
  · by_cases hjn : j < n
    · rw [read_serialCopy_outside h.wf (by omega), h.inside j hjn]
    · obtain ⟨i, rfl⟩ := Nat.exists_eq_add_of_le (Nat.le_of_not_lt hjn)
      rw [← Nat.add_assoc, read_serialCopy_eq_pattern h.wf hd0 (by omega) (by omega),
        h.read_behind hd hdn (Nat.mod_lt i hd0)]
      congr 2
      nth_rewrite 2 [← Nat.mod_add_div i d]
      rw [← Nat.add_assoc, add_mod_of_dvd (hd.mul_right _)]
  · rw [read_serialCopy_outside h.wf (by omega), h.below x hx]
  · rw [read_serialCopy_outside h.wf (by omega), h.above x hx]

/-- How far past the bytes it copies a chunk store may write: nothing in the safe variant, a chunk in the fast one. -/
def laneSlack (safe : Bool) (c : Nat) : Nat := if safe then 0 else c

theorem PatternFilled.putChunk (h : PatternFilled w b dist (b + total + laneSlack safe c) n v) (ho : out = b + n)
    (hr : r ≤ p.length) (hc : p.length ≤ c) (ht : n + r ≤ total)
    (hp : ∀ i < r, p.getD i 0 = w.read (b + (n + i) % dist)) :
    PatternFilled w b dist (b + total + laneSlack safe c) (n + r) (putChunk safe v out p r) := by
  cases safe with
  | false =>
    have hslack : laneSlack false c = c := rfl
    exact h.storeLanes (p := p) ho hr (by omega) hp
  | true =>
    have hlen : (p.take r).length = r := List.length_take_of_le hr
    have hslack : laneSlack true c = 0 := rfl
    refine h.storeLanes (p := p.take r) ho hlen.ge (by omega) fun i hi => ?_
    rw [← hp i hi, List.getD_eq_getElem?_getD, List.getD_eq_getElem?_getD, List.getElem?_take_of_lt hi]

/-- Lanes loaded from a multiple of `dist` behind continue the pattern. -/
theorem PatternFilled.getD_loadChunk (h : PatternFilled w b dist lim n v) (ho : out = b + n) (hd : dist ∣ d) (hdn : d ≤ n)
    (hi : i < d) (him : i < m) : (loadChunk v (out - d) m).getD i 0 = w.read (b + (n + i) % dist) := by
  rw [Machine.getD_loadChunk him, ho, h.read_behind hd hdn hi]

theorem PatternFilled.putSame {k : Nat} (h : PatternFilled w b dist (b + total + laneSlack safe c) n v) (ho : out = b + n)
    (hlen : p.length = c) (hc : dist ∣ c) (ht : n + k * c ≤ total)
    (hp : ∀ i < c, p.getD i 0 = w.read (b + (n + i) % dist)) :
    PatternFilled w b dist (b + total + laneSlack safe c) (n + k * c) (putSame safe c p k out v) := by
  induction k generalizing n out v with
  | zero => rwa [Nat.zero_mul]
  | succ k ih =>
    have hk : n + (k + 1) * c = n + c + k * c := by ring
    rw [hk] at ht ⊢
    refine ih (h.putChunk ho hlen.ge hlen.le (by omega) hp) (by omega) ht fun i hi => ?_
    rw [hp i hi, Nat.add_right_comm, add_mod_of_dvd hc]

theorem PatternFilled.putBehind {k : Nat} (h : PatternFilled w b dist (b + total + laneSlack safe c) n v)
    (ho : out = b + n) (hd : dist ∣ d) (hdn : d ≤ n) (hcd : 0 < k → c ≤ d) (ht : n + k * c ≤ total) :
    PatternFilled w b dist (b + total + laneSlack safe c) (n + k * c) (putBehind safe c d k out v) := by
  induction k generalizing n out v with
  | zero => rwa [Nat.zero_mul]
  | succ k ih =>
    have hk : n + (k + 1) * c = n + c + k * c := by ring
    have hcd' := hcd k.succ_pos
    rw [hk] at ht ⊢
    refine ih (h.putChunk ho (length_loadChunk c).ge (length_loadChunk c).le (by omega) fun i hi => ?_) (by omega)
      (by omega) (fun _ => hcd') ht
    exact h.getD_loadChunk ho hd hdn (hi.trans_le hcd') hi

theorem PatternFilled.putRest (h : PatternFilled w b dist (b + total + laneSlack safe c) n v) (ho : out = b + n)
    (hd : dist ∣ d) (hdn : d ≤ n) (hrd : r ≤ d) (hrc : r ≤ c) (ht : n + r ≤ total) :
    PatternFilled w b dist (b + total + laneSlack safe c) (n + r) (putRest safe c d r out v) := by
  unfold Machine.putRest
  split
  next h0 =>
    subst h0
    exact h
  · have hlanes : r ≤ (if safe then r else c) ∧ (if safe then r else c) ≤ c := by split <;> omega
    refine h.putChunk ho (by rw [length_loadChunk]; exact hlanes.1) (by rw [length_loadChunk]; exact hlanes.2) ht
      fun i hi => ?_
    exact h.getD_loadChunk ho hd hdn (hi.trans_le hrd) (hi.trans_le hlanes.1)

theorem PatternFilled.replicateChunk (h : PatternFilled w b dist (b + total + laneSlack safe c) n v) (ho : out = b + n)
    (hc0 : 0 < c) (hlen : p.length = c) (hc : dist ∣ c) (ht : n + len ≤ total)
    (hp : ∀ i < c, p.getD i 0 = w.read (b + (n + i) % dist)) :
    PatternFilled w b dist (b + total + laneSlack safe c) (n + len) (replicateChunk safe c p len out v) := by
  have hdiv := Nat.div_add_mod' len c
  have hmod := Nat.mod_lt len hc0
  have hsame := h.putSame (k := len / c) ho hlen hc (by omega) hp
  unfold Machine.replicateChunk
  dsimp only
  split
  next h0 => rwa [show len / c * c = len by omega] at hsame
  · rw [show n + len = n + len / c * c + len % c by omega]
    refine hsame.putChunk (by omega) (by omega) hlen.le (by omega) fun i hi => ?_
    rw [hp i (by omega), Nat.add_right_comm, add_mod_of_dvd (hc.mul_left _)]

theorem PatternFilled.copyBehind (h : PatternFilled w b dist (b + total + laneSlack safe c) n v) (ho : out = b + n)
    (hc0 : 0 < c) (hd : dist ∣ d) (hdn : d ≤ n) (hcase : c ≤ d ∨ len ≤ d) (ht : n + len ≤ total) :
    PatternFilled w b dist (b + total + laneSlack safe c) (n + len) (copyBehind safe c d len out v) := by
  have hdiv := Nat.div_add_mod' len c
  have hmod := Nat.mod_lt len hc0
  have hchunks := h.putBehind (k := len / c) ho hd hdn (fun hpos => by
    have := (Nat.div_pos_iff.mp hpos).2
    omega) (by omega)
  rw [show n + len = n + len / c * c + len % c by omega]
  exact hchunks.putRest (by omega) hd (by omega) (by omega) hmod.le (by omega)

/-- Doubling ends with a distance that is a whole chunk or the whole rest. -/
theorem PatternFilled.unrollCopy {fuel : Nat} (h : PatternFilled w b dist (b + total + laneSlack safe c) n v)
    (ho : out = b + n) (hc0 : 0 < c) (hd : dist ∣ d) (hd0 : 0 < d) (hdn : d ≤ n) (hfuel : c ≤ d + fuel)
    (ht : n + len ≤ total) :
    PatternFilled w b dist (b + total + laneSlack safe c) (n + len) (unrollCopy safe c fuel d len out v) := by
  induction fuel generalizing d len n out v with
  | zero => exact h.copyBehind ho hc0 hd hdn (.inl hfuel) ht
  | succ fuel ih =>
    unfold Machine.unrollCopy
    split
    next hgo =>
      rw [show n + len = n + d + (len - d) by omega]
      exact ih (h.serialCopy ho hd hd0 hdn (by omega)) (by omega) (hd.mul_left 2) (by omega) (by omega) (by omega)
        (by omega)
    next hstop => exact h.copyBehind ho hc0 hd hdn (by omega) ht

theorem PatternFilled.sliceCopy {fuel : Nat} (h : PatternFilled w b dist (b + total + laneSlack safe c) n v)
    (ho : out = b + n) (hc0 : 0 < c) (hcd : c ≤ dist) (hdn : dist ≤ n) (hfuel : len ≤ fuel) (ht : n + len ≤ total) :
    PatternFilled w b dist (b + total + laneSlack safe c) (n + len) (sliceCopy safe c dist fuel len out v) := by
  induction fuel generalizing len n out v with
  | zero =>
    obtain rfl : len = 0 := by omega
    exact h
  | succ fuel ih =>
    unfold Machine.sliceCopy
    split
    next h0 =>
      subst h0
      exact h
    · rw [show n + len = n + min dist len + (len - min dist len) by omega]
      exact ih (h.copyBehind ho hc0 dvd_rfl hdn (.inl hcd) (by omega)) (by omega) (by omega) (by omega) (by omega)

/-- The four rules of R167 to R171, each in the chunked regime. -/
theorem chunkCopy_filled {left : Nat} (hw : w.wf) (hc0 : 0 < c) (hd0 : 1 ≤ dist) (hdo : dist ≤ out) (hreg : 3 * c ≤ left) :
    PatternFilled w (out - dist) dist (out - dist + (dist + len) + laneSlack safe c) (dist + len)
      (chunkCopy c out dist len left safe w) := by
  have hstart : PatternFilled w (out - dist) dist (out - dist + (dist + len) + laneSlack safe c) dist w :=
    patternFilled_start hw
  have ho : out = out - dist + dist := by omega
  unfold chunkCopy
  rw [if_neg (Nat.not_lt_of_le hreg)]
  split
  next h0 =>
    subst h0
    exact hstart
  split
  next hlt =>
    split
    next hdvd =>
      refine hstart.replicateChunk ho hc0 (by simp) (Nat.dvd_of_mod_eq_zero hdvd.2) le_rfl fun i hi => ?_
      rw [Nat.add_mod_left, List.getD_eq_getElem?_getD, List.getElem?_map, List.getElem?_range hi]
      rfl
    · exact hstart.unrollCopy ho hc0 dvd_rfl hd0 le_rfl (by omega) le_rfl
  next hge =>
    split
    next heq =>
      subst heq
      exact hstart.replicateChunk ho hc0 (length_loadChunk _) dvd_rfl le_rfl fun i hi =>
        hstart.getD_loadChunk ho dvd_rfl le_rfl hi hi
    · exact hstart.sliceCopy ho hc0 (by omega) le_rfl le_rfl le_rfl

/-- Whatever the regime and the variant, the chunked algorithm fills the pattern and writes at most a chunk past it. -/
theorem chunkCopy_filled_within {left : Nat} (hw : w.wf) (hc0 : 0 < c) (hd0 : 1 ≤ dist) (hdo : dist ≤ out) :
    ∃ lim, lim ≤ out + len + c ∧ (safe = true ∨ left < 3 * c → lim ≤ out + len) ∧
      PatternFilled w (out - dist) dist lim (dist + len) (chunkCopy c out dist len left safe w) := by
  by_cases hreg : left < 3 * c
  · refine ⟨out + len, by omega, fun _ => le_rfl, ?_⟩
    rw [chunkCopy, if_pos hreg]
    exact (patternFilled_start hw).serialCopy (by omega) dvd_rfl hd0 le_rfl (by omega)
  · refine ⟨_, ?_, fun h => ?_, chunkCopy_filled hw hc0 hd0 hdo (Nat.le_of_not_lt hreg)⟩
    · unfold laneSlack
      split <;> omega
    · rw [h.resolve_right hreg, laneSlack, if_pos rfl]
      omega

end Filled

/-- Settles O58: both copies repeat the `dist` bytes before `out` (`chunkCopy_filled_within`,
`read_serialCopy_eq_pattern`). -/
theorem chunkedAlgorithmEqualsTheSerialCopy : Obligations.ChunkedAlgorithmEqualsTheSerialCopy := by
  unfold Obligations.ChunkedAlgorithmEqualsTheSerialCopy
  intro c out dist len left safe w hw hc hd0 hdo _
  obtain ⟨lim, hlim, hexact, hfill⟩ :=
    chunkCopy_filled_within (c := c) (len := len) (left := left) (safe := safe) hw (by omega) hd0 hdo
  refine ⟨fun i hi => ?_, fun x hx => ?_, fun x hx => hfill.above x (by omega),
    fun h x hx => hfill.above x ((hexact h).trans hx)⟩
  · have hread := hfill.inside (dist + i) (by omega)
    rwa [show out - dist + (dist + i) = out + i by omega, Nat.add_mod_left,
      ← read_serialCopy_eq_pattern hw hd0 hdo hi] at hread
  · by_cases hxb : x < out - dist
    · exact hfill.below x hxb
    · have hread := hfill.inside (x - (out - dist)) (by omega)
      rwa [Nat.mod_eq_of_lt (by omega), show out - dist + (x - (out - dist)) = x by omega] at hread

end Sys2Proof.Machine
end
